-- ==== Sys2Proof/Word.lean ====
section
/-! DEFINITION. The bit-vector types of the core: one word, one port image (spec rules R6, R8). -/

namespace Sys2Proof

/-- A 32-bit word (R6: `W`). -/
abbrev Word := BitVec 32

/-- A 256-bit port image, eight words, word 0 least significant (R6: `PORTW`; R8). -/
abbrev Image := BitVec 256

end Sys2Proof
end

