-- ==== Sys2Proof/Syntax.lean ====
section
/-! DEFINITION. The 51 commands of the opcode map (spec rule R47), with their immediates (R43). -/

namespace Sys2Proof

/-- One constructor per row of the opcode map (R47). A format-CI command carries its `imm8` (R42, R43);
`dsbit` carries the two parts of its `imm8` apart (R123). -/
inductive Instr where
  -- bit primitives (40)
  | btst (i : BitVec 8)
  | bset (i : BitVec 8)
  | bclr (i : BitVec 8)
  | bflp (i : BitVec 8)
  -- extended add, subtract, shift, compare (41)
  | xadd
  | xsub
  | xshl (n : BitVec 8)
  | xshr (n : BitVec 8)
  | xgt
  | xeq
  | xzero
  | xisneg
  | xsgnclr
  -- extended multiply and divide (42)
  | xmul
  | xmul10
  | xdiv
  | xfdiv
  -- scale manager, classifier, widen, downcast (43)
  | xwiden
  | xdown
  | xnorm
  | xinc
  | xdec
  | xcls
  -- Decimal accessors (44)
  | dzero
  | dgsign
  | dssign (sg : BitVec 8)
  | dgscale
  | dsscale (t : BitVec 8)
  | dgbit (i : BitVec 8)
  | dsbit (b : Bool) (i : BitVec 7)
  -- Decimal arithmetic (45)
  | add
  | sub
  | mul
  | div
  | mod
  -- Decimal comparison (46)
  | clt
  | cle
  | cgt
  | cge
  | ceq
  | cne
  -- rounding and sign (47)
  | floor
  | round (ts : BitVec 8)
  | trunc
  | neg
  -- converters (48)
  | fromi
  | fromf
  | toi
  | tof
  | fxtr
  | fbld
  deriving DecidableEq, Repr

end Sys2Proof
end

