-- ==== Sys2Proof/Decode.lean ====
section
/-! DEFINITION. The decoder, total on all 2^32 command words and rejecting by name (spec rules R41 to R44, R47,
R48), and after it the encoder written from the same encodings. -/

namespace Sys2Proof

/-- Why a command word is illegal (R44): the three tests of the decoder. -/
inductive DecodeError where
  /-- `cmd[31:16] != 0`. -/
  | reservedBitsSet
  /-- `cmd[7:0]` is not in the opcode map of R47. -/
  | opcodeUnassigned
  /-- `cmd[15:8]` is not legal for the opcode by R43. -/
  | immediateOutOfRange
  deriving DecidableEq, Repr

/-- `cmd[7:0]` (R41). -/
def opcodeField (c : Word) : BitVec 8 := c.extractLsb' 0 8

/-- `cmd[15:8]` (R41). -/
def immField (c : Word) : BitVec 8 := c.extractLsb' 8 8

/-- `cmd[31:16]` (R41). -/
def reservedField (c : Word) : BitVec 16 := c.extractLsb' 16 16

/-- Format C0: `imm8` must be 0 (R42). -/
def plain (imm : BitVec 8) (i : Instr) : Except DecodeError Instr :=
  if imm = 0 then .ok i else .error .immediateOutOfRange

/-- Format CI with the legal values 0 to `top` (R43). -/
def ranged (top : Nat) (imm : BitVec 8) (mk : BitVec 8 → Instr) : Except DecodeError Instr :=
  if imm.toNat ≤ top then .ok (mk imm) else .error .immediateOutOfRange

/-- DSBIT: `imm8[6:0]` is the bit index, 0 to 95, and `imm8[7]` the new bit (R43, R123). -/
def bitChoice (imm : BitVec 8) : Except DecodeError Instr :=
  if (imm.extractLsb' 0 7).toNat ≤ 95 then .ok (.dsbit (imm.getLsbD 7) (imm.extractLsb' 0 7))
  else .error .immediateOutOfRange

/-- The opcode map (R47) with the immediate ranges (R43). -/
def decodeFields (op imm : BitVec 8) : Except DecodeError Instr :=
  match op.toNat with
  | 0x10 => ranged 31 imm .btst
  | 0x11 => ranged 31 imm .bset
  | 0x12 => ranged 31 imm .bclr
  | 0x13 => ranged 31 imm .bflp
  | 0x20 => plain imm .xadd
  | 0x21 => plain imm .xsub
  | 0x22 => .ok (.xshl imm)
  | 0x23 => .ok (.xshr imm)
  | 0x24 => plain imm .xgt
  | 0x25 => plain imm .xeq
  | 0x26 => plain imm .xzero
  | 0x27 => plain imm .xisneg
  | 0x28 => plain imm .xsgnclr
  | 0x30 => plain imm .xmul
  | 0x31 => plain imm .xmul10
  | 0x32 => plain imm .xdiv
  | 0x33 => plain imm .xfdiv
  | 0x40 => plain imm .xwiden
  | 0x41 => plain imm .xdown
  | 0x42 => plain imm .xnorm
  | 0x43 => plain imm .xinc
  | 0x44 => plain imm .xdec
  | 0x45 => plain imm .xcls
  | 0x48 => plain imm .dzero
  | 0x49 => plain imm .dgsign
  | 0x4A => ranged 1 imm .dssign
  | 0x4B => plain imm .dgscale
  | 0x4C => ranged 28 imm .dsscale
  | 0x4D => ranged 95 imm .dgbit
  | 0x4E => bitChoice imm
  | 0x50 => plain imm .add
  | 0x51 => plain imm .sub
  | 0x52 => plain imm .mul
  | 0x53 => plain imm .div
  | 0x54 => plain imm .mod
  | 0x60 => plain imm .clt
  | 0x61 => plain imm .cle
  | 0x62 => plain imm .cgt
  | 0x63 => plain imm .cge
  | 0x64 => plain imm .ceq
  | 0x65 => plain imm .cne
  | 0x70 => plain imm .floor
  | 0x71 => ranged 28 imm .round
  | 0x72 => plain imm .trunc
  | 0x73 => plain imm .neg
  | 0x80 => plain imm .fromi
  | 0x81 => plain imm .fromf
  | 0x82 => plain imm .toi
  | 0x83 => plain imm .tof
  | 0x84 => plain imm .fxtr
  | 0x85 => plain imm .fbld
  | _ => .error .opcodeUnassigned

/-- The decoder (R44). -/
def decode (c : Word) : Except DecodeError Instr :=
  if reservedField c = 0 then decodeFields (opcodeField c) (immField c) else .error .reservedBitsSet

/-- The command word with the given opcode and immediate: `imm << 8 | opcode` (R41, R66). -/
def commandWord (op imm : BitVec 8) : Word := 0#16 ++ imm ++ op

/-- The command word of an instruction (R42, R47). -/
def encode (i : Instr) : Word :=
  match i with
  | .btst k => commandWord 0x10 k
  | .bset k => commandWord 0x11 k
  | .bclr k => commandWord 0x12 k
  | .bflp k => commandWord 0x13 k
  | .xadd => commandWord 0x20 0
  | .xsub => commandWord 0x21 0
  | .xshl k => commandWord 0x22 k
  | .xshr k => commandWord 0x23 k
  | .xgt => commandWord 0x24 0
  | .xeq => commandWord 0x25 0
  | .xzero => commandWord 0x26 0
  | .xisneg => commandWord 0x27 0
  | .xsgnclr => commandWord 0x28 0
  | .xmul => commandWord 0x30 0
  | .xmul10 => commandWord 0x31 0
  | .xdiv => commandWord 0x32 0
  | .xfdiv => commandWord 0x33 0
  | .xwiden => commandWord 0x40 0
  | .xdown => commandWord 0x41 0
  | .xnorm => commandWord 0x42 0
  | .xinc => commandWord 0x43 0
  | .xdec => commandWord 0x44 0
  | .xcls => commandWord 0x45 0
  | .dzero => commandWord 0x48 0
  | .dgsign => commandWord 0x49 0
  | .dssign k => commandWord 0x4A k
  | .dgscale => commandWord 0x4B 0
  | .dsscale k => commandWord 0x4C k
  | .dgbit k => commandWord 0x4D k
  | .dsbit b k => commandWord 0x4E (BitVec.ofBool b ++ k)
  | .add => commandWord 0x50 0
  | .sub => commandWord 0x51 0
  | .mul => commandWord 0x52 0
  | .div => commandWord 0x53 0
  | .mod => commandWord 0x54 0
  | .clt => commandWord 0x60 0
  | .cle => commandWord 0x61 0
  | .cgt => commandWord 0x62 0
  | .cge => commandWord 0x63 0
  | .ceq => commandWord 0x64 0
  | .cne => commandWord 0x65 0
  | .floor => commandWord 0x70 0
  | .round k => commandWord 0x71 k
  | .trunc => commandWord 0x72 0
  | .neg => commandWord 0x73 0
  | .fromi => commandWord 0x80 0
  | .fromf => commandWord 0x81 0
  | .toi => commandWord 0x82 0
  | .tof => commandWord 0x83 0
  | .fxtr => commandWord 0x84 0
  | .fbld => commandWord 0x85 0

/-- The instruction the decoder reads from the `nbits` low bits of `w`, every bit above them 0. The core has one
word length, 32 bits, and no byte order (R34, R41): a value that needs more bits is no command word. -/
def decodeTableWord (nbits w : Nat) : Option Instr :=
  if w % 2 ^ nbits < 2 ^ 32 then (decode (BitVec.ofNat 32 (w % 2 ^ nbits))).toOption else none

end Sys2Proof
end

