-- ==== Sys2Proof/Config.lean ====
section
/-! DEFINITION. What an implementation fixes (`LATENCY`) and the free values that stand for every
"unspecified" of the spec. All are opaque: no proof can see what they are (log 3, log 6). -/

namespace Sys2Proof.Config

/-- `LATENCY(cmd, opa, opb) - 1` (R199: OPEN, "any finite value of at least 1"). -/
opaque latencyLessOne : Word → Image → Image → Nat

/-- The free value of `RES` for the `n`-th draw (R18, R25, R185). -/
opaque freeRes : Nat → Image

/-- The free value of `RES2` for the `n`-th draw (R18, R25, R185). -/
opaque freeRes2 : Nat → Image

/-- The free value of `STATUS` for the `n`-th draw (R18, R25). -/
opaque freeStatus : Nat → Word

/-- The free value of `CMD` after `rst` (R25). -/
opaque freeCmd : Nat → Word

/-- The free value of `OPA` after `rst` (R25). -/
opaque freeOpa : Nat → Image

/-- The free value of `OPB` after `rst` (R25). -/
opaque freeOpb : Nat → Image

/-- The free value of the scratch register `XA` (R22). -/
opaque freeXa : Nat → Image

/-- The free value of the scratch register `XB` (R22). -/
opaque freeXb : Nat → Image

/-- The free value of the scratch register `XACC` (R22). -/
opaque freeXacc : Nat → Image

/-- The free value of the partial remainder `XREM` (R22, R98). -/
opaque freeXrem : Nat → BitVec 228

/-- The free value of the scratch counters (R13). -/
opaque freeCounters : Nat → Nat

/-- `LATENCY(cmd, opa, opb)`: the steps from the accepted `start` to the completion (R199). -/
def latency (cmd : Word) (opa opb : Image) : Nat := latencyLessOne cmd opa opb + 1

end Sys2Proof.Config
end

