-- ==== Sys2Proof/Machine/Operands.lean ====
section
/-! DEFINITION. The images on the ports: fields, validity and builders of DEC128, XREG256, W32, BOOL, F32 and
FPARTS (spec rules R6, R8, R33, R49 to R58, R63 to R65), and the powers of ten. -/

namespace Sys2Proof.Machine

/-- `MAX96 = 2^96 - 1` (R6). -/
def max96 : Nat := 2 ^ 96 - 1

/-- `MAXSCALE` (R6). -/
def maxScale : Nat := 28

/-- The size `2^224` of the extended register's value (R6: `XW`). -/
def xSize : Nat := 2 ^ 224

/-- `bitlen(v)` (R8). -/
def bitlen (v : Nat) : Nat := if v = 0 then 0 else v.log2 + 1

/-- The word `p.w[i]` of an image (R8, R33). -/
def word (p : Image) (i : Nat) : Word := p.extractLsb' (32 * i) 32

/-! ### The flags word, common to DEC128 and XREG256 (R52, R57) -/

/-- Bit 31 of a flags word: the sign. -/
def flagSign (w : Word) : Bool := w.getLsbD 31

/-- Bits 23 to 16 of a flags word: the scale. -/
def flagScale (w : Word) : Nat := (w.extractLsb' 16 8).toNat

/-- Bits 30 to 24 and 15 to 0 of a flags word are zero (R53, R58). -/
def flagReservedZero (w : Word) : Bool := w.extractLsb' 24 7 == 0 && w.extractLsb' 0 16 == 0

/-- The flags word with the given scale and sign, reserved bits zero. -/
def flagsWord (sc : Nat) (sg : Bool) : Word := BitVec.ofBool sg ++ 0#7 ++ BitVec.ofNat 8 sc ++ 0#16

/-- The triple (mantissa or value, scale, sign) of a Decimal or an Extended Register (R9, R10); the number it
stands for is `(-1)^sg * v / 10^sc`. -/
structure Triple where
  v : Nat
  sc : Nat
  sg : Bool
  deriving DecidableEq, Repr

/-! ### DEC128 -/

/-- `DEC(p)` (R52, R54). -/
def dec (p : Image) : Triple :=
  { v := (p.extractLsb' 0 96).toNat, sc := flagScale (word p 3), sg := flagSign (word p 3) }

/-- A valid Decimal image (R53). -/
def decValid (p : Image) : Bool := flagReservedZero (word p 3) && decide (flagScale (word p 3) ≤ maxScale)

/-- `dec_img(m, sc, sg)` (R52), zero-extended to the port (R49). -/
def decImg (t : Triple) : Image := 0#128 ++ flagsWord t.sc t.sg ++ BitVec.ofNat 96 t.v

/-- `POS_INF` (R56). -/
def posInf : Image := 0#128 ++ 0x00FF0000#32 ++ 0xFFFFFFFF#32 ++ 0xFFFFFFFF#32 ++ 0xFFFFFFFF#32

/-- `NEG_INF` (R56). -/
def negInf : Image := 0#128 ++ 0x80FF0000#32 ++ 0xFFFFFFFF#32 ++ 0xFFFFFFFF#32 ++ 0xFFFFFFFF#32

/-! ### XREG256 -/

/-- `XR(p)` (R57). -/
def xr (p : Image) : Triple :=
  { v := (p.extractLsb' 0 224).toNat, sc := flagScale (word p 7), sg := flagSign (word p 7) }

/-- A valid Extended Register image (R58). -/
def xrValid (p : Image) : Bool := flagReservedZero (word p 7)

/-- `xr_img(v, sc, sg)` (R57). -/
def xrImg (t : Triple) : Image := flagsWord t.sc t.sg ++ BitVec.ofNat 224 t.v

/-! ### W32, I32, F32, BOOL -/

/-- A word on a port, upper bits zero (R49: W32, I32, F32). -/
def wordImg (w : Word) : Image := 0#224 ++ w

/-- A truth value on a port (R49: BOOL). -/
def boolImg (b : Bool) : Image := 0#255 ++ BitVec.ofBool b

/-! ### FPARTS -/

/-- The class of a float (R65: `cls`). -/
inductive FloatClass where
  | zero
  | subnormal
  | normal
  | infinity
  | nan
  deriving DecidableEq, Repr

/-- The number of a class in FPARTS word 3 (R65). -/
def FloatClass.number (c : FloatClass) : Nat :=
  match c with
  | .zero => 0
  | .subnormal => 1
  | .normal => 2
  | .infinity => 3
  | .nan => 4

/-- The decomposed float of R65: fraction, biased exponent, sign, class, significand and unbiased exponent. -/
structure FloatParts where
  frac : BitVec 23
  bexp : BitVec 8
  sgn : Bool
  cls : FloatClass
  sig : Nat
  uexp : Int
  deriving DecidableEq, Repr

/-- The fields of a single-precision pattern (R63, R161). -/
def floatParts (x : Word) : FloatParts :=
  let f := x.extractLsb' 0 23
  let e := x.extractLsb' 23 8
  let cls : FloatClass :=
    if e.toNat = 255 then (if f.toNat = 0 then .infinity else .nan)
    else if e.toNat = 0 then (if f.toNat = 0 then .zero else .subnormal)
    else .normal
  { frac := f, bexp := e, sgn := x.getLsbD 31, cls := cls,
    sig := match cls with
      | .subnormal => f.toNat
      | .normal => 2 ^ 23 + f.toNat
      | .zero | .infinity | .nan => 0,
    uexp := match cls with
      | .subnormal => -149
      | .normal => (e.toNat : Int) - 150
      | .zero | .infinity | .nan => 0 }

/-- The FPARTS image of a decomposed float (R65), words 6 and 7 zero. -/
def floatPartsImg (q : FloatParts) : Image :=
  0#64 ++ BitVec.ofInt 32 q.uexp ++ BitVec.ofNat 32 q.sig ++ BitVec.ofNat 32 q.cls.number
    ++ (0#31 ++ BitVec.ofBool q.sgn) ++ (0#24 ++ q.bexp) ++ (0#9 ++ q.frac)

/-- A valid FPARTS input (R65): only words 0 to 2 are looked at. -/
def floatPartsValid (p : Image) : Bool :=
  decide ((word p 0).toNat < 2 ^ 23) && decide ((word p 1).toNat < 256) && decide ((word p 2).toNat < 2)

/-- The float pattern with the given sign, biased exponent and fraction (R63). -/
def floatWord (sg : Bool) (e f : Nat) : Word := BitVec.ofBool sg ++ BitVec.ofNat 8 e ++ BitVec.ofNat 23 f

end Sys2Proof.Machine
end

