-- ==== Sys2Proof/Machine/Flags.lean ====
section
/-! DEFINITION. The status word (spec rules R20, R59 to R62) and what one command delivers (R18, R189). -/

namespace Sys2Proof.Machine

/-- The status codes (R60); code 6 is never produced. -/
inductive StatusCode where
  | success
  | positiveInf
  | negativeInf
  | zeroDivision
  | convertingError
  | invalidOperand
  | illegalCommand
  deriving DecidableEq, Repr

/-- The number of a status code, `STATUS[2:0]` (R60). -/
def StatusCode.bits (c : StatusCode) : BitVec 3 :=
  match c with
  | .success => 0
  | .positiveInf => 1
  | .negativeInf => 2
  | .zeroDivision => 3
  | .convertingError => 4
  | .invalidOperand => 5
  | .illegalCommand => 7

/-- The status word: code in bits 2 to 0, `OVF` in bit 8, `X96` in bit 9, the rest zero (R59). -/
def statusWord (code : StatusCode) (ovf x96 : Bool) : Word :=
  0#22 ++ BitVec.ofBool x96 ++ BitVec.ofBool ovf ++ 0#5 ++ code.bits

/-- The status code of a saturation: the infinity of the result's sign (R177). -/
def infinityCode (sg : Bool) : StatusCode := if sg then .negativeInf else .positiveInf

/-- The image of a saturation (R56, R177). -/
def infinityImg (sg : Bool) : Image := if sg then negInf else posInf

/-- What a command delivers at its completion: the status fields, and the images for `RES` and `RES2`, or
`none` where they are unspecified (R18, R185). -/
structure Result where
  code : StatusCode
  ovf : Bool
  x96 : Bool
  out : Option (Image × Image)
  deriving DecidableEq, Repr

/-- The status word of a result (R59). -/
def Result.statusWord (r : Result) : Word := Machine.statusWord r.code r.ovf r.x96

/-- A completion with a code whose results are unspecified: `OVF = 0`, `X96 = 0` (R185, R189). -/
def Result.error (code : StatusCode) : Result := { code := code, ovf := false, x96 := false, out := none }

/-- A completion whose `res` is not an XREG256: `RES2 <- 0`, `OVF = 0`, `X96 = 0` (R18, R61, R62). -/
def Result.plain (code : StatusCode) (res : Image) : Result :=
  { code := code, ovf := false, x96 := false, out := some (res, 0) }

/-- `X96` of an XREG256 image written to `res` (R62). -/
def exceeds96 (p : Image) : Bool := decide (max96 < (xr p).v)

/-- A completion whose `res` is the XREG256 image `res`, with the given second image (R61, R62). -/
def Result.extended (code : StatusCode) (ovf : Bool) (res res2 : Image) : Result :=
  { code := code, ovf := ovf, x96 := exceeds96 res, out := some (res, res2) }

/-- A truth value with SUCCESS (R49: BOOL). -/
def Result.bool (b : Bool) : Result := Result.plain .success (boolImg b)

/-- A result that exists only for a legal immediate; any other immediate has no legal command word (R43). -/
def Result.legal (ok : Bool) (r : Result) : Result := if ok then r else Result.error .illegalCommand

/-! ### The operand checks, before anything else is computed (R51, R179) -/

/-- One DEC128 operand (R53). -/
def withDec (a : Image) (k : Triple → Result) : Result :=
  if decValid a then k (dec a) else Result.error .invalidOperand

/-- Two DEC128 operands (R53). -/
def withDec2 (a b : Image) (k : Triple → Triple → Result) : Result :=
  if decValid a && decValid b then k (dec a) (dec b) else Result.error .invalidOperand

/-- One XREG256 operand (R58). -/
def withXr (a : Image) (k : Triple → Result) : Result :=
  if xrValid a then k (xr a) else Result.error .invalidOperand

/-- Two XREG256 operands (R58). -/
def withXr2 (a b : Image) (k : Triple → Triple → Result) : Result :=
  if xrValid a && xrValid b then k (xr a) (xr b) else Result.error .invalidOperand

end Sys2Proof.Machine
end

