-- ==== Sys2Proof/Machine/State.lean ====
section
/-! DEFINITION. The state of the core as plain data (spec rules R13 to R27), its reset, and the two reasons
a step can stop. -/

namespace Sys2Proof.Machine

/-- What the host drives in one step: the input ports of R32 and whether it reads an output register in that
step (R198, "collect"). -/
structure HostDrive where
  /-- Port `rst` is asserted (R25, R191). -/
  rst : Bool
  /-- Port `start` is asserted (R17). -/
  start : Bool
  /-- The host reads `res`, `res2` or `status` in this step (R26, R198). -/
  collect : Bool
  /-- Port `cmd`. -/
  cmd : Word
  /-- Port `opa`. -/
  opa : Image
  /-- Port `opb`. -/
  opb : Image
  deriving DecidableEq, Repr

/-- A host that asserts nothing and reads nothing. -/
def HostDrive.idle : HostDrive :=
  { rst := false, start := false, collect := false, cmd := 0, opa := 0, opb := 0 }

/-- The transient scratch registers (R13, R22); `xrem` is 228 bits wide (R98). The spec gives the counters
neither a number nor a width: one natural number stands for all of them (log 2). -/
structure Scratch where
  xa : Image
  xb : Image
  xacc : Image
  xrem : BitVec 228
  counters : Nat
  deriving DecidableEq, Repr

/-- The complete state of the core (R13). `host` and `draw` are the model's own fields (log 3, log 4). -/
structure State where
  /-- Input latch `CMD` (R17). -/
  cmd : Word
  /-- Input latch `OPA` (R17). -/
  opa : Image
  /-- Input latch `OPB` (R17). -/
  opb : Image
  /-- Output register `RES` (R18). -/
  res : Image
  /-- Output register `RES2` (R18). -/
  res2 : Image
  /-- Output register `STATUS` (R18, R59). -/
  status : Word
  /-- Handshake flag `BUSY` (R19). -/
  busy : Bool
  /-- Handshake flag `DONE` (R19). -/
  done : Bool
  /-- Scratch registers (R22). -/
  scratch : Scratch
  /-- Progress of the running command (R23): the waiting steps left before the completing step. -/
  progress : Nat
  /-- The model's own: how many draws of free values were made (log 3). -/
  draw : Nat
  /-- The model's own: what the host drives in the coming steps, the next one first (log 4). -/
  host : List HostDrive
  deriving DecidableEq, Repr

/-- Why a step stops with a fault. -/
inductive Fault where
  /-- Raised by the step when the host reads `RES`, `RES2` or `STATUS` while `DONE = 0`; R26: "A model should
  make such a read a fault of the host". Safe: the core itself would go on, so fewer runs are described. -/
  | outputReadUndefined
  deriving DecidableEq, Repr

/-- Why a step is refused. -/
inductive Refusal where
  /-- Raised by an arm of `exec` whose instruction has no meaning yet, of which there is none. Safe: the model
  stops. -/
  | notModelled (mnemonic : String)
  deriving DecidableEq, Repr

/-- The core right after reset (R25): idle, nothing done. The registers for which R25 gives no value hold 0
(log 1, log 2); no host input is pending (log 4). -/
def State.reset : State :=
  { cmd := 0, opa := 0, opb := 0, res := 0, res2 := 0, status := 0, busy := false, done := false,
    scratch := { xa := 0, xb := 0, xacc := 0, xrem := 0, counters := 0 },
    progress := 0, draw := 0, host := [] }

end Sys2Proof.Machine
end

