-- ==== Sys2Proof/Machine/Ops.lean ====
section
/-! DEFINITION. The named operations on the state: accepting a start, waiting, completing, reset, and the
host's reads (spec rules R17 to R19, R25, R26, R185, R191). The core takes no exception (R176, R184): an error
is a completion like any other, `State.complete` of a `Result.error`. -/

namespace Sys2Proof.Machine

/-- The scratch registers hold nothing defined (R22): the `n`-th free values. -/
def Scratch.free (n : Nat) : Scratch :=
  { xa := Config.freeXa n, xb := Config.freeXb n, xacc := Config.freeXacc n, xrem := Config.freeXrem n,
    counters := Config.freeCounters n }

/-- What the host drives in the coming step; when its list is used up it drives nothing (log 4). -/
def State.drive (s : State) : HostDrive :=
  match s.host with
  | [] => HostDrive.idle
  | d :: _ => d

/-- The coming step's host input is used up. -/
def State.advanceHost (s : State) : State := { s with host := s.host.tail }

/-- The output registers and the scratch registers while a command runs hold nothing defined (R18, R22). -/
def State.scramble (s : State) : State :=
  { s with
    res := Config.freeRes s.draw, res2 := Config.freeRes2 s.draw, status := Config.freeStatus s.draw,
    scratch := Scratch.free s.draw, draw := s.draw + 1 }

/-- An accepted `start`: the ports are latched and the command begins (R17); it completes `LATENCY` steps
later (R18, R199). -/
def State.accept (s : State) (d : HostDrive) : State :=
  { s.scramble with
    cmd := d.cmd, opa := d.opa, opb := d.opb, busy := true, done := false,
    progress := Config.latencyLessOne d.cmd d.opa d.opb }

/-- One step of the running command before its completing step (R18, R23). -/
def State.wait (s : State) : State := { s.scramble with progress := s.progress - 1 }

/-- The image a completion puts in `RES` (R18, R185). -/
def Result.resAt (r : Result) (draw : Nat) : Image :=
  match r.out with
  | some o => o.1
  | none => Config.freeRes draw

/-- The image a completion puts in `RES2` (R18, R185). -/
def Result.res2At (r : Result) (draw : Nat) : Image :=
  match r.out with
  | some o => o.2
  | none => Config.freeRes2 draw

/-- The completing step of a command: all outputs are written together and the flags change (R18). -/
def State.complete (s : State) (r : Result) : State :=
  { s with
    res := r.resAt s.draw, res2 := r.res2At s.draw, status := r.statusWord, busy := false, done := true,
    scratch := Scratch.free s.draw, draw := s.draw + 1 }

/-- A command word that does not decode completes with ILLEGAL_COMMAND, the operands not looked at (R181). -/
def State.completeIllegal (s : State) : State := s.complete (Result.error .illegalCommand)

/-- `rst` in a run: idle, a running command abandoned; the other registers hold nothing defined (R25, R191). -/
def State.resetPulse (s : State) : State :=
  { s.scramble with
    cmd := Config.freeCmd s.draw, opa := Config.freeOpa s.draw, opb := Config.freeOpb s.draw,
    busy := false, done := false, progress := 0 }

/-! ### The output ports (R32) -/

/-- A host read of an output register: a fault while `DONE = 0` (R26), else the register (R18). -/
def State.readOutput {α : Type} (s : State) (register : State → α) : Except Fault α :=
  if s.done then .ok (register s) else .error .outputReadUndefined

/-- Port `res`. -/
def State.readRes (s : State) : Except Fault Image := s.readOutput State.res

/-- Port `res2`. -/
def State.readRes2 (s : State) : Except Fault Image := s.readOutput State.res2

/-- Port `status`. -/
def State.readStatus (s : State) : Except Fault Word := s.readOutput State.status

/-- The host reads an output register in this step although none holds a value (R26, R194). -/
def State.readsTooEarly (s : State) : Bool := s.drive.collect && !s.done

/-! ### Running a given command word (log 5) -/

/-- The word `c` latched as the command whose completing step is the very next step: `CMD`, `BUSY`, `DONE` and
the progress as R17 leaves them when no waiting step is left, and no `rst` or early read in that step. -/
def State.loadCommand (s : State) (c : Word) : State :=
  { s with
    cmd := c, busy := true, done := false, progress := 0,
    host := match s.host with
      | [] => []
      | d :: ds => HostDrive.idle :: d :: ds }

end Sys2Proof.Machine
end

