-- ==== Sys2Proof/Machine/BitPrims.lean ====
section
/-! DEFINITION. The bit primitives BTST, BSET, BCLR, BFLP (spec rules R71 to R75). -/

namespace Sys2Proof.Machine

/-- The word with only bit `i` set: `1 << i` (R73). -/
def bitMask (i : Nat) : Word := 1#32 <<< i

/-- BTST (R72). -/
def btstResult (i : BitVec 8) (a : Image) : Result :=
  Result.legal (decide (i.toNat ≤ 31)) (Result.bool ((word a 0).getLsbD i.toNat))

/-- BSET (R73). -/
def bsetResult (i : BitVec 8) (a : Image) : Result :=
  Result.legal (decide (i.toNat ≤ 31)) (Result.plain .success (wordImg (word a 0 ||| bitMask i.toNat)))

/-- BCLR (R74). -/
def bclrResult (i : BitVec 8) (a : Image) : Result :=
  Result.legal (decide (i.toNat ≤ 31)) (Result.plain .success (wordImg (word a 0 &&& ~~~bitMask i.toNat)))

/-- BFLP (R75). -/
def bflpResult (i : BitVec 8) (a : Image) : Result :=
  Result.legal (decide (i.toNat ≤ 31)) (Result.plain .success (wordImg (word a 0 ^^^ bitMask i.toNat)))

/-- BTST, test a bit (R72). -/
def execBtst (i : BitVec 8) (s : State) : Host.Outcome State Fault Refusal :=
  .next (s.complete (btstResult i s.opa))

/-- BSET, set a bit (R73). -/
def execBset (i : BitVec 8) (s : State) : Host.Outcome State Fault Refusal :=
  .next (s.complete (bsetResult i s.opa))

/-- BCLR, clear a bit (R74). -/
def execBclr (i : BitVec 8) (s : State) : Host.Outcome State Fault Refusal :=
  .next (s.complete (bclrResult i s.opa))

/-- BFLP, flip a bit (R75). -/
def execBflp (i : BitVec 8) (s : State) : Host.Outcome State Fault Refusal :=
  .next (s.complete (bflpResult i s.opa))

end Sys2Proof.Machine
end

