-- ==== Sys2Proof/Machine/Rounding.lean ====
section
/-! DEFINITION. Rounding and sign: FLOOR, ROUND, TRUNC, NEG, and the rounding primitive `rhe` of the whole core
(spec rules R151 to R157). -/

namespace Sys2Proof.Machine

/-- `v / d` rounded to the nearest natural, ties to the even one; `h` is `d / 2`, so a tie is `2 * r = d`.
`rhe` (R151) is the case `d = 10^k`, `rhe2` (R165) the case `d = 2^n`, and TOF (R166) uses it directly. -/
def roundHalfEven (v d : Nat) : Nat :=
  if d < 2 * (v % d) ∨ 2 * (v % d) = d ∧ v / d % 2 = 1 then v / d + 1 else v / d

/-- `rhe(v, k)`: round `v / 10^k` half to even (R151). -/
def rhe (v k : Nat) : Nat := if k = 0 then v else roundHalfEven v (10 ^ k)

/-- FLOOR (R153). -/
def floorResult (a : Image) : Result :=
  withDec a fun x =>
    let t := x.v / 10 ^ x.sc
    let t := if x.sg = true ∧ x.v % 10 ^ x.sc ≠ 0 then t + 1 else t
    Result.plain .success (decImg { v := t, sc := 0, sg := x.sg })

/-- ROUND (R154). -/
def roundResult (ts : BitVec 8) (a : Image) : Result :=
  Result.legal (decide (ts.toNat ≤ maxScale)) <|
    withDec a fun x =>
      if x.sc ≤ ts.toNat then Result.plain .success (decImg x)
      else Result.plain .success (decImg { v := rhe x.v (x.sc - ts.toNat), sc := ts.toNat, sg := x.sg })

/-- TRUNC (R152). -/
def truncResult (a : Image) : Result :=
  withDec a fun x => Result.plain .success (decImg { v := x.v / 10 ^ x.sc, sc := 0, sg := x.sg })

/-- The negation of a Decimal (R155). -/
def negate (x : Triple) : Triple := { x with sg := !x.sg }

/-- NEG (R155). -/
def negResult (a : Image) : Result := withDec a fun x => Result.plain .success (decImg (negate x))

/-- FLOOR, toward negative infinity (R153). -/
def execFloor (s : State) : Host.Outcome State Fault Refusal := .next (s.complete (floorResult s.opa))

/-- ROUND, half to even at a target scale (R154). -/
def execRound (ts : BitVec 8) (s : State) : Host.Outcome State Fault Refusal :=
  .next (s.complete (roundResult ts s.opa))

/-- TRUNC, toward zero (R152). -/
def execTrunc (s : State) : Host.Outcome State Fault Refusal := .next (s.complete (truncResult s.opa))

/-- NEG, flip the sign (R155). -/
def execNeg (s : State) : Host.Outcome State Fault Refusal := .next (s.complete (negResult s.opa))

end Sys2Proof.Machine
end

