-- ==== Sys2Proof/Machine/Convert.lean ====
section
/-! DEFINITION. Converters: FROMI, FROMF, TOI, TOF, FXTR, FBLD (spec rules R159 to R166, R168). -/

namespace Sys2Proof.Machine

/-- FXTR (R161). -/
def fxtrResult (a : Image) : Result := Result.plain .success (floatPartsImg (floatParts (word a 0)))

/-- FBLD (R162). -/
def fbldResult (a : Image) : Result :=
  if floatPartsValid a then
    Result.plain .success (wordImg (word a 2 <<< 31 ||| word a 1 <<< 23 ||| word a 0))
  else Result.error .invalidOperand

/-- FROMI (R163). -/
def fromiResult (a : Image) : Result :=
  let i := (word a 0).toInt
  Result.plain .success (decImg { v := i.natAbs, sc := 0, sg := decide (i < 0) })

/-- TOI (R164). -/
def toiResult (a : Image) : Result :=
  withDec a fun x =>
    let t := x.v / 10 ^ x.sc
    if (x.sg = false ∧ 2 ^ 31 - 1 < t) ∨ (x.sg = true ∧ 2 ^ 31 < t) then Result.error .convertingError
    else Result.plain .success (wordImg (BitVec.ofInt 32 (if x.sg then -(t : Int) else (t : Int))))

/-- The largest scale from `sc` down to 0 at which `u / 2^n` in decimal fits 96 bits, with its rounded mantissa
(R165); at scale 0 the mantissa is taken as it is. -/
def fitScale (u n : Nat) : Nat → Triple
  | 0 => { v := roundHalfEven u (2 ^ n), sc := 0, sg := false }
  | sc + 1 =>
    if roundHalfEven (u * 10 ^ (sc + 1)) (2 ^ n) ≤ max96 then
      { v := roundHalfEven (u * 10 ^ (sc + 1)) (2 ^ n), sc := sc + 1, sg := false }
    else fitScale u n sc

/-- Strip trailing zeros while the scale is above 0 (R165). -/
def stripZeros (m : Nat) : Nat → Triple
  | 0 => { v := m, sc := 0, sg := false }
  | sc + 1 => if m % 10 = 0 then stripZeros (m / 10) sc else { v := m, sc := sc + 1, sg := false }

/-- FROMF (R165). -/
def fromfResult (a : Image) : Result :=
  let q := floatParts (word a 0)
  match q.cls with
  | .infinity | .nan => Result.error .convertingError
  | .zero => Result.plain .success (decImg { v := 0, sc := 0, sg := q.sgn })
  | .subnormal | .normal =>
    if 0 ≤ q.uexp then
      if max96 < q.sig * 2 ^ q.uexp.toNat then Result.error .convertingError
      else Result.plain .success (decImg { v := q.sig * 2 ^ q.uexp.toNat, sc := 0, sg := q.sgn })
    else
      let f := fitScale q.sig (-q.uexp).toNat maxScale
      Result.plain .success (decImg { stripZeros f.v f.sc with sg := q.sgn })

/-- `2^e <= m / p` on naturals, for an exponent of either sign (R166). -/
def powLe (e : Int) (m p : Nat) : Bool :=
  if 0 ≤ e then decide (p * 2 ^ e.toNat ≤ m) else decide (p ≤ m * 2 ^ (-e).toNat)

/-- The integer `e` with `2^e <= m / p < 2^(e+1)`, for `m` and `p` above 0 (R166), found from the bit lengths
(R83). -/
def binaryExponent (m p : Nat) : Int :=
  let e := (bitlen m : Int) - (bitlen p : Int)
  if powLe e m p then e else e - 1

/-- The significand of `m / p` at exponent `e`: rounded to 24 bits, half to even (R166). -/
def floatSignificand (e : Int) (m p : Nat) : Nat :=
  if e ≤ 23 then roundHalfEven (m * 2 ^ (23 - e).toNat) p else roundHalfEven m (p * 2 ^ (e - 23).toNat)

/-- The float nearest to a Decimal (R166). -/
def nearestFloat (x : Triple) : Word :=
  if x.v = 0 then floatWord x.sg 0 0
  else
    let e := binaryExponent x.v (10 ^ x.sc)
    let q := floatSignificand e x.v (10 ^ x.sc)
    if q = 2 ^ 24 then floatWord x.sg (e + 1 + 127).toNat 0
    else floatWord x.sg (e + 127).toNat (q - 2 ^ 23)

/-- TOF (R166). -/
def tofResult (a : Image) : Result := withDec a fun x => Result.plain .success (wordImg (nearestFloat x))

/-- FROMI, integer to Decimal (R163). -/
def execFromi (s : State) : Host.Outcome State Fault Refusal := .next (s.complete (fromiResult s.opa))

/-- FROMF, float to Decimal (R165). -/
def execFromf (s : State) : Host.Outcome State Fault Refusal := .next (s.complete (fromfResult s.opa))

/-- TOI, Decimal to integer (R164). -/
def execToi (s : State) : Host.Outcome State Fault Refusal := .next (s.complete (toiResult s.opa))

/-- TOF, Decimal to float (R166). -/
def execTof (s : State) : Host.Outcome State Fault Refusal := .next (s.complete (tofResult s.opa))

/-- FXTR, IEEE-754 field extraction (R161). -/
def execFxtr (s : State) : Host.Outcome State Fault Refusal := .next (s.complete (fxtrResult s.opa))

/-- FBLD, IEEE-754 reconstruction (R162). -/
def execFbld (s : State) : Host.Outcome State Fault Refusal := .next (s.complete (fbldResult s.opa))

end Sys2Proof.Machine
end

