-- ==== Sys2Proof/Machine/Extended.lean ====
section
/-! DEFINITION. Extended add, subtract, shift and compare: XADD, XSUB, XSHL, XSHR, XGT, XEQ, XZERO, XISNEG,
XSGNCLR (spec rules R77 to R89). -/

namespace Sys2Proof.Machine

/-- The difference of two values as magnitude and sign (R79): `|av - bv|`, the sign flipped on a borrow. -/
def magnitudeDiff (x y : Triple) : Triple :=
  { v := if x.v < y.v then y.v - x.v else x.v - y.v, sc := x.sc, sg := x.sg ^^ decide (x.v < y.v) }

/-- `xsum(x, y)`: the signed sum of two registers of equal scale (R89). -/
def xsum (x y : Triple) : Triple :=
  if x.sg = y.sg then { v := x.v + y.v, sc := x.sc, sg := x.sg } else magnitudeDiff x y

/-- XADD (R78). -/
def xaddResult (a b : Image) : Result :=
  withXr2 a b fun x y =>
    Result.extended .success (decide (xSize ≤ x.v + y.v)) (xrImg { x with v := (x.v + y.v) % xSize }) 0

/-- XSUB (R79). -/
def xsubResult (a b : Image) : Result :=
  withXr2 a b fun x y => Result.extended .success false (xrImg (magnitudeDiff x y)) 0

/-- XSHL (R81). -/
def xshlResult (n : BitVec 8) (a : Image) : Result :=
  withXr a fun x =>
    Result.extended .success (decide (xSize ≤ x.v * 2 ^ n.toNat))
      (xrImg { x with v := x.v * 2 ^ n.toNat % xSize }) 0

/-- XSHR (R82). -/
def xshrResult (n : BitVec 8) (a : Image) : Result :=
  withXr a fun x => Result.extended .success false (xrImg { x with v := x.v / 2 ^ n.toNat }) 0

/-- XGT (R84). -/
def xgtResult (a b : Image) : Result := withXr2 a b fun x y => Result.bool (decide (y.v < x.v))

/-- XEQ (R85). -/
def xeqResult (a b : Image) : Result := withXr2 a b fun x y => Result.bool (decide (x.v = y.v))

/-- XZERO (R86). -/
def xzeroResult (a : Image) : Result := withXr a fun x => Result.bool (decide (x.v = 0))

/-- XISNEG (R87). -/
def xisnegResult (a : Image) : Result := withXr a fun x => Result.bool x.sg

/-- XSGNCLR (R88). -/
def xsgnclrResult (a : Image) : Result :=
  withXr a fun x => Result.extended .success false (xrImg { x with sg := false }) 0

/-- XADD, extended sum (R78). -/
def execXadd (s : State) : Host.Outcome State Fault Refusal := .next (s.complete (xaddResult s.opa s.opb))

/-- XSUB, extended difference (R79). -/
def execXsub (s : State) : Host.Outcome State Fault Refusal := .next (s.complete (xsubResult s.opa s.opb))

/-- XSHL, extended left shift (R81). -/
def execXshl (n : BitVec 8) (s : State) : Host.Outcome State Fault Refusal :=
  .next (s.complete (xshlResult n s.opa))

/-- XSHR, extended right shift (R82). -/
def execXshr (n : BitVec 8) (s : State) : Host.Outcome State Fault Refusal :=
  .next (s.complete (xshrResult n s.opa))

/-- XGT, magnitude greater (R84). -/
def execXgt (s : State) : Host.Outcome State Fault Refusal := .next (s.complete (xgtResult s.opa s.opb))

/-- XEQ, magnitude equal (R85). -/
def execXeq (s : State) : Host.Outcome State Fault Refusal := .next (s.complete (xeqResult s.opa s.opb))

/-- XZERO, emptiness test (R86). -/
def execXzero (s : State) : Host.Outcome State Fault Refusal := .next (s.complete (xzeroResult s.opa))

/-- XISNEG, negativity test (R87). -/
def execXisneg (s : State) : Host.Outcome State Fault Refusal := .next (s.complete (xisnegResult s.opa))

/-- XSGNCLR, sign unset (R88). -/
def execXsgnclr (s : State) : Host.Outcome State Fault Refusal := .next (s.complete (xsgnclrResult s.opa))

end Sys2Proof.Machine
end

