-- ==== Sys2Proof/Machine/MulDiv.lean ====
section
/-! DEFINITION. Extended multiply and divide: XMUL, XMUL10, XDIV, XFDIV (spec rules R91 to R97). -/

namespace Sys2Proof.Machine

/-- `fracdiv(n, d)` delivers the quotient, its number of fractional digits and what was discarded (R97). -/
structure FracQuotient where
  q : Nat
  s : Nat
  r : Nat
  deriving DecidableEq, Repr

/-- The loop of `fracdiv` with at most `fuel` more digits: stop at remainder zero, or when the next digit would
push the quotient past `MAX96` (R97). -/
def fracDigits (d : Nat) : Nat → FracQuotient → FracQuotient
  | 0, z => z
  | fuel + 1, z =>
    if z.r = 0 then z
    else if max96 < 10 * z.q + 10 * z.r / d then z
    else fracDigits d fuel { q := 10 * z.q + 10 * z.r / d, s := z.s + 1, r := 10 * z.r % d }

/-- `fracdiv(n, d)`, at most 28 digits (R97, R135). -/
def fracdiv (n d : Nat) : FracQuotient := fracDigits d maxScale { q := n / d, s := 0, r := n % d }

/-- XMUL (R92). -/
def xmulResult (a b : Image) : Result :=
  withXr2 a b fun x y =>
    Result.extended .success (decide (xSize ≤ x.v * y.v) || decide (255 < x.sc + y.sc))
      (xrImg { v := x.v * y.v % xSize, sc := (x.sc + y.sc) % 256, sg := x.sg ^^ y.sg }) 0

/-- XMUL10 (R93). -/
def xmul10Result (a : Image) : Result :=
  withXr a fun x =>
    Result.extended .success (decide (xSize ≤ x.v * 10)) (xrImg { x with v := x.v * 10 % xSize }) 0

/-- XDIV (R95). -/
def xdivResult (a b : Image) : Result :=
  withXr2 a b fun x y =>
    if y.v = 0 then Result.error .zeroDivision
    else Result.extended .success false (xrImg { v := x.v / y.v, sc := 0, sg := x.sg ^^ y.sg })
      (xrImg { v := x.v % y.v, sc := 0, sg := x.sg })

/-- XFDIV (R96). -/
def xfdivResult (a b : Image) : Result :=
  withXr2 a b fun x y =>
    if y.v = 0 then Result.error .zeroDivision
    else
      let z := fracdiv x.v y.v
      Result.extended .success false (xrImg { v := z.q, sc := z.s, sg := x.sg ^^ y.sg })
        (xrImg { v := z.r, sc := 0, sg := x.sg })

/-- XMUL, extended product (R92). -/
def execXmul (s : State) : Host.Outcome State Fault Refusal := .next (s.complete (xmulResult s.opa s.opb))

/-- XMUL10, times ten (R93). -/
def execXmul10 (s : State) : Host.Outcome State Fault Refusal := .next (s.complete (xmul10Result s.opa))

/-- XDIV, integer quotient and remainder (R95). -/
def execXdiv (s : State) : Host.Outcome State Fault Refusal := .next (s.complete (xdivResult s.opa s.opb))

/-- XFDIV, fractional quotient (R96). -/
def execXfdiv (s : State) : Host.Outcome State Fault Refusal := .next (s.complete (xfdivResult s.opa s.opb))

end Sys2Proof.Machine
end

