-- ==== Sys2Proof/Machine/Scale.lean ====
section
/-! DEFINITION. Scale manager, overflow classifier, widen and downcast: XWIDEN, XDOWN, XNORM, XINC, XDEC, XCLS,
and the functions `widen`, `downcast`, `normalize`, `align`, `xalign` (spec rules R101 to R114). -/

namespace Sys2Proof.Machine

/-- `widen`: a Decimal triple as an Extended Register triple (R101). -/
def widen (x : Triple) : Triple := x

/-- A Decimal image with its status code. -/
structure Classified where
  img : Image
  code : StatusCode
  deriving DecidableEq, Repr

/-- The downcast's search: try to remove `k` digits, then one more, `fuel` candidates in all (R102). -/
def downcastFrom (t : Triple) : Nat → Nat → Classified
  | 0, _ => { img := infinityImg t.sg, code := infinityCode t.sg }
  | fuel + 1, k =>
    if rhe t.v k ≤ max96 then
      { img := decImg { v := rhe t.v k, sc := t.sc - k, sg := t.sg }, code := .success }
    else downcastFrom t fuel (k + 1)

/-- `downcast(v, sc, sg)`: the smallest `k` from `max(0, sc - 28)` to `sc` that fits, else saturation (R102). -/
def downcast (t : Triple) : Classified :=
  downcastFrom t (t.sc - (t.sc - maxScale) + 1) (t.sc - maxScale)

/-- Raise a register toward the scale `target` while the value stays within `MAX96`, at most `fuel` steps: one
loop of `normalize` (R104). -/
def raiseScale (target : Nat) : Nat → Triple → Triple
  | 0, x => x
  | fuel + 1, x =>
    if x.sc < target ∧ 10 * x.v ≤ max96 then
      raiseScale target fuel { x with v := 10 * x.v, sc := x.sc + 1 }
    else x

/-- What `normalize` returns: both registers, and whether their scales still differ (R104). -/
structure Normalized where
  x : Triple
  y : Triple
  ovf : Bool
  deriving DecidableEq, Repr

/-- `normalize(x, y)` (R104). -/
def normalize (x y : Triple) : Normalized :=
  let x' := raiseScale y.sc (y.sc - x.sc) x
  let y' := raiseScale x'.sc (x'.sc - y.sc) y
  { x := x', y := y', ovf := decide (x'.sc ≠ y'.sc) }

/-- Bring a register down to the scale `target` with one half-to-even rounding (R106). -/
def roundToScale (target : Nat) (x : Triple) : Triple :=
  { v := rhe x.v (x.sc - target), sc := target, sg := x.sg }

/-- `align(x, y)`, used by ADD and SUB (R106). -/
def align (x y : Triple) : Triple × Triple :=
  let n := normalize x y
  if n.ovf then
    if n.x.sc < n.y.sc then (n.x, roundToScale n.x.sc n.y) else (roundToScale n.y.sc n.x, n.y)
  else (n.x, n.y)

/-- Raise a register to the scale `target` exactly (R114). -/
def raiseExact (target : Nat) (x : Triple) : Triple :=
  { v := x.v * 10 ^ (target - x.sc), sc := target, sg := x.sg }

/-- `xalign(x, y)`, exact alignment in the full register (R114). -/
def xalign (x y : Triple) : Triple × Triple :=
  (raiseExact (max x.sc y.sc) x, raiseExact (max x.sc y.sc) y)

/-- XWIDEN (R101). -/
def xwidenResult (a : Image) : Result :=
  withDec a fun x => Result.extended .success false (xrImg (widen x)) 0

/-- XDOWN (R103). -/
def xdownResult (a : Image) : Result :=
  withXr a fun x => Result.plain (downcast x).code (downcast x).img

/-- XNORM (R105). -/
def xnormResult (a b : Image) : Result :=
  withXr2 a b fun x y =>
    let n := normalize x y
    Result.extended .success n.ovf (xrImg n.x) (xrImg n.y)

/-- XINC (R107). -/
def xincResult (a : Image) : Result :=
  withXr a fun x =>
    Result.extended .success (decide (xSize ≤ 10 * x.v) || decide (x.sc = 255))
      (xrImg { v := 10 * x.v % xSize, sc := (x.sc + 1) % 256, sg := x.sg }) 0

/-- XDEC (R108). -/
def xdecResult (a : Image) : Result :=
  withXr a fun x =>
    if x.sc = 0 then Result.extended .success true a 0
    else Result.extended .success false (xrImg { v := x.v / 10, sc := x.sc - 1, sg := x.sg })
      (xrImg { v := x.v % 10, sc := 0, sg := false })

/-- XCLS (R110). -/
def xclsResult (a : Image) : Result :=
  withXr a fun x => Result.extended (if x.v ≤ max96 then .success else infinityCode x.sg) false a 0

/-- XWIDEN, Decimal to Extended Register (R101). -/
def execXwiden (s : State) : Host.Outcome State Fault Refusal := .next (s.complete (xwidenResult s.opa))

/-- XDOWN, downcast (R103). -/
def execXdown (s : State) : Host.Outcome State Fault Refusal := .next (s.complete (xdownResult s.opa))

/-- XNORM, normalization (R105). -/
def execXnorm (s : State) : Host.Outcome State Fault Refusal := .next (s.complete (xnormResult s.opa s.opb))

/-- XINC, increase scale by one (R107). -/
def execXinc (s : State) : Host.Outcome State Fault Refusal := .next (s.complete (xincResult s.opa))

/-- XDEC, decrease scale by one (R108). -/
def execXdec (s : State) : Host.Outcome State Fault Refusal := .next (s.complete (xdecResult s.opa))

/-- XCLS, the overflow classifier (R110). -/
def execXcls (s : State) : Host.Outcome State Fault Refusal := .next (s.complete (xclsResult s.opa))

end Sys2Proof.Machine
end

