-- ==== Sys2Proof/Machine/DecimalArith.lean ====
section
/-! DEFINITION. Decimal arithmetic: ADD, SUB, MUL, DIV, MOD (spec rules R126 to R135). -/

namespace Sys2Proof.Machine

/-- The end of the pipeline: classify and downcast, `RES2`, `OVF` and `X96` zero (R126, R127). -/
def deliver (t : Triple) : Result := Result.plain (downcast t).code (downcast t).img

/-- The sum of two Decimals before the downcast (R130). -/
def decimalSum (x y : Triple) : Triple :=
  xsum (align (widen x) (widen y)).1 (align (widen x) (widen y)).2

/-- ADD (R130). -/
def addResult (a b : Image) : Result := withDec2 a b fun x y => deliver (decimalSum x y)

/-- SUB: as ADD with the second operand negated (R131). -/
def subResult (a b : Image) : Result := withDec2 a b fun x y => deliver (decimalSum x (negate y))

/-- MUL (R132). -/
def mulResult (a b : Image) : Result :=
  withDec2 a b fun x y => deliver { v := x.v * y.v, sc := x.sc + y.sc, sg := x.sg ^^ y.sg }

/-- DIV (R133). -/
def divResult (a b : Image) : Result :=
  withDec2 a b fun x y =>
    if y.v = 0 then Result.error .zeroDivision
    else
      let n := xalign (widen x) (widen y)
      let z := fracdiv n.1.v n.2.v
      deliver { v := z.q, sc := z.s, sg := x.sg ^^ y.sg }

/-- MOD (R134). -/
def modResult (a b : Image) : Result :=
  withDec2 a b fun x y =>
    if y.v = 0 then Result.error .zeroDivision
    else
      let n := xalign (widen x) (widen y)
      Result.plain .success (decImg { v := n.1.v % n.2.v, sc := n.1.sc, sg := x.sg })

/-- ADD (R130). -/
def execAdd (s : State) : Host.Outcome State Fault Refusal := .next (s.complete (addResult s.opa s.opb))

/-- SUB (R131). -/
def execSub (s : State) : Host.Outcome State Fault Refusal := .next (s.complete (subResult s.opa s.opb))

/-- MUL (R132). -/
def execMul (s : State) : Host.Outcome State Fault Refusal := .next (s.complete (mulResult s.opa s.opb))

/-- DIV (R133). -/
def execDiv (s : State) : Host.Outcome State Fault Refusal := .next (s.complete (divResult s.opa s.opb))

/-- MOD (R134). -/
def execMod (s : State) : Host.Outcome State Fault Refusal := .next (s.complete (modResult s.opa s.opb))

end Sys2Proof.Machine
end

