-- ==== Sys2Proof/Machine/DecimalCompare.lean ====
section
/-! DEFINITION. Decimal comparison: CLT, CLE, CGT, CGE, CEQ, CNE (spec rules R141 to R149). -/

namespace Sys2Proof.Machine

/-- The comparison of two magnitudes (R84, R85, R141). -/
def magnitudeOrder (x y : Nat) : Ordering := if y < x then .gt else if x = y then .eq else .lt

/-- The core comparison `cmp(a, b)` (R141). -/
def decimalOrder (x y : Triple) : Ordering :=
  if x.v = 0 ∧ y.v = 0 then .eq
  else if x.sg ≠ y.sg then (if x.sg then .lt else .gt)
  else
    let n := xalign (widen x) (widen y)
    let m := magnitudeOrder n.1.v n.2.v
    if x.sg then m.swap else m

/-- CLT (R143). -/
def cltResult (a b : Image) : Result :=
  withDec2 a b fun x y => Result.bool (decide (decimalOrder x y = .lt))

/-- CLE (R144). -/
def cleResult (a b : Image) : Result :=
  withDec2 a b fun x y => Result.bool (decide (decimalOrder x y ≠ .gt))

/-- CGT (R145). -/
def cgtResult (a b : Image) : Result :=
  withDec2 a b fun x y => Result.bool (decide (decimalOrder x y = .gt))

/-- CGE (R146). -/
def cgeResult (a b : Image) : Result :=
  withDec2 a b fun x y => Result.bool (decide (decimalOrder x y ≠ .lt))

/-- CEQ (R147). -/
def ceqResult (a b : Image) : Result :=
  withDec2 a b fun x y => Result.bool (decide (decimalOrder x y = .eq))

/-- CNE (R148). -/
def cneResult (a b : Image) : Result :=
  withDec2 a b fun x y => Result.bool (decide (decimalOrder x y ≠ .eq))

/-- CLT, `is_less` (R143). -/
def execClt (s : State) : Host.Outcome State Fault Refusal := .next (s.complete (cltResult s.opa s.opb))

/-- CLE, less or equal (R144). -/
def execCle (s : State) : Host.Outcome State Fault Refusal := .next (s.complete (cleResult s.opa s.opb))

/-- CGT, `is_greater` (R145). -/
def execCgt (s : State) : Host.Outcome State Fault Refusal := .next (s.complete (cgtResult s.opa s.opb))

/-- CGE, greater or equal (R146). -/
def execCge (s : State) : Host.Outcome State Fault Refusal := .next (s.complete (cgeResult s.opa s.opb))

/-- CEQ, `is_equal` (R147). -/
def execCeq (s : State) : Host.Outcome State Fault Refusal := .next (s.complete (ceqResult s.opa s.opb))

/-- CNE, `is_not_equal` (R148). -/
def execCne (s : State) : Host.Outcome State Fault Refusal := .next (s.complete (cneResult s.opa s.opb))

end Sys2Proof.Machine
end

