-- ==== Sys2Proof/Machine/DecimalType.lean ====
section
/-! DEFINITION. Decimal type and bit accessors: DZERO, DGSIGN, DSSIGN, DGSCALE, DSSCALE, DGBIT, DSBIT (spec rules
R116 to R124). -/

namespace Sys2Proof.Machine

/-- The mantissa `m` with bit `i` replaced by `b` (R123). -/
def replaceBit (m : BitVec 96) (i : Nat) (b : Bool) : BitVec 96 :=
  if b then m ||| (1#96 <<< i) else m &&& ~~~(1#96 <<< i)

/-- DZERO (R117). -/
def dzeroResult : Result := Result.plain .success (decImg { v := 0, sc := 0, sg := false })

/-- DGSIGN (R118). -/
def dgsignResult (a : Image) : Result := withDec a fun x => Result.bool x.sg

/-- DSSIGN (R119). -/
def dssignResult (sg : BitVec 8) (a : Image) : Result :=
  Result.legal (decide (sg.toNat ≤ 1)) <|
    withDec a fun x => Result.plain .success (decImg { x with sg := decide (sg.toNat = 1) })

/-- DGSCALE (R120). -/
def dgscaleResult (a : Image) : Result :=
  withDec a fun x => Result.plain .success (wordImg (BitVec.ofNat 32 x.sc))

/-- DSSCALE: the mantissa is not rescaled (R121). -/
def dsscaleResult (t : BitVec 8) (a : Image) : Result :=
  Result.legal (decide (t.toNat ≤ maxScale)) <|
    withDec a fun x => Result.plain .success (decImg { x with sc := t.toNat })

/-- DGBIT (R122). -/
def dgbitResult (i : BitVec 8) (a : Image) : Result :=
  Result.legal (decide (i.toNat ≤ 95)) <|
    withDec a fun _ => Result.bool ((word a (i.toNat / 32)).getLsbD (i.toNat % 32))

/-- DSBIT (R123). -/
def dsbitResult (b : Bool) (i : BitVec 7) (a : Image) : Result :=
  Result.legal (decide (i.toNat ≤ 95)) <|
    withDec a fun x =>
      Result.plain .success (decImg { x with v := (replaceBit (BitVec.ofNat 96 x.v) i.toNat b).toNat })

/-- DZERO, default/zero construction (R117). -/
def execDzero (s : State) : Host.Outcome State Fault Refusal := .next (s.complete dzeroResult)

/-- DGSIGN, sign accessor (R118). -/
def execDgsign (s : State) : Host.Outcome State Fault Refusal := .next (s.complete (dgsignResult s.opa))

/-- DSSIGN, sign mutator (R119). -/
def execDssign (sg : BitVec 8) (s : State) : Host.Outcome State Fault Refusal :=
  .next (s.complete (dssignResult sg s.opa))

/-- DGSCALE, scale accessor (R120). -/
def execDgscale (s : State) : Host.Outcome State Fault Refusal := .next (s.complete (dgscaleResult s.opa))

/-- DSSCALE, scale mutator (R121). -/
def execDsscale (t : BitVec 8) (s : State) : Host.Outcome State Fault Refusal :=
  .next (s.complete (dsscaleResult t s.opa))

/-- DGBIT, mantissa bit accessor (R122). -/
def execDgbit (i : BitVec 8) (s : State) : Host.Outcome State Fault Refusal :=
  .next (s.complete (dgbitResult i s.opa))

/-- DSBIT, mantissa bit mutator (R123). -/
def execDsbit (b : Bool) (i : BitVec 7) (s : State) : Host.Outcome State Fault Refusal :=
  .next (s.complete (dsbitResult b i s.opa))

end Sys2Proof.Machine
end

