-- ==== Sys2Proof/Machine/Dispatch.lean ====
section
/-! DEFINITION. The meaning of every command of the opcode map (spec rule R47): its completing step. -/

namespace Sys2Proof.Machine

def exec (i : Instr) (s : State) : Host.Outcome State Fault Refusal :=
  match i with
  -- bit primitives
  | .btst k => Sys2Proof.Machine.execBtst k s
  | .bset k => Sys2Proof.Machine.execBset k s
  | .bclr k => Sys2Proof.Machine.execBclr k s
  | .bflp k => Sys2Proof.Machine.execBflp k s
  -- extended add, subtract, shift, compare
  | .xadd => Sys2Proof.Machine.execXadd s
  | .xsub => Sys2Proof.Machine.execXsub s
  | .xshl n => Sys2Proof.Machine.execXshl n s
  | .xshr n => Sys2Proof.Machine.execXshr n s
  | .xgt => Sys2Proof.Machine.execXgt s
  | .xeq => Sys2Proof.Machine.execXeq s
  | .xzero => Sys2Proof.Machine.execXzero s
  | .xisneg => Sys2Proof.Machine.execXisneg s
  | .xsgnclr => Sys2Proof.Machine.execXsgnclr s
  -- extended multiply and divide
  | .xmul => Sys2Proof.Machine.execXmul s
  | .xmul10 => Sys2Proof.Machine.execXmul10 s
  | .xdiv => Sys2Proof.Machine.execXdiv s
  | .xfdiv => Sys2Proof.Machine.execXfdiv s
  -- scale manager
  | .xwiden => Sys2Proof.Machine.execXwiden s
  | .xdown => Sys2Proof.Machine.execXdown s
  | .xnorm => Sys2Proof.Machine.execXnorm s
  | .xinc => Sys2Proof.Machine.execXinc s
  | .xdec => Sys2Proof.Machine.execXdec s
  | .xcls => Sys2Proof.Machine.execXcls s
  -- Decimal accessors
  | .dzero => Sys2Proof.Machine.execDzero s
  | .dgsign => Sys2Proof.Machine.execDgsign s
  | .dssign sg => Sys2Proof.Machine.execDssign sg s
  | .dgscale => Sys2Proof.Machine.execDgscale s
  | .dsscale t => Sys2Proof.Machine.execDsscale t s
  | .dgbit k => Sys2Proof.Machine.execDgbit k s
  | .dsbit b k => Sys2Proof.Machine.execDsbit b k s
  -- Decimal arithmetic
  | .add => Sys2Proof.Machine.execAdd s
  | .sub => Sys2Proof.Machine.execSub s
  | .mul => Sys2Proof.Machine.execMul s
  | .div => Sys2Proof.Machine.execDiv s
  | .mod => Sys2Proof.Machine.execMod s
  -- Decimal comparison
  | .clt => Sys2Proof.Machine.execClt s
  | .cle => Sys2Proof.Machine.execCle s
  | .cgt => Sys2Proof.Machine.execCgt s
  | .cge => Sys2Proof.Machine.execCge s
  | .ceq => Sys2Proof.Machine.execCeq s
  | .cne => Sys2Proof.Machine.execCne s
  -- rounding and sign
  | .floor => Sys2Proof.Machine.execFloor s
  | .round ts => Sys2Proof.Machine.execRound ts s
  | .trunc => Sys2Proof.Machine.execTrunc s
  | .neg => Sys2Proof.Machine.execNeg s
  -- converters
  | .fromi => Sys2Proof.Machine.execFromi s
  | .fromf => Sys2Proof.Machine.execFromf s
  | .toi => Sys2Proof.Machine.execToi s
  | .tof => Sys2Proof.Machine.execTof s
  | .fxtr => Sys2Proof.Machine.execFxtr s
  | .fbld => Sys2Proof.Machine.execFbld s

end Sys2Proof.Machine
end

