-- ==== Sys2Proof/Machine/Handshake.lean ====
section
/-! DEFINITION. One step of the core under what the host drives (spec rules R17 to R19, R25, R26, R44, R181,
R191). -/

namespace Sys2Proof.Machine

/-- The completing step of the latched command: decode `CMD` and run it (R18, R44, R181). -/
def runLatched (s : State) : Host.Outcome State Fault Refusal :=
  match decode s.cmd with
  | .ok i => exec i s
  | .error _ => .next s.completeIllegal

/-- One step under the drive `d`: `rst` wins (R191); while busy the command goes on and `start` is ignored
(R19); while idle a `start` is accepted (R17) and otherwise everything holds (R18, R35). -/
def driven (d : HostDrive) (s : State) : Host.Outcome State Fault Refusal :=
  if d.rst then .next s.resetPulse
  else if s.busy then
    if s.progress = 0 then runLatched s else .next s.wait
  else if d.start then .next (s.accept d)
  else .next s

/-- One step: an early read is a fault of the host (R26), else the core moves under the coming drive. -/
def handshakeStep (s : State) : Host.Outcome State Fault Refusal :=
  if s.readsTooEarly then .fault .outputReadUndefined else driven s.drive s.advanceHost

end Sys2Proof.Machine
end

