-- ==== Sys2Proof/Machine/Step.lean ====
section
/-! DEFINITION. The step of the machine, and the state in which the very next step runs a given command word. -/

namespace Sys2Proof.Machine

/-- One step of the core (R17 to R19, R26, R191). -/
def step (s : State) : Host.Outcome State Fault Refusal := handshakeStep s

/-- `s` with the instruction word of `nbits` bits `w` as the command whose completing step is the next step
(log 5). -/
def State.withFetchWord (s : State) (nbits w : Nat) : State :=
  s.loadCommand (BitVec.ofNat 32 (w % 2 ^ nbits))

end Sys2Proof.Machine
end

