-- ==== Sys2Proof/Machine/Algorithms.lean ====
section
/-! DEFINITION. The algorithm notes of the spec, as the reference computes: ripple carry and borrow (R80), word
move and funnel shift (R83), restoring division (R94), shift-and-add multiplication (R99), digit-serial rounding
(R156). The arithmetic statements, which `exec` computes, are the normative ones; that both agree is stated in
the obligations. -/

namespace Sys2Proof.Machine

/-- The seven value words of an XREG256 image, word 0 first (R57, R80). -/
def valueWords (p : Image) : List Nat := (List.range 7).map fun i => (word p i).toNat

/-- The natural number a list of 32-bit words stands for, word 0 least significant (R33). -/
def wordsValue : List Nat → Nat
  | [] => 0
  | w :: ws => w + 2 ^ 32 * wordsValue ws

/-- Ripple addition over the words with carry `c`: the sum words and the carry out (R80). -/
def rippleAdd : List Nat → List Nat → Nat → List Nat × Nat
  | a :: as, b :: bs, c =>
    let rest := rippleAdd as bs ((a + b + c) / 2 ^ 32)
    ((a + b + c) % 2 ^ 32 :: rest.1, rest.2)
  | _, _, c => ([], c)

/-- Ripple subtraction over the words with borrow `c`: the difference words and the borrow out (R80). -/
def rippleSub : List Nat → List Nat → Nat → List Nat × Nat
  | a :: as, b :: bs, c =>
    if a < b + c then
      let rest := rippleSub as bs 1
      ((a + 2 ^ 32 - b - c) :: rest.1, rest.2)
    else
      let rest := rippleSub as bs 0
      ((a - b - c) :: rest.1, rest.2)
  | _, _, c => ([], c)

/-- Two's-complement negation of the words: invert them and add 1 (R80). -/
def negateWords (ws : List Nat) : List Nat :=
  (rippleAdd (ws.map fun w => 2 ^ 32 - 1 - w) (ws.map fun _ => 0) 1).1

/-- The magnitude of a difference by the borrow chain, and whether the sign flag flips (R80). -/
def borrowMagnitude (as bs : List Nat) : List Nat × Bool :=
  let d := rippleSub as bs 0
  if d.2 = 1 then (negateWords d.1, true) else (d.1, false)

/-- Left shift by `n`: a move by `n / 32` words and a funnel shift by `n % 32` bits (R83). -/
def funnelLeft (ws : List Nat) (n : Nat) : List Nat :=
  (List.range ws.length).map fun j =>
    ((if n / 32 ≤ j then ws.getD (j - n / 32) 0 else 0) * 2 ^ (n % 32)
      + (if n / 32 + 1 ≤ j then ws.getD (j - n / 32 - 1) 0 else 0) / 2 ^ (32 - n % 32)) % 2 ^ 32

/-- Right shift by `n`: a move by `n / 32` words and a funnel shift by `n % 32` bits (R83). -/
def funnelRight (ws : List Nat) (n : Nat) : List Nat :=
  (List.range ws.length).map fun j =>
    (ws.getD (j + n / 32) 0 / 2 ^ (n % 32)
      + ws.getD (j + n / 32 + 1) 0 * 2 ^ (32 - n % 32)) % 2 ^ 32

/-- The restoring divider from dividend bit `i - 1` down to bit 0, with quotient and remainder so far (R94). -/
def restoringFrom (n d : Nat) : Nat → Nat × Nat → Nat × Nat
  | 0, z => z
  | i + 1, z =>
    let r := 2 * z.2 + (n.testBit i).toNat
    if d ≤ r then restoringFrom n d i (z.1 + 2 ^ i, r - d) else restoringFrom n d i (z.1, r)

/-- `divmod(n, d)` by restoring binary long division over 224 bits (R94). -/
def restoringDivmod (n d : Nat) : Nat × Nat := restoringFrom n d 224 (0, 0)

/-- The accumulator of a shift-and-add multiplication, and whether any XSHL or XADD step reported `OVF` (R99). -/
structure Accumulator where
  acc : Nat
  ovf : Bool
  deriving DecidableEq, Repr

/-- Shift-and-add over the `i` low bits of `b` (R99). -/
def shiftAdd (a b : Nat) : Nat → Accumulator
  | 0 => { acc := 0, ovf := false }
  | i + 1 =>
    let z := shiftAdd a b i
    if b.testBit i then
      { acc := (z.acc + a * 2 ^ i % xSize) % xSize,
        ovf := z.ovf || decide (xSize ≤ a * 2 ^ i) || decide (xSize ≤ z.acc + a * 2 ^ i % xSize) }
    else z

/-- The shift-and-add product over 224 bit positions (R99). -/
def shiftAddMul (a b : Nat) : Accumulator := shiftAdd a b 224

/-- The digit-serial rounding in progress: the retained value, the last digit removed, and whether a digit
below it was not 0 (R156). -/
structure DigitSerial where
  v : Nat
  d : Nat
  sticky : Bool
  deriving DecidableEq, Repr

/-- Remove `k` digits one at a time, lowest first (R156). -/
def removeDigits : Nat → DigitSerial → DigitSerial
  | 0, z => z
  | k + 1, z => removeDigits k { v := z.v / 10, d := z.v % 10, sticky := z.sticky || decide (z.d ≠ 0) }

/-- The digit-serial form of `rhe(v, k)` for `k` of at least 1 (R156). -/
def rheSerial (v k : Nat) : Nat :=
  let z := removeDigits k { v := v, d := 0, sticky := false }
  if 5 < z.d ∨ z.d = 5 ∧ (z.sticky = true ∨ z.v % 2 = 1) then z.v + 1 else z.v

end Sys2Proof.Machine
end

