-- ==== Sys2Proof/Safety.lean ====
section
/-! DEFINITION. The terms claims are stated in: images and status words as numbers, exact rounding, the values
of Decimals and floats, what a completion leaves, and the invariants of a run (spec rules R10, R14, R18, R19,
R52 to R60, R63, R97, R102, R151). None of them is used by the machine. -/

namespace Sys2Proof.Machine

/-! ### Images as numbers -/

/-- `p` is the XREG256 image of the triple (R57, R58): value, scale in bits 247 to 240, sign in bit 255, every
other bit zero. -/
abbrev IsXr (p : Image) (t : Triple) : Prop :=
  t.v < 2 ^ 224 ∧ t.sc < 256 ∧ p.toNat = t.v + t.sc * 2 ^ 240 + t.sg.toNat * 2 ^ 255

/-- The low 128 bits of `p` are the DEC128 image of the Decimal (R52, R53); the upper bits are ignored (R49). -/
abbrev IsDec (p : Image) (t : Triple) : Prop :=
  t.v < 2 ^ 96 ∧ t.sc ≤ 28 ∧ p.toNat % 2 ^ 128 = t.v + t.sc * 2 ^ 112 + t.sg.toNat * 2 ^ 127

/-- `p` is the DEC128 image of the Decimal as a result: the upper bits are zero (R49, R52). -/
abbrev IsDecResult (p : Image) (t : Triple) : Prop := IsDec p t ∧ p.toNat < 2 ^ 128

/-- `p` is the infinity image of the given sign (R56). -/
abbrev IsInfinity (p : Image) (sg : Bool) : Prop := p.toNat = (2 ^ 96 - 1) + 255 * 2 ^ 112 + sg.toNat * 2 ^ 127

/-- The low word of an image as a number (R49: W32, F32; R64: the I32 pattern). -/
def lowWord (p : Image) : Nat := p.toNat % 2 ^ 32

/-- `w` is the status word with the given code and flags (R59). -/
abbrev StatusIs (w : Word) (code : Nat) (ovf x96 : Bool) : Prop :=
  w.toNat = code + 256 * ovf.toNat + 512 * x96.toNat

/-- A status word a completed command can leave: no reserved bit, never code 6, and no flag with the codes whose
results are unspecified (R59, R60, R185). -/
def StatusLegal (w : Word) : Prop :=
  ∃ code ovf x96, StatusIs w code ovf x96 ∧ code ≤ 7 ∧ code ≠ 6 ∧ (3 ≤ code → ovf = false ∧ x96 = false)

/-! ### Exact rounding and values -/

/-- `q` is the natural nearest to `v / d`, the even one on a tie (R151). -/
abbrev NearestEven (v d q : Nat) : Prop :=
  2 * ((v : ℤ) - (q : ℤ) * d).natAbs ≤ d ∧ (2 * ((v : ℤ) - (q : ℤ) * d).natAbs = d → q % 2 = 0)

/-- The number a triple stands for: `(-1)^sg * v / 10^sc` (R10). -/
def Triple.value (t : Triple) : ℚ := (if t.sg then -1 else 1) * (t.v : ℚ) / 10 ^ t.sc

/-- The number a finite float pattern stands for, from the bit positions of R63. -/
def floatValue (x : Nat) : ℚ :=
  (if x / 2 ^ 31 % 2 = 1 then -1 else 1) *
    (if x / 2 ^ 23 % 2 ^ 8 = 0 then ((x % 2 ^ 23 : Nat) : ℚ) * 2 ^ (-149 : ℤ)
     else ((2 ^ 23 + x % 2 ^ 23 : Nat) : ℚ) * 2 ^ (((x / 2 ^ 23 % 2 ^ 8 : Nat) : ℤ) - 150))

/-- `downcast(v, sc, sg)` as a relation (R102): the fewest digits removed that make the rounded value fit, else
the infinity of the sign. -/
def DowncastsTo (t : Triple) (code : Nat) (p : Image) : Prop :=
  (∃ k m, t.sc - 28 ≤ k ∧ k ≤ t.sc ∧ NearestEven t.v (10 ^ k) m ∧ m ≤ max96 ∧
      (∀ j n, t.sc - 28 ≤ j → j < k → NearestEven t.v (10 ^ j) n → max96 < n) ∧
      code = 0 ∧ IsDecResult p ⟨m, t.sc - k, t.sg⟩) ∨
  ((∀ k m, t.sc - 28 ≤ k → k ≤ t.sc → NearestEven t.v (10 ^ k) m → max96 < m) ∧
      code = (if t.sg then 2 else 1) ∧ IsInfinity p t.sg)

/-- `fracdiv(n, d)` as a relation (R97): quotient and remainder of `n * 10^k` where `k` is the first digit count
at which the remainder is zero, 28 digits are made or the next digit would pass `MAX96`. -/
abbrev FracDivides (n d q k r : Nat) : Prop :=
  q = n * 10 ^ k / d ∧ r = n * 10 ^ k % d ∧ k ≤ 28 ∧
    (r = 0 ∨ k = 28 ∨ max96 < n * 10 ^ (k + 1) / d) ∧
    ∀ j, j < k → n * 10 ^ j % d ≠ 0 ∧ n * 10 ^ (j + 1) / d ≤ max96

/-- `j` is how many of at most `steps` times-ten steps a value takes within `MAX96` (R104). -/
abbrev RaisesBy (v steps j : Nat) : Prop :=
  j ≤ steps ∧ (∀ i, 1 ≤ i → i ≤ j → v * 10 ^ i ≤ max96) ∧ (j < steps → max96 < v * 10 ^ (j + 1))

/-! ### Completions -/

/-- What a completing step changes beside `RES`, `RES2`, `STATUS` and the scratch registers, and what it leaves
alone (R17, R18): the latches, the pending host input. -/
abbrev Completed (s t : State) : Prop :=
  t.busy = false ∧ t.done = true ∧ t.cmd = s.cmd ∧ t.opa = s.opa ∧ t.opb = s.opb ∧ t.host = s.host ∧
    t.progress = s.progress

/-- Command `i` on the latches of `s` answers a next state with the given status and images, and changes no
other register (R18). -/
def Completes (i : Instr) (s : State) (code : Nat) (ovf x96 : Bool) (out : Image → Image → Prop) : Prop :=
  ∃ t, exec i s = .next t ∧ out t.res t.res2 ∧ StatusIs t.status code ovf x96 ∧ Completed s t

/-- Command `i` ends with INVALID_OPERAND, nothing said of the images (R179, R185). -/
def Rejects (i : Instr) (s : State) : Prop := Completes i s 5 false false fun _ _ => True

/-- Some operands make command `i` end with the given status code (R60). -/
def ProducesCode (i : Instr) (code : Nat) : Prop := ∃ s t, exec i s = .next t ∧ t.status.toNat % 8 = code

/-- `n` XINC commands, each on the result of the one before, lead from the image `p` to the image `q` (R107,
R136). -/
def XincSteps (s : State) (n : Nat) (p q : Image) : Prop :=
  match n with
  | 0 => q = p
  | k + 1 => ∃ t, exec .xinc { s with opa := p } = .next t ∧ XincSteps s k t.res q

/-! ### Invariants of a run -/

/-- The handshake and the status of a state (R19, R59, R60): never busy and done at once, and a status word that
stands for a completed command is a legal one. -/
def State.Inv (s : State) : Prop :=
  ¬(s.busy = true ∧ s.done = true) ∧ (s.done = true → StatusLegal s.status)

/-- While `DONE = 1` the outputs are those of the latched command on the latched operands (R19, R37): some run
of it from a state with these latches leaves exactly them. -/
def State.OutputsOfLatches (s : State) : Prop :=
  s.done = true → ∃ u t, u.cmd = s.cmd ∧ u.opa = s.opa ∧ u.opb = s.opb ∧ runLatched u = .next t ∧
    t.res = s.res ∧ t.res2 = s.res2 ∧ t.status = s.status

/-- The host asserts no `rst` and reads no output in the first `n` steps of `ds`. -/
def QuietHost (ds : List HostDrive) (n : Nat) : Prop :=
  ∀ d ∈ ds.take n, d.rst = false ∧ d.collect = false

end Sys2Proof.Machine
end

