-- ==== Sys2Proof/WellFormed.lean ====
section
/-! DEFINITION. Which instruction terms have a legal command word: the immediate ranges of spec rule R43. -/

namespace Sys2Proof

/-- The immediate of `i` lies in the legal range of R43. -/
def Instr.wf (i : Instr) : Bool :=
  match i with
  | .btst k | .bset k | .bclr k | .bflp k => decide (k.toNat ≤ 31)
  | .dssign s => decide (s.toNat ≤ 1)
  | .dsscale t => decide (t.toNat ≤ 28)
  | .dgbit k => decide (k.toNat ≤ 95)
  | .dsbit _ k => decide (k.toNat ≤ 95)
  | .round ts => decide (ts.toNat ≤ 28)
  | .xshl _ | .xshr _ => true
  | .xadd | .xsub | .xgt | .xeq | .xzero | .xisneg | .xsgnclr => true
  | .xmul | .xmul10 | .xdiv | .xfdiv => true
  | .xwiden | .xdown | .xnorm | .xinc | .xdec | .xcls => true
  | .dzero | .dgsign | .dgscale => true
  | .add | .sub | .mul | .div | .mod => true
  | .clt | .cle | .cgt | .cge | .ceq | .cne => true
  | .floor | .trunc | .neg => true
  | .fromi | .fromf | .toi | .tof | .fxtr | .fbld => true

end Sys2Proof
end

