-- ==== Sys2Proof/Certificates/Slice0/Obligations.lean ====
section
/-! DEFINITION. The statements for the provers, in the order of the spec's files: encoding (30), the handshake (10,
60, 70), then the nine families (40 to 48). -/

open Sys2Proof Sys2Proof.Machine

/-! ### Encoding -/

/-- Decoding the encoding of a well-formed instruction gives it back, every immediate at every legal value
(R41 to R47). -/
def Obligations.DecodeOfEncode : Prop :=
  ∀ i : Instr, i.wf = true → decode (encode i) = .ok i

/-- A word that decodes is the one encoding of the well-formed instruction it decodes to: every bit of the word is
looked at (R41 to R44). -/
def Obligations.DecodedWordIsTheEncoding : Prop :=
  ∀ (c : Word) (i : Instr), decode c = .ok i → i.wf = true ∧ encode i = c

/-- The words that decode are exactly those with `cmd[31:16] = 0`, an opcode of R47 and an immediate in the range
R43 gives that opcode (R43, R44, R48). -/
def Obligations.LegalWordsAreTheOpcodeMap : Prop :=
  ∀ c : Word, (∃ i, decode c = .ok i) ↔
    c.toNat < 2 ^ 16 ∧
      (c.toNat / 256 = 0 ∧ c.toNat % 256 ∈
          [0x20, 0x21, 0x24, 0x25, 0x26, 0x27, 0x28, 0x30, 0x31, 0x32, 0x33, 0x40, 0x41, 0x42, 0x43, 0x44, 0x45,
            0x48, 0x49, 0x4B, 0x50, 0x51, 0x52, 0x53, 0x54, 0x60, 0x61, 0x62, 0x63, 0x64, 0x65, 0x70, 0x72, 0x73,
            0x80, 0x81, 0x82, 0x83, 0x84, 0x85] ∨
        c.toNat % 256 ∈ [0x10, 0x11, 0x12, 0x13] ∧ c.toNat / 256 ≤ 31 ∨
        c.toNat % 256 ∈ [0x22, 0x23] ∨
        c.toNat % 256 = 0x4A ∧ c.toNat / 256 ≤ 1 ∨
        c.toNat % 256 ∈ [0x4C, 0x71] ∧ c.toNat / 256 ≤ 28 ∨
        c.toNat % 256 = 0x4D ∧ c.toNat / 256 ≤ 95 ∨
        c.toNat % 256 = 0x4E ∧ c.toNat / 256 % 128 ≤ 95)

/-- Words written out in the spec's examples decode to the instruction named there. -/
def Obligations.SpecWordsDecode : Prop :=
  decode 0x00001F10#32 = .ok (.btst 31) ∧ decode 0x00002422#32 = .ok (.xshl 36) ∧
    decode 0x00000033#32 = .ok .xfdiv ∧ decode 0x00000042#32 = .ok .xnorm ∧
    decode 0x0000DF4E#32 = .ok (.dsbit true 95) ∧ decode 0x00000050#32 = .ok .add ∧
    decode 0x00000065#32 = .ok .cne ∧ decode 0x00001B71#32 = .ok (.round 27) ∧
    decode 0x00000084#32 = .ok .fxtr ∧ decode 0x00000000#32 = .error .opcodeUnassigned ∧
    decode 0x80000050#32 = .error .reservedBitsSet ∧ decode 0x00000150#32 = .error .immediateOutOfRange

/-! ### The handshake -/

/-- The completing step of a latched command word that decodes is that instruction's meaning, the host's input of
that step used up; and `withFetchWord` makes the next step such a step. The model's way to run a given word is its
own choice (log 5). -/
def Obligations.StepRunsDecodedInstruction : Prop :=
  (∀ (s : State) (i : Instr), s.busy = true → s.progress = 0 → s.drive.rst = false → s.drive.collect = false →
      decode s.cmd = .ok i → step s = exec i s.advanceHost) ∧
  ∀ (s : State) (w : Nat) (i : Instr), decodeTableWord 32 w = some i →
    step (s.withFetchWord 32 w) = exec i (s.withFetchWord 32 w).advanceHost

/-- The completing step of a word that does not decode: ILLEGAL_COMMAND, flags zero, a normal completion whatever
the operands (R44, R181). -/
def Obligations.IllegalWordCompletes : Prop :=
  ∀ (s : State) (e : DecodeError), s.busy = true → s.progress = 0 → s.drive.rst = false →
    s.drive.collect = false → decode s.cmd = .error e →
    ∃ t, step s = .next t ∧ StatusIs t.status 7 false false ∧ Completed s.advanceHost t

/-- An accepted start latches the three ports and makes the core busy for `LATENCY` steps (R17, R18). That the
steps still to wait are counted in `progress` is the model's choice (log 6), and that a read in the same step is
judged first is its inference (log 8). -/
def Obligations.StartLatchesThePorts : Prop :=
  ∀ s : State, s.busy = false → s.drive.start = true → s.drive.rst = false → s.readsTooEarly = false →
    ∃ t, step s = .next t ∧ t.cmd = s.drive.cmd ∧ t.opa = s.drive.opa ∧ t.opb = s.drive.opb ∧
      t.busy = true ∧ t.done = false ∧ t.host = s.host.tail ∧
      t.progress + 1 = Config.latency s.drive.cmd s.drive.opa s.drive.opb

/-- While busy the core does not look at `start`, `cmd`, `opa` and `opb` (R17, R19), and a waiting step keeps the
latches and both flags. That this holds in the completing step too, which begins with `BUSY = 1`, is the model's
inference (log 10, DEDUCED); that `progress` counts the waiting steps down is its coding (log 6, DESIGN CHOICE). -/
def Obligations.BusyCoreIgnoresThePorts : Prop :=
  (∀ (s : State) (d e : HostDrive) (rest : List HostDrive), s.busy = true → d.rst = e.rst →
      d.collect = e.collect → step { s with host := d :: rest } = step { s with host := e :: rest }) ∧
  ∀ s : State, s.busy = true → 0 < s.progress → s.drive.rst = false → s.drive.collect = false →
    ∃ t, step s = .next t ∧ t.busy = true ∧ t.done = s.done ∧ t.cmd = s.cmd ∧ t.opa = s.opa ∧ t.opb = s.opb ∧
      t.progress + 1 = s.progress ∧ t.host = s.host.tail

/-- `rst` makes the core idle whatever it was doing, and wins over `start` (R25, R191). That an early read of the
same step is judged before it is the model's inference (log 8). -/
def Obligations.ResetPulseAbandonsTheCommand : Prop :=
  ∀ s : State, s.drive.rst = true → s.readsTooEarly = false →
    ∃ t, step s = .next t ∧ t.busy = false ∧ t.done = false ∧ t.host = s.host.tail

/-- A host read of an output register while `DONE = 0` is a fault of the host (R26), every other step answers a
next state, and a read while `DONE = 1` delivers the registers and changes nothing (R18, R35). That the read is judged
at the beginning of its step, and before an `rst` of the same step, is the model's inference (log 8, DEDUCED). -/
def Obligations.OnlyEarlyReadsFault : Prop :=
  (∀ s : State, s.drive.collect = true → s.done = false → step s = .fault .outputReadUndefined) ∧
  (∀ s : State, s.drive.collect = false ∨ s.done = true → ∃ t, step s = .next t) ∧
  ∀ (s : State) (d : HostDrive) (rest : List HostDrive), s.done = true →
    step { s with host := d :: rest } = step { s with host := { d with collect := false } :: rest } ∧
    s.readRes = .ok s.res ∧ s.readRes2 = .ok s.res2 ∧ s.readStatus = .ok s.status

/-- An idle core without `start` and `rst` holds every register (R18, R35). -/
def Obligations.IdleCoreHoldsItsRegisters : Prop :=
  ∀ s : State, s.busy = false → s.drive.start = false → s.drive.rst = false → s.readsTooEarly = false →
    step s = .next { s with host := s.host.tail }

/-- Every step from every state keeps: never busy and done at once, and a status word that stands for a completed
command is legal (R19, R59, R60). -/
def Obligations.StepKeepsHandshakeAndStatus : Prop :=
  ∀ s t : State, s.Inv → step s = .next t → t.Inv

/-- Reset is idle with nothing done (R25), so both invariants hold there. -/
def Obligations.ResetIsIdleAndMeetsTheInvariants : Prop :=
  State.reset.busy = false ∧ State.reset.done = false ∧ State.reset.Inv ∧ State.reset.OutputsOfLatches

/-- Every step from every state with a sound handshake keeps: while `DONE = 1` the outputs are those of the
latched command on the latched operands (R19, R37). -/
def Obligations.StepKeepsOutputsOfLatches : Prop :=
  ∀ s t : State, s.Inv → s.OutputsOfLatches → step s = .next t → t.OutputsOfLatches

/-- An accepted command is busy for exactly `LATENCY` steps and then done, for every command word and all operands,
when the host neither resets nor reads meanwhile (R18, R19, R199, R200). That the completing step is the
`LATENCY`-th after the accepting one is the model's reading of the trace in 95_test_vectors.md 2.11 (log 6,
DEDUCED). -/
def Obligations.EveryAcceptedCommandCompletes : Prop :=
  ∀ (s : State) (d : HostDrive) (rest : List HostDrive), s.busy = false → s.host = d :: rest →
    d.start = true → d.rst = false → s.readsTooEarly = false →
    QuietHost rest (Config.latency d.cmd d.opa d.opb) →
    (∀ k, 1 ≤ k → k ≤ Config.latency d.cmd d.opa d.opb →
      ∃ t : State, Host.Core.run Sys2Proof.core k s = .next t ∧ t.busy = true ∧ t.done = false) ∧
    ∃ t : State, Host.Core.run Sys2Proof.core (Config.latency d.cmd d.opa d.opb + 1) s = .next t ∧
      t.busy = false ∧ t.done = true ∧ t.cmd = d.cmd ∧ t.opa = d.opa ∧ t.opb = d.opb

/-- What a command writes depends on its latched operands alone: two states that agree on them get the same status,
and the same images unless the code leaves them unspecified (R14, R185). -/
def Obligations.OutputsDependOnTheLatchesOnly : Prop :=
  ∀ (i : Instr) (s u : State), s.opa = u.opa → s.opb = u.opb →
    ∃ t v, exec i s = .next t ∧ exec i u = .next v ∧ t.status = v.status ∧
      (t.status.toNat % 8 < 3 → t.res = v.res ∧ t.res2 = v.res2)

/-- Every command ends with the one completion step, whatever its inputs: no trap, no other register changed, a
legal status word (R18, R176, R184). -/
def Obligations.EveryCommandEndsInACompletion : Prop :=
  ∀ (i : Instr) (s : State), ∃ t, exec i s = .next t ∧ Completed s t ∧ StatusLegal t.status

/-- No command produces a status code or `OVF` that R60 and R61 do not list it under: codes 1 to 4 come only from
their commands, code 5 only from a command with a DEC128, XREG256 or FPARTS input, codes 6 and 7 from none; and `X96`
is exactly what R62 says. -/
def Obligations.CodesAndFlagsComeFromTheirCommands : Prop :=
  ∀ (i : Instr) (s t : State), i.wf = true → exec i s = .next t →
    (t.status.toNat % 8 = 3 → i ∈ [.xdiv, .xfdiv, .div, .mod]) ∧
    (t.status.toNat % 8 = 4 → i ∈ [.fromf, .toi]) ∧
    (t.status.toNat % 8 = 1 ∨ t.status.toNat % 8 = 2 → i ∈ [.xdown, .xcls, .add, .sub, .mul, .div]) ∧
    (t.status.toNat % 8 = 5 →
      i ∉ [.dzero, .fromi, .fromf, .fxtr] ∧ ∀ k, i ∉ [.btst k, .bset k, .bclr k, .bflp k]) ∧
    t.status.toNat % 8 ≠ 6 ∧ t.status.toNat % 8 ≠ 7 ∧
    (t.status.toNat / 256 % 2 = 1 → i ∈ [.xadd, .xmul, .xmul10, .xinc, .xnorm, .xdec] ∨ ∃ n, i = .xshl n) ∧
    (t.status.toNat / 512 % 2 = 1 ↔
      t.status.toNat % 8 < 3 ∧
        (i ∈ [.xadd, .xsub, .xsgnclr, .xmul, .xmul10, .xdiv, .xfdiv, .xwiden, .xnorm, .xinc, .xdec, .xcls] ∨
          ∃ n, i = .xshl n ∨ i = .xshr n) ∧
        max96 < t.res.toNat % 2 ^ 224)

/-- Every command R60 lists under a status code, and every command R61 lists under `OVF`, produces it on some
operands; a left shift by 0 is the one form that never reports `OVF` (R81). Code 7 is produced by the decoder, in a
statement of its own. -/
def Obligations.EveryListedCodeAndOverflowIsProduced : Prop :=
  (∀ i : Instr, i.wf = true → ProducesCode i 0) ∧
  (∀ i : Instr, i ∈ [.xdown, .xcls, .add, .sub, .mul, .div] → ProducesCode i 1 ∧ ProducesCode i 2) ∧
  (∀ i : Instr, i ∈ [.xdiv, .xfdiv, .div, .mod] → ProducesCode i 3) ∧
  (∀ i : Instr, i ∈ [.fromf, .toi] → ProducesCode i 4) ∧
  (∀ i : Instr, i.wf = true → i ∉ [.dzero, .fromi, .fromf, .fxtr] →
    (∀ k, i ∉ [.btst k, .bset k, .bclr k, .bflp k]) → ProducesCode i 5) ∧
  ∀ i : Instr, i ∈ [.xadd, .xmul, .xmul10, .xinc, .xnorm, .xdec] ∨ (∃ n, i = .xshl n ∧ 0 < n.toNat) →
    ∃ s t, exec i s = .next t ∧ t.status.toNat / 256 % 2 = 1

/-- An operand image that is not valid in a format the command uses ends it with INVALID_OPERAND, whatever else
holds (R51, R179, R182). -/
def Obligations.InvalidOperandIsReported : Prop :=
  ∀ (i : Instr) (s : State), i.wf = true →
    (i ∈ [.xwiden, .dgsign, .dgscale, .floor, .trunc, .neg, .toi, .tof] ∨
        (∃ k, i = .dssign k ∨ i = .dsscale k ∨ i = .dgbit k ∨ i = .round k) ∨ (∃ b k, i = .dsbit b k) →
      (¬∃ x, IsDec s.opa x) → Rejects i s) ∧
    (i ∈ [.add, .sub, .mul, .div, .mod, .clt, .cle, .cgt, .cge, .ceq, .cne] →
      (¬∃ x, IsDec s.opa x) ∨ (¬∃ y, IsDec s.opb y) → Rejects i s) ∧
    (i ∈ [.xzero, .xisneg, .xsgnclr, .xmul10, .xdown, .xinc, .xdec, .xcls] ∨ (∃ n, i = .xshl n ∨ i = .xshr n) →
      (¬∃ x, IsXr s.opa x) → Rejects i s) ∧
    (i ∈ [.xadd, .xsub, .xgt, .xeq, .xmul, .xdiv, .xfdiv, .xnorm] →
      (¬∃ x, IsXr s.opa x) ∨ (¬∃ y, IsXr s.opb y) → Rejects i s)

/-! ### Bit primitives (40) -/

/-- BTST reads bit `i` of the word; BSET, BCLR and BFLP set, clear and flip it and no other (R72 to R75). -/
def Obligations.BitPrimitivesActOnOneBit : Prop :=
  ∀ i : BitVec 8, i.toNat ≤ 31 →
    decode (BitVec.ofNat 32 (i.toNat * 256 + 0x10)) = .ok (.btst i) ∧
    decode (BitVec.ofNat 32 (i.toNat * 256 + 0x11)) = .ok (.bset i) ∧
    decode (BitVec.ofNat 32 (i.toNat * 256 + 0x12)) = .ok (.bclr i) ∧
    decode (BitVec.ofNat 32 (i.toNat * 256 + 0x13)) = .ok (.bflp i) ∧
    ∀ s : State,
      Completes (.btst i) s 0 false false (fun r r2 =>
        r.toNat = ((lowWord s.opa).testBit i.toNat).toNat ∧ r2 = 0) ∧
      Completes (.bset i) s 0 false false (fun r r2 => r.toNat < 2 ^ 32 ∧ r2 = 0 ∧
        ∀ j, j < 32 → r.toNat.testBit j = (decide (j = i.toNat) || (lowWord s.opa).testBit j)) ∧
      Completes (.bclr i) s 0 false false (fun r r2 => r.toNat < 2 ^ 32 ∧ r2 = 0 ∧
        ∀ j, j < 32 → r.toNat.testBit j = (decide (j ≠ i.toNat) && (lowWord s.opa).testBit j)) ∧
      Completes (.bflp i) s 0 false false (fun r r2 => r.toNat < 2 ^ 32 ∧ r2 = 0 ∧
        ∀ j, j < 32 → r.toNat.testBit j = (decide (j = i.toNat) ^^ (lowWord s.opa).testBit j))

/-! ### Extended add, subtract, shift, compare (41) -/

/-- XADD: the sum modulo `2^224` with the scale and sign of `opa`, the carry in `OVF` (R78). -/
def Obligations.XaddSumWithCarry : Prop :=
  decode 0x00000020#32 = .ok .xadd ∧ ∀ s : State,
    (∀ x y, IsXr s.opa x → IsXr s.opb y →
      Completes .xadd s 0 (decide (2 ^ 224 ≤ x.v + y.v)) (decide (max96 < (x.v + y.v) % 2 ^ 224)) fun r r2 =>
        IsXr r ⟨(x.v + y.v) % 2 ^ 224, x.sc, x.sg⟩ ∧ r2 = 0) ∧
    ((¬∃ x, IsXr s.opa x) ∨ (¬∃ y, IsXr s.opb y) → Rejects .xadd s)

/-- XSUB: the magnitude of the difference with the scale of `opa` and its sign flipped on a borrow (R79). -/
def Obligations.XsubMagnitudeAndBorrow : Prop :=
  decode 0x00000021#32 = .ok .xsub ∧ ∀ s : State,
    (∀ x y, IsXr s.opa x → IsXr s.opb y →
      Completes .xsub s 0 false (decide (max96 < ((x.v : ℤ) - y.v).natAbs)) fun r r2 =>
        IsXr r ⟨((x.v : ℤ) - y.v).natAbs, x.sc, x.sg ^^ decide (x.v < y.v)⟩ ∧ r2 = 0) ∧
    ((¬∃ x, IsXr s.opa x) ∨ (¬∃ y, IsXr s.opb y) → Rejects .xsub s)

/-- XSHL and XSHR: the value times and divided by `2^n`, the lost bits of a left shift in `OVF` (R81, R82). -/
def Obligations.ShiftsScaleByPowersOfTwo : Prop :=
  ∀ n : BitVec 8,
    decode (BitVec.ofNat 32 (n.toNat * 256 + 0x22)) = .ok (.xshl n) ∧
    decode (BitVec.ofNat 32 (n.toNat * 256 + 0x23)) = .ok (.xshr n) ∧
    ∀ s : State,
      (∀ x, IsXr s.opa x →
        Completes (.xshl n) s 0 (decide (2 ^ 224 ≤ x.v * 2 ^ n.toNat))
          (decide (max96 < x.v * 2 ^ n.toNat % 2 ^ 224)) (fun r r2 =>
            IsXr r ⟨x.v * 2 ^ n.toNat % 2 ^ 224, x.sc, x.sg⟩ ∧ r2 = 0) ∧
        Completes (.xshr n) s 0 false (decide (max96 < x.v / 2 ^ n.toNat)) (fun r r2 =>
            IsXr r ⟨x.v / 2 ^ n.toNat, x.sc, x.sg⟩ ∧ r2 = 0)) ∧
      ((¬∃ x, IsXr s.opa x) → Rejects (.xshl n) s ∧ Rejects (.xshr n) s)

/-- XGT and XEQ compare the two values, sign and scale ignored; XZERO tests the value and XISNEG the sign flag
(R84 to R87). -/
def Obligations.ExtendedPredicates : Prop :=
  decode 0x00000024#32 = .ok .xgt ∧ decode 0x00000025#32 = .ok .xeq ∧
  decode 0x00000026#32 = .ok .xzero ∧ decode 0x00000027#32 = .ok .xisneg ∧ ∀ s : State,
    (∀ x y, IsXr s.opa x → IsXr s.opb y →
      Completes .xgt s 0 false false (fun r r2 => r.toNat = (if x.v > y.v then 1 else 0) ∧ r2 = 0) ∧
      Completes .xeq s 0 false false (fun r r2 => r.toNat = (if x.v = y.v then 1 else 0) ∧ r2 = 0)) ∧
    (∀ x, IsXr s.opa x →
      Completes .xzero s 0 false false (fun r r2 => r.toNat = (if x.v = 0 then 1 else 0) ∧ r2 = 0) ∧
      Completes .xisneg s 0 false false (fun r r2 => r.toNat = x.sg.toNat ∧ r2 = 0)) ∧
    ((¬∃ x, IsXr s.opa x) → Rejects .xzero s ∧ Rejects .xisneg s) ∧
    ((¬∃ x, IsXr s.opa x) ∨ (¬∃ y, IsXr s.opb y) → Rejects .xgt s ∧ Rejects .xeq s)

/-- XSGNCLR clears the sign flag and leaves value and scale alone (R88). -/
def Obligations.XsgnclrClearsTheSign : Prop :=
  decode 0x00000028#32 = .ok .xsgnclr ∧ ∀ s : State,
    (∀ x, IsXr s.opa x →
      Completes .xsgnclr s 0 false (decide (max96 < x.v)) fun r r2 => IsXr r ⟨x.v, x.sc, false⟩ ∧ r2 = 0) ∧
    ((¬∃ x, IsXr s.opa x) → Rejects .xsgnclr s)

/-- The ripple carry and borrow chains over the seven words give the sum, its carry, the magnitude of the
difference and its borrow (R80). -/
def Obligations.RippleChainsAgreeWithTheArithmetic : Prop :=
  ∀ (p q : Image) (x y : Nat), x = p.toNat % 2 ^ 224 → y = q.toNat % 2 ^ 224 →
    wordsValue (rippleAdd (valueWords p) (valueWords q) 0).1 = (x + y) % 2 ^ 224 ∧
    (rippleAdd (valueWords p) (valueWords q) 0).2 = (x + y) / 2 ^ 224 ∧
    wordsValue (borrowMagnitude (valueWords p) (valueWords q)).1 = ((x : ℤ) - y).natAbs ∧
    (borrowMagnitude (valueWords p) (valueWords q)).2 = decide (x < y)

/-- A move by whole words and a funnel shift between adjacent words shift the seven words by any count (R83). -/
def Obligations.FunnelShifterAgreesWithTheArithmetic : Prop :=
  ∀ (p : Image) (n : Nat),
    wordsValue (funnelLeft (valueWords p) n) = p.toNat % 2 ^ 224 * 2 ^ n % 2 ^ 224 ∧
    wordsValue (funnelRight (valueWords p) n) = p.toNat % 2 ^ 224 / 2 ^ n

/-! ### Extended multiply and divide (42) -/

/-- XMUL: the product modulo `2^224`, the scale sum modulo 256, the signs' exclusive or; XMUL10: ten times the
value; both report what does not fit in `OVF` (R92, R93). -/
def Obligations.XmulAndTimesTen : Prop :=
  decode 0x00000030#32 = .ok .xmul ∧ decode 0x00000031#32 = .ok .xmul10 ∧ ∀ s : State,
    (∀ x y, IsXr s.opa x → IsXr s.opb y →
      Completes .xmul s 0 (decide (2 ^ 224 ≤ x.v * y.v ∨ 255 < x.sc + y.sc))
        (decide (max96 < x.v * y.v % 2 ^ 224)) fun r r2 =>
          IsXr r ⟨x.v * y.v % 2 ^ 224, (x.sc + y.sc) % 256, x.sg ^^ y.sg⟩ ∧ r2 = 0) ∧
    (∀ x, IsXr s.opa x →
      Completes .xmul10 s 0 (decide (2 ^ 224 ≤ 10 * x.v)) (decide (max96 < 10 * x.v % 2 ^ 224)) fun r r2 =>
        IsXr r ⟨10 * x.v % 2 ^ 224, x.sc, x.sg⟩ ∧ r2 = 0) ∧
    ((¬∃ x, IsXr s.opa x) → Rejects .xmul10 s) ∧
    ((¬∃ x, IsXr s.opa x) ∨ (¬∃ y, IsXr s.opb y) → Rejects .xmul s)

/-- Shift-and-add over 224 bit positions gives the product modulo `2^224`, and one of its steps reports an overflow
exactly when the product does not fit (R99). -/
def Obligations.ShiftAndAddAgreesWithTheProduct : Prop :=
  ∀ a b : Nat, a < 2 ^ 224 → b < 2 ^ 224 →
    (shiftAddMul a b).acc = a * b % 2 ^ 224 ∧ ((shiftAddMul a b).ovf = true ↔ 2 ^ 224 ≤ a * b)

/-- XDIV: truncated quotient and remainder of the two values with the signs R95 gives, or ZERO_DIVISION. -/
def Obligations.XdivQuotientAndRemainder : Prop :=
  decode 0x00000032#32 = .ok .xdiv ∧ ∀ s : State,
    (∀ x y, IsXr s.opa x → IsXr s.opb y →
      (y.v ≠ 0 → ∃ q r, x.v = q * y.v + r ∧ r < y.v ∧
        Completes .xdiv s 0 false (decide (max96 < q)) fun p p2 =>
          IsXr p ⟨q, 0, x.sg ^^ y.sg⟩ ∧ IsXr p2 ⟨r, 0, x.sg⟩) ∧
      (y.v = 0 → Completes .xdiv s 3 false false fun _ _ => True)) ∧
    ((¬∃ x, IsXr s.opa x) ∨ (¬∃ y, IsXr s.opb y) → Rejects .xdiv s)

/-- The restoring divider gives quotient and remainder, from bit 223 or from the first set bit of the dividend
(R94). -/
def Obligations.RestoringDividerAgreesWithTheQuotient : Prop :=
  ∀ n d : Nat, n < 2 ^ 224 → 0 < d →
    restoringDivmod n d = (n / d, n % d) ∧ restoringFrom n d (bitlen n) (0, 0) = (n / d, n % d)

/-- XFDIV: the quotient truncated to the digit count R97 stops at, that count as the scale, and the final
remainder; or ZERO_DIVISION (R96, R97). -/
def Obligations.XfdivFractionalQuotient : Prop :=
  decode 0x00000033#32 = .ok .xfdiv ∧ ∀ s : State,
    (∀ x y, IsXr s.opa x → IsXr s.opb y →
      (y.v ≠ 0 → ∃ q k r, FracDivides x.v y.v q k r ∧ x.v * 10 ^ k = q * y.v + r ∧ r < y.v ∧
        Completes .xfdiv s 0 false (decide (max96 < q)) fun p p2 =>
          IsXr p ⟨q, k, x.sg ^^ y.sg⟩ ∧ IsXr p2 ⟨r, 0, x.sg⟩) ∧
      (y.v = 0 → Completes .xfdiv s 3 false false fun _ _ => True)) ∧
    ((¬∃ x, IsXr s.opa x) ∨ (¬∃ y, IsXr s.opb y) → Rejects .xfdiv s)

/-! ### Scale manager, classifier, widen, downcast (43) -/

/-- XWIDEN: the Decimal as an Extended Register, unchanged (R101). -/
def Obligations.XwidenIsLossless : Prop :=
  decode 0x00000040#32 = .ok .xwiden ∧ ∀ s : State,
    (∀ x, IsDec s.opa x → Completes .xwiden s 0 false false fun r r2 => IsXr r x ∧ r2 = 0) ∧
    ((¬∃ x, IsDec s.opa x) → Rejects .xwiden s)

/-- XDOWN: the fewest digits removed with one half-to-even rounding, else the infinity of the sign; it saturates
exactly when the value rounded to an integer exceeds `MAX96` (R102, R103). -/
def Obligations.XdownRemovesFewestDigits : Prop :=
  decode 0x00000041#32 = .ok .xdown ∧ ∀ s : State,
    (∀ x, IsXr s.opa x → ∃ code p, DowncastsTo x code p ∧
      (code ≠ 0 ↔ ∃ m, NearestEven x.v (10 ^ x.sc) m ∧ max96 < m) ∧
      Completes .xdown s code false false fun r r2 => r = p ∧ r2 = 0) ∧
    ((¬∃ x, IsXr s.opa x) → Rejects .xdown s)

/-- Widening a valid Decimal and downcasting the result gives the Decimal back, bit for bit (R112). -/
def Obligations.WidenThenDowncastIsTheIdentity : Prop :=
  ∀ (s : State) (x : Triple), IsDec s.opa x →
    ∃ t, exec .xwiden s = .next t ∧
      Completes .xdown { s with opa := t.res } 0 false false fun r r2 =>
        r.toNat = s.opa.toNat % 2 ^ 128 ∧ r2 = 0

/-- XNORM raises the operand of lower scale by as many times-ten steps as stay within `MAX96`, never beyond the
other's scale, and reports in `OVF` that the scales still differ (R104, R105). -/
def Obligations.XnormRaisesTheLowerScale : Prop :=
  decode 0x00000042#32 = .ok .xnorm ∧ ∀ s : State,
    (∀ x y, IsXr s.opa x → IsXr s.opb y → ∃ i j, RaisesBy x.v (y.sc - x.sc) i ∧ RaisesBy y.v (x.sc - y.sc) j ∧
      Completes .xnorm s 0 (decide (x.sc + i ≠ y.sc + j)) (decide (max96 < x.v * 10 ^ i)) fun r r2 =>
        IsXr r ⟨x.v * 10 ^ i, x.sc + i, x.sg⟩ ∧ IsXr r2 ⟨y.v * 10 ^ j, y.sc + j, y.sg⟩) ∧
    ((¬∃ x, IsXr s.opa x) ∨ (¬∃ y, IsXr s.opb y) → Rejects .xnorm s)

/-- XINC multiplies by ten and adds one to the scale; XDEC divides by ten, delivers the removed digit, and refuses
at scale 0 (R107, R108). -/
def Obligations.XincAndXdec : Prop :=
  decode 0x00000043#32 = .ok .xinc ∧ decode 0x00000044#32 = .ok .xdec ∧ ∀ s : State,
    (∀ x, IsXr s.opa x →
      Completes .xinc s 0 (decide (2 ^ 224 ≤ 10 * x.v ∨ x.sc = 255)) (decide (max96 < 10 * x.v % 2 ^ 224))
        (fun r r2 => IsXr r ⟨10 * x.v % 2 ^ 224, (x.sc + 1) % 256, x.sg⟩ ∧ r2 = 0) ∧
      (x.sc = 0 → Completes .xdec s 0 true (decide (max96 < x.v)) fun r r2 => r = s.opa ∧ r2 = 0) ∧
      (x.sc ≠ 0 → Completes .xdec s 0 false (decide (max96 < x.v / 10)) fun r r2 =>
        IsXr r ⟨x.v / 10, x.sc - 1, x.sg⟩ ∧ IsXr r2 ⟨x.v % 10, 0, false⟩)) ∧
    ((¬∃ x, IsXr s.opa x) → Rejects .xinc s ∧ Rejects .xdec s)

/-- XCLS returns its operand and classifies the value field alone (R110). -/
def Obligations.XclsClassifiesTheValue : Prop :=
  decode 0x00000045#32 = .ok .xcls ∧ ∀ s : State,
    (∀ x, IsXr s.opa x →
      (x.v ≤ max96 → Completes .xcls s 0 false false fun r r2 => r = s.opa ∧ r2 = 0) ∧
      (max96 < x.v → Completes .xcls s (if x.sg then 2 else 1) false true fun r r2 => r = s.opa ∧ r2 = 0)) ∧
    ((¬∃ x, IsXr s.opa x) → Rejects .xcls s)

/-! ### Decimal type and accessors (44) -/

/-- DZERO delivers all zeros; DGSIGN, DGSCALE and DGBIT read the sign, the scale and a mantissa bit (R117, R118,
R120, R122). -/
def Obligations.DecimalAccessorsRead : Prop :=
  decode 0x00000048#32 = .ok .dzero ∧ decode 0x00000049#32 = .ok .dgsign ∧
  decode 0x0000004B#32 = .ok .dgscale ∧
  (∀ i : BitVec 8, i.toNat ≤ 95 → decode (BitVec.ofNat 32 (i.toNat * 256 + 0x4D)) = .ok (.dgbit i)) ∧
  ∀ s : State,
    Completes .dzero s 0 false false (fun r r2 => r = 0 ∧ r2 = 0) ∧
    (∀ x, IsDec s.opa x →
      Completes .dgsign s 0 false false (fun r r2 => r.toNat = x.sg.toNat ∧ r2 = 0) ∧
      Completes .dgscale s 0 false false (fun r r2 => r.toNat = x.sc ∧ r2 = 0) ∧
      ∀ i : BitVec 8, i.toNat ≤ 95 →
        Completes (.dgbit i) s 0 false false fun r r2 => r.toNat = (x.v.testBit i.toNat).toNat ∧ r2 = 0) ∧
    ((¬∃ x, IsDec s.opa x) → Rejects .dgsign s ∧ Rejects .dgscale s ∧
      ∀ i : BitVec 8, i.toNat ≤ 95 → Rejects (.dgbit i) s)

/-- DSSIGN, DSSCALE and DSBIT replace the sign, the scale field and one mantissa bit, and nothing else (R119, R121,
R123). -/
def Obligations.DecimalMutatorsReplaceOneField : Prop :=
  (∀ k : BitVec 8, k.toNat ≤ 1 → decode (BitVec.ofNat 32 (k.toNat * 256 + 0x4A)) = .ok (.dssign k)) ∧
  (∀ t : BitVec 8, t.toNat ≤ 28 → decode (BitVec.ofNat 32 (t.toNat * 256 + 0x4C)) = .ok (.dsscale t)) ∧
  (∀ (b : Bool) (i : BitVec 7), i.toNat ≤ 95 →
    decode (BitVec.ofNat 32 ((b.toNat * 128 + i.toNat) * 256 + 0x4E)) = .ok (.dsbit b i)) ∧
  ∀ s : State,
    (∀ x, IsDec s.opa x →
      (∀ k : BitVec 8, k.toNat ≤ 1 → Completes (.dssign k) s 0 false false fun r r2 =>
        IsDecResult r ⟨x.v, x.sc, decide (k.toNat = 1)⟩ ∧ r2 = 0) ∧
      (∀ t : BitVec 8, t.toNat ≤ 28 → Completes (.dsscale t) s 0 false false fun r r2 =>
        IsDecResult r ⟨x.v, t.toNat, x.sg⟩ ∧ r2 = 0) ∧
      ∀ (b : Bool) (i : BitVec 7), i.toNat ≤ 95 → ∃ m : Nat,
        (∀ j, m.testBit j = if j = i.toNat then b else x.v.testBit j) ∧
        Completes (.dsbit b i) s 0 false false fun r r2 => IsDecResult r ⟨m, x.sc, x.sg⟩ ∧ r2 = 0) ∧
    ((¬∃ x, IsDec s.opa x) →
      (∀ k : BitVec 8, k.toNat ≤ 1 → Rejects (.dssign k) s) ∧
      (∀ t : BitVec 8, t.toNat ≤ 28 → Rejects (.dsscale t) s) ∧
      ∀ (b : Bool) (i : BitVec 7), i.toNat ≤ 95 → Rejects (.dsbit b i) s)

/-! ### Decimal arithmetic (45) -/

/-- ADD: raise the operand of lower scale within `MAX96`, round the other half to even to the scale reached, add
the signed magnitudes, downcast (R130, through R104, R106, R89 and R102). -/
def Obligations.AddAlignsAddsAndDowncasts : Prop :=
  decode 0x00000050#32 = .ok .add ∧ ∀ s : State,
    (∀ x y, IsDec s.opa x → IsDec s.opb y → ∃ i j c a b code p,
      RaisesBy x.v (y.sc - x.sc) i ∧ RaisesBy y.v (x.sc - y.sc) j ∧ c = min (x.sc + i) (y.sc + j) ∧
      NearestEven (x.v * 10 ^ i) (10 ^ (x.sc + i - c)) a ∧ NearestEven (y.v * 10 ^ j) (10 ^ (y.sc + j - c)) b ∧
      DowncastsTo ⟨if x.sg = y.sg then a + b else ((a : ℤ) - b).natAbs, c,
        if x.sg = y.sg ∨ b ≤ a then x.sg else y.sg⟩ code p ∧
      Completes .add s code false false fun r r2 => r = p ∧ r2 = 0) ∧
    ((¬∃ x, IsDec s.opa x) ∨ (¬∃ y, IsDec s.opb y) → Rejects .add s)

/-- When both operands and the sum fit 96 bits at the higher of the two scales, ADD is exact at that scale (R130,
"the sum is exact and has scale `max(sa, sb)`"). -/
def Obligations.AddIsExactWhenTheScalesMeet : Prop :=
  ∀ (s : State) (x y : Triple) (a b : Nat), IsDec s.opa x → IsDec s.opb y →
    a = x.v * 10 ^ (max x.sc y.sc - x.sc) → b = y.v * 10 ^ (max x.sc y.sc - y.sc) →
    a ≤ max96 → b ≤ max96 → (x.sg = y.sg → a + b ≤ max96) →
    ∃ t : Triple, t.sc = max x.sc y.sc ∧ t.value = x.value + y.value ∧
      Completes .add s 0 false false fun r r2 => IsDecResult r t ∧ r2 = 0

/-- SUB gives the outputs of ADD on the negated second operand (R131). -/
def Obligations.SubIsAddOfTheNegation : Prop :=
  decode 0x00000051#32 = .ok .sub ∧ ∀ s : State,
    (∀ x y q, IsDec s.opa x → IsDec s.opb y → IsDec q ⟨y.v, y.sc, !y.sg⟩ →
      ∃ t u, exec .sub s = .next t ∧ exec .add { s with opb := q } = .next u ∧ t.res = u.res ∧
        t.res2 = u.res2 ∧ t.status = u.status ∧ Completed s t) ∧
    ((¬∃ x, IsDec s.opa x) ∨ (¬∃ y, IsDec s.opb y) → Rejects .sub s)

/-- MUL: the exact product at the sum of the scales, downcast with one rounding (R132). -/
def Obligations.MulRoundsTheExactProductOnce : Prop :=
  decode 0x00000052#32 = .ok .mul ∧ ∀ s : State,
    (∀ x y, IsDec s.opa x → IsDec s.opb y → ∃ code p,
      DowncastsTo ⟨x.v * y.v, x.sc + y.sc, x.sg ^^ y.sg⟩ code p ∧
      Completes .mul s code false false fun r r2 => r = p ∧ r2 = 0) ∧
    ((¬∃ x, IsDec s.opa x) ∨ (¬∃ y, IsDec s.opb y) → Rejects .mul s)

/-- DIV: the exactly aligned values divided digit by digit, downcast; a zero divisor gives ZERO_DIVISION (R133). -/
def Obligations.DivGeneratesTheFractionalDigits : Prop :=
  decode 0x00000053#32 = .ok .div ∧ ∀ s : State,
    (∀ x y, IsDec s.opa x → IsDec s.opb y →
      (y.v ≠ 0 → ∃ q k r code p,
        FracDivides (x.v * 10 ^ (max x.sc y.sc - x.sc)) (y.v * 10 ^ (max x.sc y.sc - y.sc)) q k r ∧
        DowncastsTo ⟨q, k, x.sg ^^ y.sg⟩ code p ∧
        Completes .div s code false false fun r r2 => r = p ∧ r2 = 0) ∧
      (y.v = 0 → Completes .div s 3 false false fun _ _ => True)) ∧
    ((¬∃ x, IsDec s.opa x) ∨ (¬∃ y, IsDec s.opb y) → Rejects .div s)

/-- MOD: the exact `a - b * trunc(a / b)` at the higher scale with the sign of the dividend; a zero divisor gives
ZERO_DIVISION (R134). -/
def Obligations.ModIsTheExactRemainder : Prop :=
  decode 0x00000054#32 = .ok .mod ∧ ∀ s : State,
    (∀ x y, IsDec s.opa x → IsDec s.opb y →
      (y.v ≠ 0 → ∃ t : Triple, t.sc = max x.sc y.sc ∧ t.sg = x.sg ∧
        t.v = x.v * 10 ^ (max x.sc y.sc - x.sc) % (y.v * 10 ^ (max x.sc y.sc - y.sc)) ∧
        t.value = x.value - y.value *
          (if 0 ≤ x.value / y.value then ⌊x.value / y.value⌋ else ⌈x.value / y.value⌉) ∧
        Completes .mod s 0 false false fun r r2 => IsDecResult r t ∧ r2 = 0) ∧
      (y.v = 0 → Completes .mod s 3 false false fun _ _ => True)) ∧
    ((¬∃ x, IsDec s.opa x) ∨ (¬∃ y, IsDec s.opb y) → Rejects .mod s)

/-- Adding the negation of a Decimal gives a zero with its scale and sign, and multiplying by the image of the
integer 1 gives it back exactly (R130, R132, R137). -/
def Obligations.NegationSumsToZeroAndOneIsNeutral : Prop :=
  ∀ (s : State) (x : Triple) (q : Image), IsDec s.opa x → IsDec q ⟨x.v, x.sc, !x.sg⟩ →
    (Completes .add { s with opb := q } 0 false false fun r r2 => IsDecResult r ⟨0, x.sc, x.sg⟩ ∧ r2 = 0) ∧
    Completes .mul { s with opb := 1 } 0 false false fun r r2 => IsDecResult r x ∧ r2 = 0

/-- ADD is XWIDEN of both operands, XNORM, then, when the scales meet, XADD or XSUB chosen by the signs, and XDOWN
(R136). -/
def Obligations.AddFromExtendedCommands : Prop :=
  ∀ (s : State) (x y : Triple), IsDec s.opa x → IsDec s.opb y →
    ∃ t1 t2 t3 t4 t5 t6, exec .xwiden s = .next t1 ∧ exec .xwiden { s with opa := s.opb } = .next t2 ∧
      exec .xnorm { s with opa := t1.res, opb := t2.res } = .next t3 ∧
      exec (if x.sg = y.sg then .xadd else .xsub) { s with opa := t3.res, opb := t3.res2 } = .next t4 ∧
      exec .xdown { s with opa := t4.res } = .next t5 ∧ exec .add s = .next t6 ∧
      (t3.status.toNat / 256 % 2 = 0 → t6.res = t5.res ∧ t6.res2 = t5.res2 ∧ t6.status = t5.status)

/-- MUL is XWIDEN of both operands, XMUL and XDOWN; DIV is XWIDEN of both, XINC steps on the operand of lower scale
until the scales agree, XFDIV and XDOWN, a zero divisor giving the status of DIV at the XFDIV (R136). -/
def Obligations.MulAndDivFromExtendedCommands : Prop :=
  ∀ (s : State) (x y : Triple), IsDec s.opa x → IsDec s.opb y →
    ∃ t1 t2, exec .xwiden s = .next t1 ∧ exec .xwiden { s with opa := s.opb } = .next t2 ∧
      (∃ t3 t4 t5, exec .xmul { s with opa := t1.res, opb := t2.res } = .next t3 ∧
        exec .xdown { s with opa := t3.res } = .next t4 ∧ exec .mul s = .next t5 ∧
        t5.res = t4.res ∧ t5.res2 = t4.res2 ∧ t5.status = t4.status) ∧
      ∃ p q t3 t4 t5, XincSteps s (y.sc - x.sc) t1.res p ∧ XincSteps s (x.sc - y.sc) t2.res q ∧
        (xr p).sc = (xr q).sc ∧ exec .xfdiv { s with opa := p, opb := q } = .next t3 ∧
        exec .xdown { s with opa := t3.res } = .next t4 ∧ exec .div s = .next t5 ∧
        (y.v ≠ 0 → t5.res = t4.res ∧ t5.res2 = t4.res2 ∧ t5.status = t4.status) ∧
        (y.v = 0 → StatusIs t3.status 3 false false ∧ t5.status = t3.status)

/-! ### Decimal comparison (46) -/

/-- The six predicates are the order of the represented values as rational numbers (R141, R143 to R148). -/
def Obligations.ComparatorOrdersTheValues : Prop :=
  decode 0x00000060#32 = .ok .clt ∧ decode 0x00000061#32 = .ok .cle ∧ decode 0x00000062#32 = .ok .cgt ∧
  decode 0x00000063#32 = .ok .cge ∧ decode 0x00000064#32 = .ok .ceq ∧ decode 0x00000065#32 = .ok .cne ∧
  ∀ s : State,
    (∀ x y, IsDec s.opa x → IsDec s.opb y →
      Completes .clt s 0 false false (fun r r2 => r.toNat = (if x.value < y.value then 1 else 0) ∧ r2 = 0) ∧
      Completes .cle s 0 false false (fun r r2 => r.toNat = (if x.value ≤ y.value then 1 else 0) ∧ r2 = 0) ∧
      Completes .cgt s 0 false false (fun r r2 => r.toNat = (if x.value > y.value then 1 else 0) ∧ r2 = 0) ∧
      Completes .cge s 0 false false (fun r r2 => r.toNat = (if x.value ≥ y.value then 1 else 0) ∧ r2 = 0) ∧
      Completes .ceq s 0 false false (fun r r2 => r.toNat = (if x.value = y.value then 1 else 0) ∧ r2 = 0) ∧
      Completes .cne s 0 false false (fun r r2 => r.toNat = (if x.value ≠ y.value then 1 else 0) ∧ r2 = 0)) ∧
    ((¬∃ x, IsDec s.opa x) ∨ (¬∃ y, IsDec s.opb y) →
      Rejects .clt s ∧ Rejects .cle s ∧ Rejects .cgt s ∧ Rejects .cge s ∧ Rejects .ceq s ∧ Rejects .cne s)

/-! ### Rounding and sign (47) -/

/-- TRUNC drops the fraction and keeps the sign; FLOOR delivers the greatest integer not above the value, both at
scale 0 (R152, R153). -/
def Obligations.TruncAndFloor : Prop :=
  decode 0x00000072#32 = .ok .trunc ∧ decode 0x00000070#32 = .ok .floor ∧ ∀ s : State,
    (∀ x, IsDec s.opa x →
      (Completes .trunc s 0 false false fun r r2 => IsDecResult r ⟨x.v / 10 ^ x.sc, 0, x.sg⟩ ∧ r2 = 0) ∧
      ∃ t : Triple, t.sc = 0 ∧ t.sg = x.sg ∧ t.value = ⌊x.value⌋ ∧
        Completes .floor s 0 false false fun r r2 => IsDecResult r t ∧ r2 = 0) ∧
    ((¬∃ x, IsDec s.opa x) → Rejects .trunc s ∧ Rejects .floor s)

/-- ROUND rounds the magnitude half to even at the target scale and never raises the scale; NEG flips the sign
(R154, R155). That a ROUND that discards nothing delivers zero in the upper 128 bits is the model's inference from
R154, R157 and R49 (log 17, DEDUCED). -/
def Obligations.RoundAndNegate : Prop :=
  (∀ ts : BitVec 8, ts.toNat ≤ 28 → decode (BitVec.ofNat 32 (ts.toNat * 256 + 0x71)) = .ok (.round ts)) ∧
  decode 0x00000073#32 = .ok .neg ∧ ∀ s : State,
    (∀ x, IsDec s.opa x →
      (∀ ts : BitVec 8, ts.toNat ≤ 28 →
        (x.sc ≤ ts.toNat → Completes (.round ts) s 0 false false fun r r2 => IsDecResult r x ∧ r2 = 0) ∧
        (ts.toNat < x.sc → ∃ m, NearestEven x.v (10 ^ (x.sc - ts.toNat)) m ∧
          Completes (.round ts) s 0 false false fun r r2 => IsDecResult r ⟨m, ts.toNat, x.sg⟩ ∧ r2 = 0)) ∧
      Completes .neg s 0 false false fun r r2 => IsDecResult r ⟨x.v, x.sc, !x.sg⟩ ∧ r2 = 0) ∧
    ((¬∃ x, IsDec s.opa x) →
      (∀ ts : BitVec 8, ts.toNat ≤ 28 → Rejects (.round ts) s) ∧ Rejects .neg s)

/-- `rhe(v, k)` is the one natural nearest to `v / 10^k`, ties to even, and the digit-serial loop computes it (R151,
R156). -/
def Obligations.RoundingIsNearestEvenAndDigitSerial : Prop :=
  ∀ v k : Nat, NearestEven v (10 ^ k) (rhe v k) ∧ (∀ m, NearestEven v (10 ^ k) m → m = rhe v k) ∧
    (1 ≤ k → rheSerial v k = rhe v k)

/-! ### Converters (48) -/

/-- FROMI: magnitude and sign of the two's-complement integer at scale 0; TOI: the truncated value as a
two's-complement word, or CONVERTING_ERROR outside the range (R163, R164). -/
def Obligations.IntegerConversions : Prop :=
  decode 0x00000080#32 = .ok .fromi ∧ decode 0x00000082#32 = .ok .toi ∧ ∀ s : State,
    (∀ n : ℤ, n = (if lowWord s.opa < 2 ^ 31 then (lowWord s.opa : ℤ) else (lowWord s.opa : ℤ) - 2 ^ 32) →
      Completes .fromi s 0 false false fun r r2 => IsDecResult r ⟨n.natAbs, 0, decide (n < 0)⟩ ∧ r2 = 0) ∧
    (∀ (x : Triple) (n : ℤ), IsDec s.opa x →
      n = (if x.sg then -((x.v / 10 ^ x.sc : Nat) : ℤ) else ((x.v / 10 ^ x.sc : Nat) : ℤ)) →
      (-2 ^ 31 ≤ n ∧ n ≤ 2 ^ 31 - 1 →
        Completes .toi s 0 false false fun r r2 => (r.toNat : ℤ) = n % 2 ^ 32 ∧ r2 = 0) ∧
      (¬(-2 ^ 31 ≤ n ∧ n ≤ 2 ^ 31 - 1) → Completes .toi s 4 false false fun _ _ => True)) ∧
    ((¬∃ x, IsDec s.opa x) → Rejects .toi s)

/-- TOI of FROMI returns every native integer (R164). -/
def Obligations.IntegerRoundTrip : Prop :=
  ∀ s : State, ∃ t, exec .fromi s = .next t ∧
    Completes .toi { s with opa := t.res } 0 false false fun r r2 => r.toNat = lowWord s.opa ∧ r2 = 0

/-- FXTR delivers the fields, class, significand and exponent of a float pattern; FBLD packs three fields or rejects
them; FBLD of FXTR is the identity (R161, R162). -/
def Obligations.FloatFieldsTakenApartAndPutTogether : Prop :=
  decode 0x00000084#32 = .ok .fxtr ∧ decode 0x00000085#32 = .ok .fbld ∧ ∀ s : State,
    (∀ x f e : Nat, x = lowWord s.opa → f = x % 2 ^ 23 → e = x / 2 ^ 23 % 2 ^ 8 →
      Completes .fxtr s 0 false false fun r r2 => r2 = 0 ∧
        r.toNat = f + e * 2 ^ 32 + x / 2 ^ 31 * 2 ^ 64 +
          (if e = 255 then (if f = 0 then 3 else 4) else if e = 0 then (if f = 0 then 0 else 1) else 2) * 2 ^ 96 +
          (if e = 255 then 0 else if e = 0 then f else 2 ^ 23 + f) * 2 ^ 128 +
          (if e = 255 then 0 else if e = 0 then (if f = 0 then 0 else 2 ^ 32 - 149)
            else if e < 150 then 2 ^ 32 + e - 150 else e - 150) * 2 ^ 160) ∧
    (∀ w0 w1 w2 : Nat, w0 = s.opa.toNat % 2 ^ 32 → w1 = s.opa.toNat / 2 ^ 32 % 2 ^ 32 →
      w2 = s.opa.toNat / 2 ^ 64 % 2 ^ 32 →
      (w0 < 2 ^ 23 ∧ w1 < 256 ∧ w2 < 2 → Completes .fbld s 0 false false fun r r2 =>
        r.toNat = w2 * 2 ^ 31 + w1 * 2 ^ 23 + w0 ∧ r2 = 0) ∧
      (¬(w0 < 2 ^ 23 ∧ w1 < 256 ∧ w2 < 2) → Rejects .fbld s)) ∧
    ∃ t, exec .fxtr s = .next t ∧
      Completes .fbld { s with opa := t.res } 0 false false fun r r2 => r.toNat = lowWord s.opa ∧ r2 = 0

/-- FROMF: CONVERTING_ERROR for infinities, NaNs and magnitudes of `2^96` or more; zeros keep their sign; else the
nearest Decimal at the largest scale that fits, ties to even, without trailing zeros (R165). -/
def Obligations.FromfIsTheNearestDecimal : Prop :=
  decode 0x00000081#32 = .ok .fromf ∧ ∀ (s : State) (x f e m n : Nat) (sg : Bool),
    x = lowWord s.opa → f = x % 2 ^ 23 → e = x / 2 ^ 23 % 2 ^ 8 → sg = decide (x / 2 ^ 31 = 1) →
    m = (if e = 0 then f else 2 ^ 23 + f) → n = (if e = 0 then 149 else 150 - e) →
    (e = 255 ∨ e < 255 ∧ 150 ≤ e ∧ max96 < m * 2 ^ (e - 150) →
      Completes .fromf s 4 false false fun _ _ => True) ∧
    (e < 255 ∧ 150 ≤ e ∧ m * 2 ^ (e - 150) ≤ max96 →
      Completes .fromf s 0 false false fun r r2 => IsDecResult r ⟨m * 2 ^ (e - 150), 0, sg⟩ ∧ r2 = 0) ∧
    (e < 150 → ∃ c u z sc, c ≤ 28 ∧ NearestEven (m * 10 ^ c) (2 ^ n) u ∧ u ≤ max96 ∧
      (∀ d w, c < d → d ≤ 28 → NearestEven (m * 10 ^ d) (2 ^ n) w → max96 < w) ∧
      sc ≤ c ∧ u = z * 10 ^ (c - sc) ∧ (sc = 0 ∨ z % 10 ≠ 0) ∧
      Completes .fromf s 0 false false fun r r2 => IsDecResult r ⟨z, sc, sg⟩ ∧ r2 = 0)

/-- TOF: a zero keeps its sign; every other Decimal gives the normal float whose 24-bit significand is the nearest,
ties to even (R166). -/
def Obligations.TofIsTheNearestFloat : Prop :=
  decode 0x00000083#32 = .ok .tof ∧ ∀ s : State,
    (∀ x, IsDec s.opa x →
      (x.v = 0 → Completes .tof s 0 false false fun r r2 => r.toNat = x.sg.toNat * 2 ^ 31 ∧ r2 = 0) ∧
      (x.v ≠ 0 → ∃ (e : ℤ) (q : Nat), -94 ≤ e ∧ e ≤ 95 ∧
        (2 : ℚ) ^ e ≤ (x.v : ℚ) / 10 ^ x.sc ∧ (x.v : ℚ) / 10 ^ x.sc < (2 : ℚ) ^ (e + 1) ∧
        NearestEven (x.v * 2 ^ (23 - e).toNat) (10 ^ x.sc * 2 ^ (e - 23).toNat) q ∧
        Completes .tof s 0 false false fun r r2 => r.toNat < 2 ^ 32 ∧ r2 = 0 ∧
          r.toNat / 2 ^ 31 = x.sg.toNat ∧ 1 ≤ r.toNat / 2 ^ 23 % 2 ^ 8 ∧ r.toNat / 2 ^ 23 % 2 ^ 8 ≤ 254 ∧
          floatValue r.toNat = (if x.sg then -1 else 1) * (q : ℚ) * (2 : ℚ) ^ (e - 23))) ∧
    ((¬∃ x, IsDec s.opa x) → Rejects .tof s)

/-- TOF of FROMF returns every float that is a zero or has its last bit at `2^-28` or above and a magnitude below
`2^96`, and FROMF of it is exact (R167). -/
def Obligations.FloatRoundTrip : Prop :=
  ∀ (s : State) (x f e : Nat), x = lowWord s.opa → f = x % 2 ^ 23 → e = x / 2 ^ 23 % 2 ^ 8 →
    (e = 0 ∧ f = 0) ∨ (122 ≤ e ∧ e < 223) →
    ∃ (t : State) (d : Triple), exec .fromf s = .next t ∧ StatusIs t.status 0 false false ∧
      IsDecResult t.res d ∧ d.value = floatValue x ∧
      Completes .tof { s with opa := t.res } 0 false false fun r r2 => r.toNat = x ∧ r2 = 0
end

