-- ==== Sys2Proof/Laws/Encoding.lean ====
section
/-! SUPPORT. Command words as numbers: the fields of a word, and decoding a word built from its fields. -/

namespace Sys2Proof

theorem commandWord_toNat (op imm : BitVec 8) : (commandWord op imm).toNat = imm.toNat * 256 + op.toNat := by
  unfold commandWord
  rw [BitVec.toNat_append, BitVec.toNat_append, ← Nat.shiftLeft_add_eq_or_of_lt op.isLt,
    ← Nat.shiftLeft_add_eq_or_of_lt imm.isLt]
  simp [Nat.shiftLeft_eq]

theorem fields_toNat (c : Word) : (reservedField c).toNat = c.toNat / 65536 ∧
    (immField c).toNat = c.toNat / 256 % 256 ∧ (opcodeField c).toNat = c.toNat % 256 := by
  have := c.isLt
  unfold reservedField immField opcodeField
  simp [BitVec.extractLsb'_toNat, Nat.shiftRight_eq_div_pow]
  omega

/-- The fields of a command word are those it was built from. -/
theorem fields_commandWord (op imm : BitVec 8) : reservedField (commandWord op imm) = 0 ∧
    opcodeField (commandWord op imm) = op ∧ immField (commandWord op imm) = imm := by
  obtain ⟨a, b, c⟩ := fields_toNat (commandWord op imm)
  rw [commandWord_toNat] at a b c
  have := op.isLt
  have := imm.isLt
  refine ⟨BitVec.eq_of_toNat_eq ?_, BitVec.eq_of_toNat_eq ?_, BitVec.eq_of_toNat_eq ?_⟩
  · rw [a]; simp; omega
  · omega
  · omega

/-- A word with reserved bits zero is built from its fields. -/
theorem commandWord_fields {c : Word} (h : reservedField c = 0) :
    commandWord (opcodeField c) (immField c) = c := by
  apply BitVec.eq_of_toNat_eq
  obtain ⟨a, b, e⟩ := fields_toNat c
  rw [commandWord_toNat, b, e]
  rw [h] at a
  simp at a
  omega

theorem decode_commandWord (op imm : BitVec 8) : decode (commandWord op imm) = decodeFields op imm := by
  obtain ⟨a, b, c⟩ := fields_commandWord op imm
  unfold decode; rw [a, b, c]; simp

/-- A word written as `imm * 256 + op` is the command word of its fields. -/
theorem ofNat_eq_commandWord (imm : BitVec 8) (op : Nat) (h : op < 256) :
    BitVec.ofNat 32 (imm.toNat * 256 + op) = commandWord (BitVec.ofNat 8 op) imm := by
  apply BitVec.eq_of_toNat_eq
  have := imm.isLt
  rw [commandWord_toNat]
  simp; omega

end Sys2Proof
end

