-- ==== Sys2Proof/Laws/Images.lean ====
section
/-! SUPPORT. The fields, the validity and the builders of the port images as numbers: what `xr`, `dec`, `xrImg`,
`decImg`, `wordImg`, `boolImg` and the status word are, said once. -/

namespace Sys2Proof.Machine

/-! ### Bit vectors as numbers -/

theorem toNat_append_add {n m : Nat} (x : BitVec n) (y : BitVec m) :
    (x ++ y).toNat = x.toNat * 2 ^ m + y.toNat := by
  rw [BitVec.toNat_append, ← Nat.shiftLeft_add_eq_or_of_lt y.isLt, Nat.shiftLeft_eq]

theorem toNat_field {n : Nat} (x : BitVec n) (lo len : Nat) :
    (x.extractLsb' lo len).toNat = x.toNat / 2 ^ lo % 2 ^ len := by
  rw [BitVec.extractLsb'_toNat, Nat.shiftRight_eq_div_pow]

theorem bool_toNat_inj (b c : Bool) : b.toNat = c.toNat ↔ b = c := by cases b <;> cases c <;> simp

theorem toNat_ofBool (b : Bool) : (BitVec.ofBool b).toNat = b.toNat := by cases b <;> rfl

theorem getLsbD_eq_bit {n : Nat} (x : BitVec n) (i : Nat) :
    (x.getLsbD i).toNat = x.toNat / 2 ^ i % 2 := by
  rw [BitVec.getLsbD, Nat.testBit_eq_decide_div_mod_eq]
  rcases Nat.mod_two_eq_zero_or_one (x.toNat / 2 ^ i) with h | h <;> simp [h]

theorem toNat_word (p : Image) (i : Nat) : (word p i).toNat = p.toNat / 2 ^ (32 * i) % 2 ^ 32 :=
  toNat_field p _ _

theorem lowWord_eq (p : Image) : lowWord p = (word p 0).toNat := by
  rw [toNat_word, lowWord]; simp

/-! ### The flags word -/

theorem flagScale_eq (w : Word) : flagScale w = w.toNat / 2 ^ 16 % 2 ^ 8 := toNat_field w _ _

theorem flagSign_toNat (w : Word) : (flagSign w).toNat = w.toNat / 2 ^ 31 := by
  rw [flagSign, getLsbD_eq_bit, Nat.mod_eq_of_lt]
  have := w.isLt
  omega

theorem flagReservedZero_iff (w : Word) :
    flagReservedZero w = true ↔ w.toNat / 2 ^ 24 % 2 ^ 7 = 0 ∧ w.toNat % 2 ^ 16 = 0 := by
  simp only [flagReservedZero, Bool.and_eq_true, beq_iff_eq, ← BitVec.toNat_inj, toNat_field]
  simp

theorem toNat_flagsWord (sc : Nat) (sg : Bool) (h : sc < 256) :
    (flagsWord sc sg).toNat = sg.toNat * 2 ^ 31 + sc * 2 ^ 16 := by
  have e : sc % 256 = sc := Nat.mod_eq_of_lt h
  simp only [flagsWord, toNat_append_add, toNat_ofBool, BitVec.toNat_ofNat]
  omega

/-! ### XREG256 -/

/-- The valid XREG256 images and their triples are exactly what the layout of R57 says. -/
theorem isXr_iff (p : Image) (t : Triple) : IsXr p t ↔ xrValid p = true ∧ xr p = t := by
  obtain ⟨v, sc, sg⟩ := t
  have hp := p.isLt
  simp only [IsXr, xrValid, flagReservedZero_iff, xr, Triple.mk.injEq, toNat_field, flagScale_eq, toNat_word]
  have hs : flagSign (word p 7) = sg ↔ p.toNat / 2 ^ 255 = sg.toNat := by
    rw [← bool_toNat_inj, flagSign_toNat, toNat_word]
    omega
  rw [hs]
  have hb : sg.toNat ≤ 1 := sg.toNat_le
  omega

theorem isXr_xrImg (t : Triple) (hv : t.v < 2 ^ 224) (hs : t.sc < 256) : IsXr (xrImg t) t := by
  refine ⟨hv, hs, ?_⟩
  rw [xrImg, toNat_append_add, toNat_flagsWord _ _ hs, BitVec.toNat_ofNat, Nat.mod_eq_of_lt hv]
  omega

theorem xr_xrImg (t : Triple) (hv : t.v < 2 ^ 224) (hs : t.sc < 256) : xr (xrImg t) = t :=
  ((isXr_iff _ _).1 (isXr_xrImg t hv hs)).2

theorem xrValid_xrImg (t : Triple) (hv : t.v < 2 ^ 224) (hs : t.sc < 256) : xrValid (xrImg t) = true :=
  ((isXr_iff _ _).1 (isXr_xrImg t hv hs)).1

theorem not_isXr_iff (p : Image) : (¬∃ t, IsXr p t) ↔ xrValid p = false := by
  rw [← Bool.not_eq_true]
  exact not_congr ⟨fun ⟨t, h⟩ => ((isXr_iff p t).1 h).1, fun h => ⟨xr p, (isXr_iff p _).2 ⟨h, rfl⟩⟩⟩

/-! ### DEC128 -/

/-- The valid DEC128 images and their triples are exactly what the layout of R52 and R53 says. -/
theorem isDec_iff (p : Image) (t : Triple) : IsDec p t ↔ decValid p = true ∧ dec p = t := by
  obtain ⟨v, sc, sg⟩ := t
  have hp := p.isLt
  simp only [IsDec, decValid, Bool.and_eq_true, decide_eq_true_eq, flagReservedZero_iff, dec, Triple.mk.injEq,
    toNat_field, flagScale_eq, toNat_word, maxScale]
  have hs : flagSign (word p 3) = sg ↔ p.toNat / 2 ^ 127 % 2 = sg.toNat := by
    rw [← bool_toNat_inj, flagSign_toNat, toNat_word]
    omega
  rw [hs]
  have hb : sg.toNat ≤ 1 := sg.toNat_le
  omega

theorem isDecResult_decImg (t : Triple) (hv : t.v < 2 ^ 96) (hs : t.sc ≤ 28) : IsDecResult (decImg t) t := by
  have hb : t.sg.toNat ≤ 1 := t.sg.toNat_le
  have e : (decImg t).toNat = t.v + t.sc * 2 ^ 112 + t.sg.toNat * 2 ^ 127 := by
    rw [decImg, toNat_append_add, toNat_append_add, toNat_flagsWord _ _ (by omega), BitVec.toNat_ofNat,
      BitVec.toNat_ofNat]
    omega
  refine ⟨⟨hv, hs, ?_⟩, ?_⟩ <;> rw [e] <;> omega

theorem dec_decImg (t : Triple) (hv : t.v < 2 ^ 96) (hs : t.sc ≤ 28) : dec (decImg t) = t :=
  ((isDec_iff _ _).1 (isDecResult_decImg t hv hs).1).2

theorem decValid_decImg (t : Triple) (hv : t.v < 2 ^ 96) (hs : t.sc ≤ 28) : decValid (decImg t) = true :=
  ((isDec_iff _ _).1 (isDecResult_decImg t hv hs).1).1

theorem not_isDec_iff (p : Image) : (¬∃ t, IsDec p t) ↔ decValid p = false := by
  rw [← Bool.not_eq_true]
  exact not_congr ⟨fun ⟨t, h⟩ => ((isDec_iff p t).1 h).1, fun h => ⟨dec p, (isDec_iff p _).2 ⟨h, rfl⟩⟩⟩

/-- Two result images of the same Decimal are equal. -/
theorem isDecResult_inj {p q : Image} {t : Triple} (hp : IsDecResult p t) (hq : IsDecResult q t) : p = q := by
  obtain ⟨⟨-, -, h1⟩, h2⟩ := hp
  obtain ⟨⟨-, -, h3⟩, h4⟩ := hq
  exact BitVec.eq_of_toNat_eq (by omega)

theorem isInfinity_infinityImg (sg : Bool) : IsInfinity (infinityImg sg) sg := by
  cases sg <;> decide +kernel

/-! ### Words and truth values -/

theorem toNat_wordImg (w : Word) : (wordImg w).toNat = w.toNat := by
  rw [wordImg, toNat_append_add]; simp

theorem toNat_boolImg (b : Bool) : (boolImg b).toNat = b.toNat := by
  rw [boolImg, toNat_append_add, toNat_ofBool]; simp

theorem toNat_floatWord (sg : Bool) (e f : Nat) (he : e < 256) (hf : f < 2 ^ 23) :
    (floatWord sg e f).toNat = sg.toNat * 2 ^ 31 + e * 2 ^ 23 + f := by
  rw [floatWord, toNat_append_add, toNat_append_add, toNat_ofBool, BitVec.toNat_ofNat, BitVec.toNat_ofNat]
  omega

/-! ### The status word -/

theorem statusWord_is (c : StatusCode) (ovf x96 : Bool) : StatusIs (statusWord c ovf x96) c.bits.toNat ovf x96 := by
  cases c <;> cases ovf <;> cases x96 <;> decide

end Sys2Proof.Machine
end

