-- ==== Sys2Proof/Laws/State.lean ====
section
/-! SUPPORT. One lemma per field per named update of the state, each true by unfolding the update. -/

namespace Sys2Proof.Machine

/-! ### advanceHost -/

@[simp] theorem State.advanceHost_cmd (s : State) : s.advanceHost.cmd = s.cmd := rfl
@[simp] theorem State.advanceHost_opa (s : State) : s.advanceHost.opa = s.opa := rfl
@[simp] theorem State.advanceHost_opb (s : State) : s.advanceHost.opb = s.opb := rfl
@[simp] theorem State.advanceHost_res (s : State) : s.advanceHost.res = s.res := rfl
@[simp] theorem State.advanceHost_res2 (s : State) : s.advanceHost.res2 = s.res2 := rfl
@[simp] theorem State.advanceHost_status (s : State) : s.advanceHost.status = s.status := rfl
@[simp] theorem State.advanceHost_busy (s : State) : s.advanceHost.busy = s.busy := rfl
@[simp] theorem State.advanceHost_done (s : State) : s.advanceHost.done = s.done := rfl
@[simp] theorem State.advanceHost_scratch (s : State) : s.advanceHost.scratch = s.scratch := rfl
@[simp] theorem State.advanceHost_progress (s : State) : s.advanceHost.progress = s.progress := rfl
@[simp] theorem State.advanceHost_draw (s : State) : s.advanceHost.draw = s.draw := rfl
@[simp] theorem State.advanceHost_host (s : State) : s.advanceHost.host = s.host.tail := rfl

/-! ### scramble -/

@[simp] theorem State.scramble_cmd (s : State) : s.scramble.cmd = s.cmd := rfl
@[simp] theorem State.scramble_opa (s : State) : s.scramble.opa = s.opa := rfl
@[simp] theorem State.scramble_opb (s : State) : s.scramble.opb = s.opb := rfl
@[simp] theorem State.scramble_res (s : State) : s.scramble.res = Config.freeRes s.draw := rfl
@[simp] theorem State.scramble_res2 (s : State) : s.scramble.res2 = Config.freeRes2 s.draw := rfl
@[simp] theorem State.scramble_status (s : State) : s.scramble.status = Config.freeStatus s.draw := rfl
@[simp] theorem State.scramble_busy (s : State) : s.scramble.busy = s.busy := rfl
@[simp] theorem State.scramble_done (s : State) : s.scramble.done = s.done := rfl
@[simp] theorem State.scramble_scratch (s : State) : s.scramble.scratch = Scratch.free s.draw := rfl
@[simp] theorem State.scramble_progress (s : State) : s.scramble.progress = s.progress := rfl
@[simp] theorem State.scramble_draw (s : State) : s.scramble.draw = s.draw + 1 := rfl
@[simp] theorem State.scramble_host (s : State) : s.scramble.host = s.host := rfl

/-! ### accept -/

@[simp] theorem State.accept_cmd (s : State) (d : HostDrive) : (s.accept d).cmd = d.cmd := rfl
@[simp] theorem State.accept_opa (s : State) (d : HostDrive) : (s.accept d).opa = d.opa := rfl
@[simp] theorem State.accept_opb (s : State) (d : HostDrive) : (s.accept d).opb = d.opb := rfl
@[simp] theorem State.accept_res (s : State) (d : HostDrive) : (s.accept d).res = Config.freeRes s.draw := rfl
@[simp] theorem State.accept_res2 (s : State) (d : HostDrive) : (s.accept d).res2 = Config.freeRes2 s.draw := rfl
@[simp] theorem State.accept_status (s : State) (d : HostDrive) : (s.accept d).status = Config.freeStatus s.draw := rfl
@[simp] theorem State.accept_busy (s : State) (d : HostDrive) : (s.accept d).busy = true := rfl
@[simp] theorem State.accept_done (s : State) (d : HostDrive) : (s.accept d).done = false := rfl
@[simp] theorem State.accept_scratch (s : State) (d : HostDrive) : (s.accept d).scratch = Scratch.free s.draw := rfl
@[simp] theorem State.accept_progress (s : State) (d : HostDrive) : (s.accept d).progress = Config.latencyLessOne d.cmd d.opa d.opb := rfl
@[simp] theorem State.accept_draw (s : State) (d : HostDrive) : (s.accept d).draw = s.draw + 1 := rfl
@[simp] theorem State.accept_host (s : State) (d : HostDrive) : (s.accept d).host = s.host := rfl

/-! ### wait -/

@[simp] theorem State.wait_cmd (s : State) : s.wait.cmd = s.cmd := rfl
@[simp] theorem State.wait_opa (s : State) : s.wait.opa = s.opa := rfl
@[simp] theorem State.wait_opb (s : State) : s.wait.opb = s.opb := rfl
@[simp] theorem State.wait_res (s : State) : s.wait.res = Config.freeRes s.draw := rfl
@[simp] theorem State.wait_res2 (s : State) : s.wait.res2 = Config.freeRes2 s.draw := rfl
@[simp] theorem State.wait_status (s : State) : s.wait.status = Config.freeStatus s.draw := rfl
@[simp] theorem State.wait_busy (s : State) : s.wait.busy = s.busy := rfl
@[simp] theorem State.wait_done (s : State) : s.wait.done = s.done := rfl
@[simp] theorem State.wait_scratch (s : State) : s.wait.scratch = Scratch.free s.draw := rfl
@[simp] theorem State.wait_progress (s : State) : s.wait.progress = s.progress - 1 := rfl
@[simp] theorem State.wait_draw (s : State) : s.wait.draw = s.draw + 1 := rfl
@[simp] theorem State.wait_host (s : State) : s.wait.host = s.host := rfl

/-! ### complete -/

@[simp] theorem State.complete_cmd (s : State) (r : Result) : (s.complete r).cmd = s.cmd := rfl
@[simp] theorem State.complete_opa (s : State) (r : Result) : (s.complete r).opa = s.opa := rfl
@[simp] theorem State.complete_opb (s : State) (r : Result) : (s.complete r).opb = s.opb := rfl
@[simp] theorem State.complete_res (s : State) (r : Result) : (s.complete r).res = r.resAt s.draw := rfl
@[simp] theorem State.complete_res2 (s : State) (r : Result) : (s.complete r).res2 = r.res2At s.draw := rfl
@[simp] theorem State.complete_status (s : State) (r : Result) : (s.complete r).status = r.statusWord := rfl
@[simp] theorem State.complete_busy (s : State) (r : Result) : (s.complete r).busy = false := rfl
@[simp] theorem State.complete_done (s : State) (r : Result) : (s.complete r).done = true := rfl
@[simp] theorem State.complete_scratch (s : State) (r : Result) : (s.complete r).scratch = Scratch.free s.draw := rfl
@[simp] theorem State.complete_progress (s : State) (r : Result) : (s.complete r).progress = s.progress := rfl
@[simp] theorem State.complete_draw (s : State) (r : Result) : (s.complete r).draw = s.draw + 1 := rfl
@[simp] theorem State.complete_host (s : State) (r : Result) : (s.complete r).host = s.host := rfl

/-! ### resetPulse -/

@[simp] theorem State.resetPulse_cmd (s : State) : s.resetPulse.cmd = Config.freeCmd s.draw := rfl
@[simp] theorem State.resetPulse_opa (s : State) : s.resetPulse.opa = Config.freeOpa s.draw := rfl
@[simp] theorem State.resetPulse_opb (s : State) : s.resetPulse.opb = Config.freeOpb s.draw := rfl
@[simp] theorem State.resetPulse_res (s : State) : s.resetPulse.res = Config.freeRes s.draw := rfl
@[simp] theorem State.resetPulse_res2 (s : State) : s.resetPulse.res2 = Config.freeRes2 s.draw := rfl
@[simp] theorem State.resetPulse_status (s : State) : s.resetPulse.status = Config.freeStatus s.draw := rfl
@[simp] theorem State.resetPulse_busy (s : State) : s.resetPulse.busy = false := rfl
@[simp] theorem State.resetPulse_done (s : State) : s.resetPulse.done = false := rfl
@[simp] theorem State.resetPulse_scratch (s : State) : s.resetPulse.scratch = Scratch.free s.draw := rfl
@[simp] theorem State.resetPulse_progress (s : State) : s.resetPulse.progress = 0 := rfl
@[simp] theorem State.resetPulse_draw (s : State) : s.resetPulse.draw = s.draw + 1 := rfl
@[simp] theorem State.resetPulse_host (s : State) : s.resetPulse.host = s.host := rfl

/-! ### loadCommand -/

@[simp] theorem State.loadCommand_cmd (s : State) (c : Word) : (s.loadCommand c).cmd = c := rfl
@[simp] theorem State.loadCommand_opa (s : State) (c : Word) : (s.loadCommand c).opa = s.opa := rfl
@[simp] theorem State.loadCommand_opb (s : State) (c : Word) : (s.loadCommand c).opb = s.opb := rfl
@[simp] theorem State.loadCommand_res (s : State) (c : Word) : (s.loadCommand c).res = s.res := rfl
@[simp] theorem State.loadCommand_res2 (s : State) (c : Word) : (s.loadCommand c).res2 = s.res2 := rfl
@[simp] theorem State.loadCommand_status (s : State) (c : Word) : (s.loadCommand c).status = s.status := rfl
@[simp] theorem State.loadCommand_busy (s : State) (c : Word) : (s.loadCommand c).busy = true := rfl
@[simp] theorem State.loadCommand_done (s : State) (c : Word) : (s.loadCommand c).done = false := rfl
@[simp] theorem State.loadCommand_scratch (s : State) (c : Word) : (s.loadCommand c).scratch = s.scratch := rfl
@[simp] theorem State.loadCommand_progress (s : State) (c : Word) : (s.loadCommand c).progress = 0 := rfl
@[simp] theorem State.loadCommand_draw (s : State) (c : Word) : (s.loadCommand c).draw = s.draw := rfl

end Sys2Proof.Machine
end

