-- ==== Sys2Proof/Laws/Ops.lean ====
section
/-! SUPPORT. What the shared operations can do, said once: the step's inversion, a completion, the shape of every
result, and that every meaning is one completion of a result of the latched operands alone. -/

namespace Sys2Proof.Machine

/-! ### The step -/

/-- Everything a step that answers a next state can have been: a reset pulse, the completing step of the latched
command, a waiting step, an accepted start, or an idle step. -/
theorem step_cases {s t : State} (h : step s = .next t) :
    s.readsTooEarly = false ∧
    ((s.drive.rst = true ∧ t = s.advanceHost.resetPulse) ∨
      (s.drive.rst = false ∧ s.busy = true ∧ s.progress = 0 ∧ runLatched s.advanceHost = .next t) ∨
      (s.drive.rst = false ∧ s.busy = true ∧ s.progress ≠ 0 ∧ t = s.advanceHost.wait) ∨
      (s.drive.rst = false ∧ s.busy = false ∧ s.drive.start = true ∧ t = s.advanceHost.accept s.drive) ∨
      (s.drive.rst = false ∧ s.busy = false ∧ s.drive.start = false ∧ t = s.advanceHost)) := by
  unfold step handshakeStep driven at h
  split at h
  · cases h
  · rename_i hr
    refine ⟨by simpa using hr, ?_⟩
    split at h
    · rename_i h1; cases h; exact .inl ⟨h1, rfl⟩
    · rename_i h1
      have h1 : s.drive.rst = false := by simpa using h1
      split at h
      · rename_i h2
        split at h
        · rename_i h3; exact .inr (.inl ⟨h1, h2, h3, h⟩)
        · rename_i h3; cases h; exact .inr (.inr (.inl ⟨h1, h2, h3, rfl⟩))
      · rename_i h2
        have h2 : s.busy = false := by simpa using h2
        split at h
        · rename_i h3; cases h; exact .inr (.inr (.inr (.inl ⟨h1, h2, h3, rfl⟩)))
        · rename_i h3; cases h; exact .inr (.inr (.inr (.inr ⟨h1, h2, by simpa using h3, rfl⟩)))

/-! ### Completions -/

theorem completed_complete (s : State) (r : Result) : Completed s (s.complete r) :=
  ⟨rfl, rfl, rfl, rfl, rfl, rfl, rfl⟩

/-- A meaning that is one completion completes with that result's status and images. -/
theorem completes_of_exec {i : Instr} {s : State} {r : Result} (h : exec i s = .next (s.complete r)) :
    Completes i s r.code.bits.toNat r.ovf r.x96 fun p q => p = r.resAt s.draw ∧ q = r.res2At s.draw :=
  ⟨_, h, ⟨rfl, rfl⟩, statusWord_is _ _ _, completed_complete s r⟩

/-- A completion with weaker demands on the images. -/
theorem Completes.mono {i : Instr} {s : State} {code : Nat} {ovf x96 : Bool} {P Q : Image → Image → Prop}
    (h : Completes i s code ovf x96 P) (hPQ : ∀ p q, P p q → Q p q) : Completes i s code ovf x96 Q := by
  obtain ⟨t, h1, h2, h3, h4⟩ := h
  exact ⟨t, h1, hPQ _ _ h2, h3, h4⟩

theorem completes_plain {i : Instr} {s : State} {code : StatusCode} {p : Image} {P : Image → Image → Prop}
    (h : exec i s = .next (s.complete (Result.plain code p))) (hP : P p 0) :
    Completes i s code.bits.toNat false false P :=
  (completes_of_exec h).mono fun _ _ ⟨h1, h2⟩ => h1 ▸ h2 ▸ hP

theorem completes_extended {i : Instr} {s : State} {code : StatusCode} {ovf : Bool} {p q : Image}
    {P : Image → Image → Prop} (h : exec i s = .next (s.complete (Result.extended code ovf p q))) (hP : P p q) :
    Completes i s code.bits.toNat ovf (decide (max96 < (xr p).v)) P :=
  (completes_of_exec h).mono fun _ _ ⟨h1, h2⟩ => h1 ▸ h2 ▸ hP

theorem completes_error {i : Instr} {s : State} {code : StatusCode}
    (h : exec i s = .next (s.complete (Result.error code))) :
    Completes i s code.bits.toNat false false fun _ _ => True :=
  (completes_of_exec h).mono fun _ _ _ => trivial

/-! ### The operand checks -/

theorem withDec_valid {a : Image} {x : Triple} (h : IsDec a x) (k : Triple → Result) : withDec a k = k x := by
  obtain ⟨h1, rfl⟩ := (isDec_iff a x).1 h
  rw [withDec, if_pos h1]

theorem withDec_invalid {a : Image} (h : ¬∃ x, IsDec a x) (k : Triple → Result) :
    withDec a k = Result.error .invalidOperand := by
  rw [withDec, (not_isDec_iff a).1 h]; rfl

theorem withDec2_valid {a b : Image} {x y : Triple} (ha : IsDec a x) (hb : IsDec b y)
    (k : Triple → Triple → Result) : withDec2 a b k = k x y := by
  obtain ⟨h1, rfl⟩ := (isDec_iff a x).1 ha
  obtain ⟨h2, rfl⟩ := (isDec_iff b y).1 hb
  rw [withDec2, h1, h2]; rfl

theorem withDec2_invalid {a b : Image} (h : (¬∃ x, IsDec a x) ∨ ¬∃ y, IsDec b y)
    (k : Triple → Triple → Result) : withDec2 a b k = Result.error .invalidOperand := by
  rw [not_isDec_iff, not_isDec_iff] at h
  rcases h with h | h <;> simp [withDec2, h]

theorem withXr_valid {a : Image} {x : Triple} (h : IsXr a x) (k : Triple → Result) : withXr a k = k x := by
  obtain ⟨h1, rfl⟩ := (isXr_iff a x).1 h
  rw [withXr, if_pos h1]

theorem withXr_invalid {a : Image} (h : ¬∃ x, IsXr a x) (k : Triple → Result) :
    withXr a k = Result.error .invalidOperand := by
  rw [withXr, (not_isXr_iff a).1 h]; rfl

theorem withXr2_valid {a b : Image} {x y : Triple} (ha : IsXr a x) (hb : IsXr b y)
    (k : Triple → Triple → Result) : withXr2 a b k = k x y := by
  obtain ⟨h1, rfl⟩ := (isXr_iff a x).1 ha
  obtain ⟨h2, rfl⟩ := (isXr_iff b y).1 hb
  rw [withXr2, h1, h2]; rfl

theorem withXr2_invalid {a b : Image} (h : (¬∃ x, IsXr a x) ∨ ¬∃ y, IsXr b y)
    (k : Triple → Triple → Result) : withXr2 a b k = Result.error .invalidOperand := by
  rw [not_isXr_iff, not_isXr_iff] at h
  rcases h with h | h <;> simp [withXr2, h]

/-! ### Completions of a known result -/

/-- A meaning whose result is that of an invalid operand rejects it. -/
theorem rejects_of {i : Instr} {s : State} {r : Result} (h : exec i s = .next (s.complete r))
    (hr : r = Result.error .invalidOperand) : Rejects i s := by
  subst hr; exact completes_error h

/-- A meaning whose result is an error code completes with it. -/
theorem completes_of_error {i : Instr} {s : State} {r : Result} {code : StatusCode}
    (h : exec i s = .next (s.complete r)) (hr : r = Result.error code) :
    Completes i s code.bits.toNat false false fun _ _ => True := by
  subst hr; exact completes_error h

/-- A meaning whose result is one plain image with SUCCESS. -/
theorem completes_of_plain {i : Instr} {s : State} {r : Result} {p : Image} {P : Image → Image → Prop}
    (h : exec i s = .next (s.complete r)) (hr : r = Result.plain .success p) (hP : P p 0) :
    Completes i s 0 false false P := by
  subst hr; exact completes_plain h hP

/-- A meaning whose result is the downcast of a triple. -/
theorem completes_of_deliver {i : Instr} {s : State} {r : Result} {t : Triple}
    (h : exec i s = .next (s.complete r)) (hr : r = deliver t) :
    Completes i s (downcast t).code.bits.toNat false false fun p q => p = (downcast t).img ∧ q = 0 := by
  subst hr; exact completes_plain h ⟨rfl, rfl⟩

/-- A meaning whose result is an XREG256 image with SUCCESS, `X96` read off the triple it stands for. -/
theorem completes_of_extended {i : Instr} {s : State} {r : Result} {ovf x96 : Bool} {p q : Image}
    {P : Image → Image → Prop} (h : exec i s = .next (s.complete r)) (hr : r = Result.extended .success ovf p q)
    (t : Triple) (ht : IsXr p t) (hx : decide (max96 < t.v) = x96) (hP : P p q) :
    Completes i s 0 ovf x96 P := by
  subst hr hx
  have := completes_extended h hP
  rwa [((isXr_iff _ _).1 ht).2] at this

/-- With a legal immediate the result is the one computed. -/
theorem legal_eq {p : Prop} [Decidable p] (h : p) (r : Result) : Result.legal (decide p) r = r := by
  simp [Result.legal, h]

/-- With a legal immediate an invalid Decimal operand is still the error. -/
theorem legal_withDec_invalid {p : Prop} [Decidable p] (h : p) {a : Image} (ha : ¬∃ x, IsDec a x)
    (k : Triple → Result) : Result.legal (decide p) (withDec a k) = Result.error .invalidOperand := by
  rw [legal_eq h, withDec_invalid ha]

/-- XINC steps that stay within the register lead to the value times a power of ten at the raised scale. -/
theorem xincSteps_spec (s : State) (n : Nat) {p : Image} {x : Triple} (hp : IsXr p x) (hv : x.v * 10 ^ n < 2 ^ 224)
    (hs : x.sc + n < 256) : ∃ q, XincSteps s n p q ∧ IsXr q ⟨x.v * 10 ^ n, x.sc + n, x.sg⟩ := by
  induction n generalizing p x with
  | zero => exact ⟨p, rfl, by simpa using hp⟩
  | succ k ih =>
    have hk : 10 * x.v * 10 ^ k = x.v * 10 ^ (k + 1) := by ring
    have h10 : 10 * x.v < 2 ^ 224 := lt_of_le_of_lt (Nat.le_mul_of_pos_right _ (by positivity)) (hk ▸ hv)
    have hr := isXr_xrImg ⟨10 * x.v % xSize, (x.sc + 1) % 256, x.sg⟩ (Nat.mod_lt _ (by decide))
      (Nat.mod_lt _ (by decide))
    have e : (⟨10 * x.v % xSize, (x.sc + 1) % 256, x.sg⟩ : Triple) = ⟨10 * x.v, x.sc + 1, x.sg⟩ := by
      rw [xSize, Nat.mod_eq_of_lt h10, Nat.mod_eq_of_lt (by omega)]
    obtain ⟨t, h1, h2, -, -⟩ := completes_of_extended (i := .xinc) (s := { s with opa := p }) rfl
      (withXr_valid hp _) _ hr rfl (P := fun r _ => IsXr r ⟨10 * x.v, x.sc + 1, x.sg⟩) (e ▸ hr)
    obtain ⟨q, h3, h4⟩ := ih h2 (by simpa [hk] using hv) (by simp only; omega)
    exact ⟨q, ⟨t, h1, h3⟩, by simpa [hk, Nat.add_assoc, Nat.add_comm 1 k] using h4⟩

/-! ### Every meaning is one completion -/

/-- A result as the rules allow it: images with the codes 0, 1 and 2, none and no flag with the others (R185). -/
def Result.Sound (r : Result) : Prop :=
  (r.code.bits.toNat < 3 ∧ ∃ o, r.out = some o) ∨ (3 ≤ r.code.bits.toNat ∧ r = Result.error r.code)

theorem Result.sound_error (c : StatusCode) (h : 3 ≤ c.bits.toNat) : (Result.error c).Sound := .inr ⟨h, rfl⟩

theorem Result.sound_plain (c : StatusCode) (h : c.bits.toNat < 3) (p : Image) : (Result.plain c p).Sound :=
  .inl ⟨h, _, rfl⟩

theorem Result.sound_extended (c : StatusCode) (h : c.bits.toNat < 3) (o : Bool) (p q : Image) :
    (Result.extended c o p q).Sound := .inl ⟨h, _, rfl⟩

theorem Result.sound_legal {b : Bool} {r : Result} (h : r.Sound) : (Result.legal b r).Sound := by
  cases b
  · exact Result.sound_error _ (by decide)
  · exact h

theorem withDec_sound {a : Image} {k : Triple → Result} (h : ∀ x, (k x).Sound) : (withDec a k).Sound := by
  unfold withDec; split
  · exact h _
  · exact Result.sound_error _ (by decide)

theorem withDec2_sound {a b : Image} {k : Triple → Triple → Result} (h : ∀ x y, (k x y).Sound) :
    (withDec2 a b k).Sound := by
  unfold withDec2; split
  · exact h _ _
  · exact Result.sound_error _ (by decide)

theorem withXr_sound {a : Image} {k : Triple → Result} (h : ∀ x, (k x).Sound) : (withXr a k).Sound := by
  unfold withXr; split
  · exact h _
  · exact Result.sound_error _ (by decide)

theorem withXr2_sound {a b : Image} {k : Triple → Triple → Result} (h : ∀ x y, (k x y).Sound) :
    (withXr2 a b k).Sound := by
  unfold withXr2; split
  · exact h _ _
  · exact Result.sound_error _ (by decide)

theorem infinityCode_lt (sg : Bool) : (infinityCode sg).bits.toNat < 3 := by cases sg <;> decide

theorem downcastFrom_code_lt (t : Triple) (fuel k : Nat) : (downcastFrom t fuel k).code.bits.toNat < 3 := by
  induction fuel generalizing k with
  | zero => exact infinityCode_lt t.sg
  | succ n ih =>
    rw [downcastFrom]; split
    · exact (by decide : StatusCode.success.bits.toNat < 3)
    · exact ih _

theorem deliver_sound (t : Triple) : (deliver t).Sound := Result.sound_plain _ (downcastFrom_code_lt t _ _) _

theorem fromfResult_sound (a : Image) : (fromfResult a).Sound := by
  unfold fromfResult
  simp only
  split
  · exact Result.sound_error _ (by decide)
  · exact Result.sound_error _ (by decide)
  · exact Result.sound_plain _ (by decide) _
  all_goals
    split
    · split
      · exact Result.sound_error _ (by decide)
      · exact Result.sound_plain _ (by decide) _
    · exact Result.sound_plain _ (by decide) _

/-- Every meaning is one completion of a sound result that is a function of the latched operands alone. -/
theorem exec_eq_complete (i : Instr) : ∃ f : Image → Image → Result, (∀ a b, (f a b).Sound) ∧
    ∀ s, exec i s = .next (s.complete (f s.opa s.opb)) := by
  have e0 : (StatusCode.success).bits.toNat < 3 := by decide
  have ez : (Result.error .zeroDivision).Sound := Result.sound_error _ (by decide)
  cases i with
  | btst k => exact ⟨fun a _ => btstResult k a, fun a _ => Result.sound_legal (Result.sound_plain _ e0 _), fun _ => rfl⟩
  | bset k => exact ⟨fun a _ => bsetResult k a, fun a _ => Result.sound_legal (Result.sound_plain _ e0 _), fun _ => rfl⟩
  | bclr k => exact ⟨fun a _ => bclrResult k a, fun a _ => Result.sound_legal (Result.sound_plain _ e0 _), fun _ => rfl⟩
  | bflp k => exact ⟨fun a _ => bflpResult k a, fun a _ => Result.sound_legal (Result.sound_plain _ e0 _), fun _ => rfl⟩
  | xadd => exact ⟨xaddResult, fun a b => withXr2_sound fun x y => Result.sound_extended _ e0 _ _ _, fun _ => rfl⟩
  | xsub => exact ⟨xsubResult, fun a b => withXr2_sound fun x y => Result.sound_extended _ e0 _ _ _, fun _ => rfl⟩
  | xshl n => exact ⟨fun a _ => xshlResult n a, fun a b => withXr_sound fun x => Result.sound_extended _ e0 _ _ _, fun _ => rfl⟩
  | xshr n => exact ⟨fun a _ => xshrResult n a, fun a b => withXr_sound fun x => Result.sound_extended _ e0 _ _ _, fun _ => rfl⟩
  | xgt => exact ⟨xgtResult, fun a b => withXr2_sound fun x y => Result.sound_plain _ e0 _, fun _ => rfl⟩
  | xeq => exact ⟨xeqResult, fun a b => withXr2_sound fun x y => Result.sound_plain _ e0 _, fun _ => rfl⟩
  | xzero => exact ⟨fun a _ => xzeroResult a, fun a b => withXr_sound fun x => Result.sound_plain _ e0 _, fun _ => rfl⟩
  | xisneg => exact ⟨fun a _ => xisnegResult a, fun a b => withXr_sound fun x => Result.sound_plain _ e0 _, fun _ => rfl⟩
  | xsgnclr => exact ⟨fun a _ => xsgnclrResult a, fun a b => withXr_sound fun x => Result.sound_extended _ e0 _ _ _, fun _ => rfl⟩
  | xmul => exact ⟨xmulResult, fun a b => withXr2_sound fun x y => Result.sound_extended _ e0 _ _ _, fun _ => rfl⟩
  | xmul10 => exact ⟨fun a _ => xmul10Result a, fun a b => withXr_sound fun x => Result.sound_extended _ e0 _ _ _, fun _ => rfl⟩
  | xdiv =>
    refine ⟨xdivResult, fun a b => withXr2_sound fun x y => ?_, fun _ => rfl⟩
    split
    · exact ez
    · exact Result.sound_extended _ e0 _ _ _
  | xfdiv =>
    refine ⟨xfdivResult, fun a b => withXr2_sound fun x y => ?_, fun _ => rfl⟩
    split
    · exact ez
    · exact Result.sound_extended _ e0 _ _ _
  | xwiden => exact ⟨fun a _ => xwidenResult a, fun a b => withDec_sound fun x => Result.sound_extended _ e0 _ _ _, fun _ => rfl⟩
  | xdown => exact ⟨fun a _ => xdownResult a, fun a b => withXr_sound fun x => deliver_sound x, fun _ => rfl⟩
  | xnorm => exact ⟨xnormResult, fun a b => withXr2_sound fun x y => Result.sound_extended _ e0 _ _ _, fun _ => rfl⟩
  | xinc => exact ⟨fun a _ => xincResult a, fun a b => withXr_sound fun x => Result.sound_extended _ e0 _ _ _, fun _ => rfl⟩
  | xdec =>
    refine ⟨fun a _ => xdecResult a, fun a b => withXr_sound fun x => ?_, fun _ => rfl⟩
    split <;> exact Result.sound_extended _ e0 _ _ _
  | xcls =>
    refine ⟨fun a _ => xclsResult a, fun a b => withXr_sound fun x => Result.sound_extended _ ?_ _ _ _, fun _ => rfl⟩
    split
    · exact e0
    · exact infinityCode_lt x.sg
  | dzero => exact ⟨fun _ _ => dzeroResult, fun a b => Result.sound_plain _ e0 _, fun _ => rfl⟩
  | dgsign => exact ⟨fun a _ => dgsignResult a, fun a b => withDec_sound fun x => Result.sound_plain _ e0 _, fun _ => rfl⟩
  | dssign k => exact ⟨fun a _ => dssignResult k a, fun a b => Result.sound_legal (withDec_sound fun x => Result.sound_plain _ e0 _), fun _ => rfl⟩
  | dgscale => exact ⟨fun a _ => dgscaleResult a, fun a b => withDec_sound fun x => Result.sound_plain _ e0 _, fun _ => rfl⟩
  | dsscale k => exact ⟨fun a _ => dsscaleResult k a, fun a b => Result.sound_legal (withDec_sound fun x => Result.sound_plain _ e0 _), fun _ => rfl⟩
  | dgbit k => exact ⟨fun a _ => dgbitResult k a, fun a b => Result.sound_legal (withDec_sound fun x => Result.sound_plain _ e0 _), fun _ => rfl⟩
  | dsbit c k => exact ⟨fun a _ => dsbitResult c k a, fun a b => Result.sound_legal (withDec_sound fun x => Result.sound_plain _ e0 _), fun _ => rfl⟩
  | add => exact ⟨addResult, fun a b => withDec2_sound fun x y => deliver_sound _, fun _ => rfl⟩
  | sub => exact ⟨subResult, fun a b => withDec2_sound fun x y => deliver_sound _, fun _ => rfl⟩
  | mul => exact ⟨mulResult, fun a b => withDec2_sound fun x y => deliver_sound _, fun _ => rfl⟩
  | div =>
    refine ⟨divResult, fun a b => withDec2_sound fun x y => ?_, fun _ => rfl⟩
    split
    · exact ez
    · exact deliver_sound _
  | mod =>
    refine ⟨modResult, fun a b => withDec2_sound fun x y => ?_, fun _ => rfl⟩
    split
    · exact ez
    · exact Result.sound_plain _ e0 _
  | clt => exact ⟨cltResult, fun a b => withDec2_sound fun x y => Result.sound_plain _ e0 _, fun _ => rfl⟩
  | cle => exact ⟨cleResult, fun a b => withDec2_sound fun x y => Result.sound_plain _ e0 _, fun _ => rfl⟩
  | cgt => exact ⟨cgtResult, fun a b => withDec2_sound fun x y => Result.sound_plain _ e0 _, fun _ => rfl⟩
  | cge => exact ⟨cgeResult, fun a b => withDec2_sound fun x y => Result.sound_plain _ e0 _, fun _ => rfl⟩
  | ceq => exact ⟨ceqResult, fun a b => withDec2_sound fun x y => Result.sound_plain _ e0 _, fun _ => rfl⟩
  | cne => exact ⟨cneResult, fun a b => withDec2_sound fun x y => Result.sound_plain _ e0 _, fun _ => rfl⟩
  | floor => exact ⟨fun a _ => floorResult a, fun a b => withDec_sound fun x => Result.sound_plain _ e0 _, fun _ => rfl⟩
  | round ts =>
    refine ⟨fun a _ => roundResult ts a, fun a b => Result.sound_legal (withDec_sound fun x => ?_), fun _ => rfl⟩
    split <;> exact Result.sound_plain _ e0 _
  | trunc => exact ⟨fun a _ => truncResult a, fun a b => withDec_sound fun x => Result.sound_plain _ e0 _, fun _ => rfl⟩
  | neg => exact ⟨fun a _ => negResult a, fun a b => withDec_sound fun x => Result.sound_plain _ e0 _, fun _ => rfl⟩
  | fromi => exact ⟨fun a _ => fromiResult a, fun a b => Result.sound_plain _ e0 _, fun _ => rfl⟩
  | fromf => exact ⟨fun a _ => fromfResult a, fun a b => fromfResult_sound a, fun _ => rfl⟩
  | toi =>
    refine ⟨fun a _ => toiResult a, fun a b => withDec_sound fun x => ?_, fun _ => rfl⟩
    simp only
    split
    · exact Result.sound_error _ (by decide)
    · exact Result.sound_plain _ e0 _
  | tof => exact ⟨fun a _ => tofResult a, fun a b => withDec_sound fun x => Result.sound_plain _ e0 _, fun _ => rfl⟩
  | fxtr => exact ⟨fun a _ => fxtrResult a, fun a b => Result.sound_plain _ e0 _, fun _ => rfl⟩
  | fbld =>
    refine ⟨fun a _ => fbldResult a, fun a b => ?_, fun _ => rfl⟩
    show (fbldResult a).Sound
    unfold fbldResult
    split
    · exact Result.sound_plain _ e0 _
    · exact Result.sound_error _ (by decide)

/-- The status word of a sound result is legal (R59, R60, R185). -/
theorem Result.Sound.statusLegal {r : Result} (h : r.Sound) : StatusLegal r.statusWord := by
  refine ⟨r.code.bits.toNat, r.ovf, r.x96, statusWord_is _ _ _, ?_, ?_, ?_⟩
  · cases r.code <;> decide
  · cases r.code <;> decide
  · intro h3
    rcases h with ⟨h, -⟩ | ⟨-, h⟩
    · omega
    · rw [h]; exact ⟨rfl, rfl⟩

/-- The completing step of any latched word is a completion of a sound result. -/
theorem runLatched_eq_complete (s : State) : ∃ r : Result, r.Sound ∧ runLatched s = .next (s.complete r) := by
  unfold runLatched
  split
  · obtain ⟨f, hf, e⟩ := exec_eq_complete ‹_›
    exact ⟨_, hf _ _, e s⟩
  · exact ⟨_, Result.sound_error _ (by decide), rfl⟩

end Sys2Proof.Machine
end

