-- ==== Sys2Proof/Laws/PerInstr.lean ====
section
/-! SUPPORT. Statements made per instruction, one lemma per constructor. -/

namespace Sys2Proof.Laws.OpcodeByte

/-- The 51 assigned opcodes of the map (spec rule R47). -/
def assigned : List (BitVec 8) :=
  [0x10, 0x11, 0x12, 0x13, 0x20, 0x21, 0x22, 0x23, 0x24, 0x25, 0x26, 0x27, 0x28,
    0x30, 0x31, 0x32, 0x33, 0x40, 0x41, 0x42, 0x43, 0x44, 0x45, 0x48, 0x49, 0x4A,
    0x4B, 0x4C, 0x4D, 0x4E, 0x50, 0x51, 0x52, 0x53, 0x54, 0x60, 0x61, 0x62, 0x63,
    0x64, 0x65, 0x70, 0x71, 0x72, 0x73, 0x80, 0x81, 0x82, 0x83, 0x84, 0x85]

/-- Whatever its immediate, an instruction is encoded with an assigned opcode in bits 7 to 0 and zeros in bits 31
to 16 (R41, R47). -/
def Statement (i : Instr) : Prop := reservedField (encode i) = 0 ∧ opcodeField (encode i) ∈ assigned

theorem of_commandWord {i : Instr} {op imm : BitVec 8} (h : encode i = commandWord op imm) (ho : op ∈ assigned) :
    Statement i := by
  obtain ⟨a, b, -⟩ := fields_commandWord op imm
  exact ⟨h ▸ a, by rw [h, b]; exact ho⟩

theorem btst (k : BitVec 8) : Statement (.btst k) := of_commandWord rfl (by decide)
theorem bset (k : BitVec 8) : Statement (.bset k) := of_commandWord rfl (by decide)
theorem bclr (k : BitVec 8) : Statement (.bclr k) := of_commandWord rfl (by decide)
theorem bflp (k : BitVec 8) : Statement (.bflp k) := of_commandWord rfl (by decide)
theorem xadd : Statement (.xadd) := of_commandWord rfl (by decide)
theorem xsub : Statement (.xsub) := of_commandWord rfl (by decide)
theorem xshl (k : BitVec 8) : Statement (.xshl k) := of_commandWord rfl (by decide)
theorem xshr (k : BitVec 8) : Statement (.xshr k) := of_commandWord rfl (by decide)
theorem xgt : Statement (.xgt) := of_commandWord rfl (by decide)
theorem xeq : Statement (.xeq) := of_commandWord rfl (by decide)
theorem xzero : Statement (.xzero) := of_commandWord rfl (by decide)
theorem xisneg : Statement (.xisneg) := of_commandWord rfl (by decide)
theorem xsgnclr : Statement (.xsgnclr) := of_commandWord rfl (by decide)
theorem xmul : Statement (.xmul) := of_commandWord rfl (by decide)
theorem xmul10 : Statement (.xmul10) := of_commandWord rfl (by decide)
theorem xdiv : Statement (.xdiv) := of_commandWord rfl (by decide)
theorem xfdiv : Statement (.xfdiv) := of_commandWord rfl (by decide)
theorem xwiden : Statement (.xwiden) := of_commandWord rfl (by decide)
theorem xdown : Statement (.xdown) := of_commandWord rfl (by decide)
theorem xnorm : Statement (.xnorm) := of_commandWord rfl (by decide)
theorem xinc : Statement (.xinc) := of_commandWord rfl (by decide)
theorem xdec : Statement (.xdec) := of_commandWord rfl (by decide)
theorem xcls : Statement (.xcls) := of_commandWord rfl (by decide)
theorem dzero : Statement (.dzero) := of_commandWord rfl (by decide)
theorem dgsign : Statement (.dgsign) := of_commandWord rfl (by decide)
theorem dssign (k : BitVec 8) : Statement (.dssign k) := of_commandWord rfl (by decide)
theorem dgscale : Statement (.dgscale) := of_commandWord rfl (by decide)
theorem dsscale (k : BitVec 8) : Statement (.dsscale k) := of_commandWord rfl (by decide)
theorem dgbit (k : BitVec 8) : Statement (.dgbit k) := of_commandWord rfl (by decide)
theorem dsbit (b : Bool) (k : BitVec 7) : Statement (.dsbit b k) := of_commandWord rfl (by decide)
theorem add : Statement (.add) := of_commandWord rfl (by decide)
theorem sub : Statement (.sub) := of_commandWord rfl (by decide)
theorem mul : Statement (.mul) := of_commandWord rfl (by decide)
theorem div : Statement (.div) := of_commandWord rfl (by decide)
theorem mod : Statement (.mod) := of_commandWord rfl (by decide)
theorem clt : Statement (.clt) := of_commandWord rfl (by decide)
theorem cle : Statement (.cle) := of_commandWord rfl (by decide)
theorem cgt : Statement (.cgt) := of_commandWord rfl (by decide)
theorem cge : Statement (.cge) := of_commandWord rfl (by decide)
theorem ceq : Statement (.ceq) := of_commandWord rfl (by decide)
theorem cne : Statement (.cne) := of_commandWord rfl (by decide)
theorem floor : Statement (.floor) := of_commandWord rfl (by decide)
theorem round (k : BitVec 8) : Statement (.round k) := of_commandWord rfl (by decide)
theorem trunc : Statement (.trunc) := of_commandWord rfl (by decide)
theorem neg : Statement (.neg) := of_commandWord rfl (by decide)
theorem fromi : Statement (.fromi) := of_commandWord rfl (by decide)
theorem fromf : Statement (.fromf) := of_commandWord rfl (by decide)
theorem toi : Statement (.toi) := of_commandWord rfl (by decide)
theorem tof : Statement (.tof) := of_commandWord rfl (by decide)
theorem fxtr : Statement (.fxtr) := of_commandWord rfl (by decide)
theorem fbld : Statement (.fbld) := of_commandWord rfl (by decide)

end Sys2Proof.Laws.OpcodeByte
end

