-- ==== Sys2Proof/Laws/Rounding.lean ====
section
/-! SUPPORT. What `roundHalfEven`, `rhe` and `downcast` are: the nearest natural with ties to even, and the fewest
digits removed (spec rules R102, R151). -/

namespace Sys2Proof.Machine

/-- The nearest natural with ties to even is unique. -/
theorem nearestEven_unique {v d a b : Nat} (hd : 0 < d) (ha : NearestEven v d a) (hb : NearestEven v d b) :
    a = b := by
  have key : ∀ a b : Nat, NearestEven v d a → NearestEven v d b → a < b → False := by
    intro a b ⟨ha, ha'⟩ ⟨hb, hb'⟩ hab
    obtain ⟨c, rfl⟩ : ∃ c, b = a + 1 + c := ⟨b - a - 1, by omega⟩
    have e : ((a + 1 + c : Nat) : ℤ) * d = (a : ℤ) * d + d + (c : ℤ) * d := by push_cast; ring
    rw [e] at hb hb'
    have hc : (0 : ℤ) ≤ (c : ℤ) * d := by positivity
    generalize (a : ℤ) * d = y at *
    rcases Nat.eq_zero_or_pos c with rfl | hpos
    · simp at *
      omega
    · have : (d : ℤ) ≤ (c : ℤ) * d := by nlinarith
      generalize (c : ℤ) * d = z at *
      omega
  rcases Nat.lt_trichotomy a b with h | h | h
  · exact (key a b ha hb h).elim
  · exact h
  · exact (key b a hb ha h).elim

theorem roundHalfEven_nearest (v : Nat) {d : Nat} (hd : 0 < d) : NearestEven v d (roundHalfEven v d) := by
  have hv : (v : ℤ) = (v / d : Nat) * (d : ℤ) + (v % d : Nat) := by
    have := Nat.div_add_mod v d
    rw [Nat.mul_comm] at this
    exact_mod_cast this.symm
  have hr := Nat.mod_lt v hd
  unfold roundHalfEven NearestEven
  generalize hq : v / d = q at *
  generalize hrr : v % d = r at *
  split
  · have e : (v : ℤ) - ((q + 1 : Nat) : ℤ) * d = r - d := by rw [hv]; push_cast; ring
    rw [e]
    omega
  · have e : (v : ℤ) - (q : ℤ) * d = r := by rw [hv]; ring
    rw [e]
    omega

/-- `rhe(v, k)` is the natural nearest to `v / 10^k`, ties to even, and no other natural is (R151). -/
theorem nearestEven_iff_rhe (v k m : Nat) : NearestEven v (10 ^ k) m ↔ m = rhe v k := by
  have h : NearestEven v (10 ^ k) (rhe v k) := by
    unfold rhe
    split
    · subst k; simp [NearestEven]
    · exact roundHalfEven_nearest v (by positivity)
  constructor
  · exact fun hm => nearestEven_unique (by positivity) hm h
  · rintro rfl; exact h

theorem rhe_zero (v : Nat) : rhe v 0 = v := rfl

theorem roundHalfEven_bounds (v d : Nat) : v / d ≤ roundHalfEven v d ∧ roundHalfEven v d ≤ v / d + 1 := by
  unfold roundHalfEven
  split <;> omega

/-- A value below `b + 1/2` rounds to at most `b`. -/
theorem roundHalfEven_le {v d b : Nat} (hd : 0 < d) (h : 2 * v < (2 * b + 1) * d) : roundHalfEven v d ≤ b := by
  have hv := Nat.div_add_mod v d
  have hr := Nat.mod_lt v hd
  unfold roundHalfEven
  generalize v / d = q at *
  generalize v % d = r at *
  rcases Nat.lt_trichotomy q b with hq | rfl | hq
  · split <;> omega
  · have e : (2 * q + 1) * d = 2 * (d * q) + d := by ring
    rw [if_neg (by omega)]
  · have : (b + 1) * d ≤ q * d := Nat.mul_le_mul_right d hq
    nlinarith

/-- A value above `b + 1/2` rounds to more than `b`. -/
theorem le_roundHalfEven {v d b : Nat} (hd : 0 < d) (h : (2 * b + 1) * d < 2 * v) : b < roundHalfEven v d := by
  by_contra hc
  have hb := (roundHalfEven_nearest v hd).1
  generalize roundHalfEven v d = m at *
  have hm : (m : ℤ) * d ≤ b * d := by
    have : (m : ℤ) ≤ b := by omega
    have : (0 : ℤ) ≤ d := by omega
    nlinarith
  have h' : (2 * (b : ℤ) + 1) * d < 2 * v := by exact_mod_cast h
  have e : (2 * (b : ℤ) + 1) * d = 2 * (b * d) + d := by ring
  rw [e] at h'
  generalize (m : ℤ) * d = y at *
  generalize (b : ℤ) * d = z at *
  omega

/-- The rounded quotient does not grow when one more digit is removed. -/
theorem rhe_succ_le (v k : Nat) : rhe v (k + 1) ≤ rhe v k := by
  have h := ((nearestEven_iff_rhe v k _).2 rfl).1
  rw [rhe, if_neg (Nat.succ_ne_zero k)]
  apply roundHalfEven_le (by positivity)
  have hp : 0 < 10 ^ k := by positivity
  generalize rhe v k = m at *
  have h2 : 2 * v ≤ (2 * m + 1) * 10 ^ k := by
    have : 2 * (v : ℤ) ≤ (2 * m + 1) * 10 ^ k := by
      have e : (2 * (m : ℤ) + 1) * 10 ^ k = 2 * (m * 10 ^ k) + 10 ^ k := by ring
      rw [e]
      push_cast at h
      generalize (m : ℤ) * 10 ^ k = z at *
      have hk : ((10 ^ k : Nat) : ℤ) = 10 ^ k := by push_cast; rfl
      rw [← hk]
      omega
    exact_mod_cast this
  calc 2 * v ≤ (2 * m + 1) * 10 ^ k := h2
    _ < (2 * m + 1) * 10 ^ (k + 1) := by
      apply Nat.mul_lt_mul_of_pos_left _ (by omega)
      rw [Nat.pow_succ]; omega

theorem rhe_antitone (v : Nat) : Antitone (rhe v) := antitone_nat_of_succ_le (rhe_succ_le v)

/-- What the downcast's search answers from a candidate count `k` on with `fuel` candidates: the first count that
fits, else the saturation. -/
theorem downcastFrom_cases (t : Triple) (fuel k : Nat) :
    (∃ j, k ≤ j ∧ j < k + fuel ∧ rhe t.v j ≤ max96 ∧ (∀ i, k ≤ i → i < j → max96 < rhe t.v i) ∧
      downcastFrom t fuel k = ⟨decImg ⟨rhe t.v j, t.sc - j, t.sg⟩, .success⟩) ∨
    ((∀ j, k ≤ j → j < k + fuel → max96 < rhe t.v j) ∧
      downcastFrom t fuel k = ⟨infinityImg t.sg, infinityCode t.sg⟩) := by
  induction fuel generalizing k with
  | zero => exact .inr ⟨fun j h1 h2 => by omega, rfl⟩
  | succ n ih =>
    rw [downcastFrom]
    by_cases h : rhe t.v k ≤ max96
    · exact .inl ⟨k, le_refl k, by omega, h, fun i h1 h2 => by omega, by rw [if_pos h]⟩
    · rw [if_neg h]
      rcases ih (k + 1) with ⟨j, h1, h2, h3, h4, h5⟩ | ⟨h1, h2⟩
      · refine .inl ⟨j, by omega, by omega, h3, fun i hi hj => ?_, h5⟩
        rcases Nat.eq_or_lt_of_le hi with rfl | hlt
        · omega
        · exact h4 i hlt hj
      · refine .inr ⟨fun j hj hl => ?_, h2⟩
        rcases Nat.eq_or_lt_of_le hj with rfl | hlt
        · omega
        · exact h1 j hlt (by omega)

/-- `downcast` says once: the fewest digits that fit, of at least `sc - 28`, or the infinity of the sign (R102). -/
theorem downcast_cases (t : Triple) :
    (∃ k, t.sc - 28 ≤ k ∧ k ≤ t.sc ∧ rhe t.v k ≤ max96 ∧ (∀ i, t.sc - 28 ≤ i → i < k → max96 < rhe t.v i) ∧
      downcast t = ⟨decImg ⟨rhe t.v k, t.sc - k, t.sg⟩, .success⟩) ∨
    (max96 < rhe t.v t.sc ∧ downcast t = ⟨infinityImg t.sg, infinityCode t.sg⟩) := by
  rcases downcastFrom_cases t (t.sc - (t.sc - maxScale) + 1) (t.sc - maxScale) with
    ⟨j, h1, h2, h3, h4, h5⟩ | ⟨h1, h2⟩
  · exact .inl ⟨j, h1, by unfold maxScale at *; omega, h3, h4, h5⟩
  · exact .inr ⟨h1 t.sc (by omega) (by omega), h2⟩

/-- A value that fits at a scale of at most 28 is downcast unchanged. -/
theorem downcast_of_fits {t : Triple} (hv : t.v ≤ max96) (hs : t.sc ≤ 28) : downcast t = ⟨decImg t, .success⟩ := by
  have h0 : t.sc - maxScale = 0 := by unfold maxScale; omega
  rw [downcast, h0, downcastFrom, rhe_zero, if_pos hv, Nat.sub_zero]

/-- `downcast` meets its relational description. -/
theorem downcast_downcastsTo (t : Triple) : DowncastsTo t (downcast t).code.bits.toNat (downcast t).img := by
  rcases downcast_cases t with ⟨k, h1, h2, h3, h4, h5⟩ | ⟨h1, h2⟩
  · refine .inl ⟨k, rhe t.v k, h1, h2, (nearestEven_iff_rhe _ _ _).2 rfl, h3, ?_, by rw [h5]; rfl, ?_⟩
    · intro j n hj hk hn
      rw [(nearestEven_iff_rhe _ _ _).1 hn]
      exact h4 j hj hk
    · rw [h5]
      exact isDecResult_decImg _ (by unfold max96 at h3; simp only; omega) (by simp only; omega)
  · refine .inr ⟨?_, ?_, ?_⟩
    · intro k m _ hk hm
      rw [(nearestEven_iff_rhe _ _ _).1 hm]
      exact lt_of_lt_of_le h1 (rhe_antitone t.v hk)
    · rw [h2]; cases t.sg <;> rfl
    · rw [h2]; exact isInfinity_infinityImg t.sg

end Sys2Proof.Machine
end

