-- ==== Sys2Proof/Laws/Run.lean ====
section
/-! SUPPORT. Runs of the core: how one more step, first or last, extends a run. -/

namespace Sys2Proof.Machine

/-- A run whose first step answers a next state goes on from there. -/
theorem run_first (k : Nat) (s t : State) (h : step s = .next t) :
    Host.Core.run Sys2Proof.core (k + 1) s = Host.Core.run Sys2Proof.core k t := by
  have h : Sys2Proof.core.step s = .next t := h
  simp only [Host.Core.run]; rw [h]

/-- A run extended by one last step. -/
theorem run_last (k : Nat) (s t u : State) (h : Host.Core.run Sys2Proof.core k s = .next t)
    (hu : step t = .next u) : Host.Core.run Sys2Proof.core (k + 1) s = .next u := by
  induction k generalizing s with
  | zero => cases h; rw [run_first _ _ _ hu]; rfl
  | succ n ih =>
    cases hs : step s with
    | next s' => rw [run_first _ _ _ hs] at h ⊢; exact ih s' h
    | fault r =>
      have hs : Sys2Proof.core.step s = .fault r := hs
      simp only [Host.Core.run] at h; rw [hs] at h; cases h
    | refused r =>
      have hs : Sys2Proof.core.step s = .refused r := hs
      simp only [Host.Core.run] at h; rw [hs] at h; cases h

end Sys2Proof.Machine
end

