-- ==== Sys2Proof/Laws/Scale.lean ====
section
/-! SUPPORT. What `normalize`, `align` and `fracdiv` are, said once (spec rules R97, R104, R106). -/

namespace Sys2Proof.Machine

/-- One loop of `normalize`: as many times-ten steps as stay within `MAX96` and do not pass the target. -/
theorem raiseScale_spec (target fuel : Nat) (x : Triple) (h : target - x.sc = fuel) :
    ∃ j, RaisesBy x.v fuel j ∧ raiseScale target fuel x = ⟨x.v * 10 ^ j, x.sc + j, x.sg⟩ := by
  induction fuel generalizing x with
  | zero => exact ⟨0, ⟨le_refl 0, fun i h1 h2 => by omega, fun h => by omega⟩, by simp [raiseScale]⟩
  | succ n ih =>
    rw [raiseScale]
    by_cases hv : 10 * x.v ≤ max96
    · rw [if_pos ⟨by omega, hv⟩]
      obtain ⟨j, ⟨h1, h2, h3⟩, e⟩ := ih { x with v := 10 * x.v, sc := x.sc + 1 } (by simp only; omega)
      refine ⟨j + 1, ⟨by omega, ?_, ?_⟩, ?_⟩
      · intro i hi hj
        rcases Nat.lt_or_ge i 2 with h | h
        · obtain rfl : i = 1 := by omega
          omega
        · obtain ⟨i, rfl⟩ : ∃ i', i = i' + 1 := ⟨i - 1, by omega⟩
          have := h2 i (by omega) (by omega)
          rw [Nat.pow_succ]
          simp only at this
          calc x.v * (10 ^ i * 10) = 10 * x.v * 10 ^ i := by ring
            _ ≤ max96 := this
      · intro hj
        have := h3 (by omega)
        simp only at this
        calc max96 < 10 * x.v * 10 ^ (j + 1) := this
          _ = x.v * 10 ^ (j + 1 + 1) := by ring
      · rw [e]
        simp only [Triple.mk.injEq]
        exact ⟨by ring, by omega, trivial⟩
    · rw [if_neg (fun hc => hv hc.2)]
      exact ⟨0, ⟨by omega, fun i h1 h2 => by omega, fun _ => by simp; omega⟩, by simp⟩

/-- `normalize`: the operand of lower scale is raised, the other is left alone (R104). -/
theorem normalize_spec (x y : Triple) : ∃ i j, RaisesBy x.v (y.sc - x.sc) i ∧ RaisesBy y.v (x.sc - y.sc) j ∧
    normalize x y = ⟨⟨x.v * 10 ^ i, x.sc + i, x.sg⟩, ⟨y.v * 10 ^ j, y.sc + j, y.sg⟩,
      decide (x.sc + i ≠ y.sc + j)⟩ := by
  obtain ⟨i, hi, ei⟩ := raiseScale_spec y.sc (y.sc - x.sc) x rfl
  obtain ⟨j, hj, ej⟩ := raiseScale_spec (x.sc + i) (x.sc + i - y.sc) y rfl
  have hsteps : x.sc + i - y.sc = x.sc - y.sc := by have := hi.1; omega
  refine ⟨i, j, hi, hsteps ▸ hj, ?_⟩
  simp only [normalize, ei, ej]

/-- A raised value is the value itself or stays within `MAX96`. -/
theorem RaisesBy.le {v n j b : Nat} (h : RaisesBy v n j) (hv : v ≤ b) (hb : max96 ≤ b) : v * 10 ^ j ≤ b := by
  rcases Nat.eq_zero_or_pos j with rfl | hj
  · simpa using hv
  · exact le_trans (h.2.1 j hj (le_refl j)) hb

/-- A value whose last step would stay within `MAX96` takes every step. -/
theorem RaisesBy.eq_steps {v n j : Nat} (h : RaisesBy v n j) (hv : v * 10 ^ n ≤ max96) : j = n := by
  by_contra hne
  have hlt : j < n := lt_of_le_of_ne h.1 hne
  have h1 := h.2.2 hlt
  have : v * 10 ^ (j + 1) ≤ v * 10 ^ n :=
    Nat.mul_le_mul_left v (Nat.pow_le_pow_right (by omega) hlt)
  omega

/-- `align`: after `normalize`, both are rounded to the lower of the two scales reached, which changes at most one
(R106). -/
theorem align_spec (x y : Triple) : ∃ i j c, RaisesBy x.v (y.sc - x.sc) i ∧ RaisesBy y.v (x.sc - y.sc) j ∧
    c = min (x.sc + i) (y.sc + j) ∧
    align x y = (⟨rhe (x.v * 10 ^ i) (x.sc + i - c), c, x.sg⟩, ⟨rhe (y.v * 10 ^ j) (y.sc + j - c), c, y.sg⟩) := by
  obtain ⟨i, j, hi, hj, e⟩ := normalize_spec x y
  refine ⟨i, j, _, hi, hj, rfl, ?_⟩
  simp only [align, e, decide_eq_true_eq, roundToScale]
  split
  · split
    · rename_i h
      rw [Nat.min_eq_left h.le, Nat.sub_self, rhe_zero]
    · rename_i h
      rw [Nat.min_eq_right (by omega), Nat.sub_self, rhe_zero]
  · rename_i h
    have h : x.sc + i = y.sc + j := by simpa using h
    simp [h, rhe_zero]

/-- What the digit loop answers from a digit count reached so far: the first later count at which it stops (R97). -/
theorem fracDigits_spec (n d fuel : Nat) (hd : 0 < d) (z : FracQuotient) (hq : z.q = n * 10 ^ z.s / d)
    (hr : z.r = n * 10 ^ z.s % d) : ∃ k, z.s ≤ k ∧ k ≤ z.s + fuel ∧
      fracDigits d fuel z = ⟨n * 10 ^ k / d, k, n * 10 ^ k % d⟩ ∧
      (n * 10 ^ k % d = 0 ∨ k = z.s + fuel ∨ max96 < n * 10 ^ (k + 1) / d) ∧
      ∀ j, z.s ≤ j → j < k → n * 10 ^ j % d ≠ 0 ∧ n * 10 ^ (j + 1) / d ≤ max96 := by
  induction fuel generalizing z with
  | zero =>
    refine ⟨z.s, le_refl _, by omega, ?_, .inr (.inl rfl), fun j h1 h2 => by omega⟩
    rw [← hq, ← hr]; rfl
  | succ m ih =>
    have hv := Nat.div_add_mod (n * 10 ^ z.s) d
    rw [← hq, ← hr] at hv
    have e : n * 10 ^ (z.s + 1) = 10 * z.r + d * (10 * z.q) := by
      rw [Nat.pow_succ, ← Nat.mul_assoc, ← hv]; ring
    have hq' : 10 * z.q + 10 * z.r / d = n * 10 ^ (z.s + 1) / d := by
      rw [e, Nat.add_mul_div_left _ _ hd]; omega
    have hr' : 10 * z.r % d = n * 10 ^ (z.s + 1) % d := by
      rw [e, Nat.add_mul_mod_self_left]
    rw [fracDigits]
    split
    · rename_i h0
      exact ⟨z.s, le_refl _, by omega, by rw [← hq, ← hr], .inl (hr ▸ h0), fun j h1 h2 => by omega⟩
    · rename_i h0
      split
      · rename_i hbig
        exact ⟨z.s, le_refl _, by omega, by rw [← hq, ← hr], .inr (.inr (hq' ▸ hbig)),
          fun j h1 h2 => by omega⟩
      · rename_i hfit
        obtain ⟨k, h1, h2, h3, h4, h5⟩ := ih ⟨10 * z.q + 10 * z.r / d, z.s + 1, 10 * z.r % d⟩ hq' hr'
        simp only at h1 h2 h4 h5
        refine ⟨k, by omega, by omega, h3, by omega, fun j hj hk => ?_⟩
        rcases Nat.eq_or_lt_of_le hj with rfl | hlt
        · exact ⟨hr ▸ h0, by rw [← hq']; omega⟩
        · exact h5 j hlt hk

/-- `fracdiv` meets its relational description (R97). -/
theorem fracdiv_fracDivides (n d : Nat) (hd : 0 < d) :
    FracDivides n d (fracdiv n d).q (fracdiv n d).s (fracdiv n d).r := by
  obtain ⟨k, -, h2, h3, h4, h5⟩ :=
    fracDigits_spec n d maxScale hd ⟨n / d, 0, n % d⟩ (by simp) (by simp)
  have e : fracdiv n d = ⟨n * 10 ^ k / d, k, n * 10 ^ k % d⟩ := h3
  rw [e]
  simp only [maxScale] at h2 h4
  exact ⟨rfl, rfl, by omega, by simpa using h4, fun j hj => h5 j (Nat.zero_le j) hj⟩

end Sys2Proof.Machine
end

