-- ==== Sys2Proof/Tests/Slice0.lean ====
section
/-! SUPPORT. Tests of the model: the well-formedness smoke tests, one decoded word per constructor, one or two single
steps per command, and for every obligation with hypotheses a witness that meets them. Command words are written
from the encodings (spec rules R41, R47); expected results are those of spec/95_test_vectors.md, named by section
or by rule. -/

namespace Sys2Proof.Tests

open Sys2Proof Sys2Proof.Machine

set_option Elab.async false

/-! ### Ill-formed terms, one per check (R43) -/

theorem test_wf_bit_index : (Instr.btst 32).wf = false ∧ (Instr.bset 32).wf = false ∧ (Instr.bclr 32).wf = false ∧
    (Instr.bflp 32).wf = false ∧ (Instr.btst 31).wf = true := by decide
theorem test_wf_new_sign : (Instr.dssign 2).wf = false ∧ (Instr.dssign 1).wf = true := by decide
theorem test_wf_new_scale : (Instr.dsscale 29).wf = false ∧ (Instr.dsscale 28).wf = true := by decide
theorem test_wf_mantissa_bit : (Instr.dgbit 96).wf = false ∧ (Instr.dgbit 95).wf = true := by decide
theorem test_wf_replaced_bit : (Instr.dsbit true 96).wf = false ∧ (Instr.dsbit true 95).wf = true := by decide
theorem test_wf_target_scale : (Instr.round 29).wf = false ∧ (Instr.round 28).wf = true := by decide
theorem test_wf_shift_count : (Instr.xshl 255).wf = true ∧ (Instr.xshr 0).wf = true := by decide

/-! ### One word per constructor (R41, R47): bits 31 to 16, the immediate, the opcode -/

theorem test_decode_bit_primitives :
    decode 0b00000000000000000001111100010000#32 = .ok (.btst 31) ∧
    decode 0b00000000000000000000000100010001#32 = .ok (.bset 1) ∧
    decode 0b00000000000000000000010000010010#32 = .ok (.bclr 4) ∧
    decode 0b00000000000000000001111100010011#32 = .ok (.bflp 31) := by decide

theorem test_decode_extended :
    decode 0b00000000000000000000000000100000#32 = .ok (.xadd) ∧
    decode 0b00000000000000000000000000100001#32 = .ok (.xsub) ∧
    decode 0b00000000000000001111111100100010#32 = .ok (.xshl 255) ∧
    decode 0b00000000000000001101111100100011#32 = .ok (.xshr 223) ∧
    decode 0b00000000000000000000000000100100#32 = .ok (.xgt) ∧
    decode 0b00000000000000000000000000100101#32 = .ok (.xeq) ∧
    decode 0b00000000000000000000000000100110#32 = .ok (.xzero) ∧
    decode 0b00000000000000000000000000100111#32 = .ok (.xisneg) ∧
    decode 0b00000000000000000000000000101000#32 = .ok (.xsgnclr) := by decide

theorem test_decode_multiply_divide :
    decode 0b00000000000000000000000000110000#32 = .ok (.xmul) ∧
    decode 0b00000000000000000000000000110001#32 = .ok (.xmul10) ∧
    decode 0b00000000000000000000000000110010#32 = .ok (.xdiv) ∧
    decode 0b00000000000000000000000000110011#32 = .ok (.xfdiv) := by decide

theorem test_decode_scale :
    decode 0b00000000000000000000000001000000#32 = .ok (.xwiden) ∧
    decode 0b00000000000000000000000001000001#32 = .ok (.xdown) ∧
    decode 0b00000000000000000000000001000010#32 = .ok (.xnorm) ∧
    decode 0b00000000000000000000000001000011#32 = .ok (.xinc) ∧
    decode 0b00000000000000000000000001000100#32 = .ok (.xdec) ∧
    decode 0b00000000000000000000000001000101#32 = .ok (.xcls) := by decide

theorem test_decode_decimal_type :
    decode 0b00000000000000000000000001001000#32 = .ok (.dzero) ∧
    decode 0b00000000000000000000000001001001#32 = .ok (.dgsign) ∧
    decode 0b00000000000000000000000101001010#32 = .ok (.dssign 1) ∧
    decode 0b00000000000000000000000001001011#32 = .ok (.dgscale) ∧
    decode 0b00000000000000000001110001001100#32 = .ok (.dsscale 28) ∧
    decode 0b00000000000000000101111101001101#32 = .ok (.dgbit 95) ∧
    decode 0b00000000000000001101111101001110#32 = .ok (.dsbit true 95) ∧
    decode 0b00000000000000000000000101001110#32 = .ok (.dsbit false 1) := by decide

theorem test_decode_decimal_arithmetic :
    decode 0b00000000000000000000000001010000#32 = .ok (.add) ∧
    decode 0b00000000000000000000000001010001#32 = .ok (.sub) ∧
    decode 0b00000000000000000000000001010010#32 = .ok (.mul) ∧
    decode 0b00000000000000000000000001010011#32 = .ok (.div) ∧
    decode 0b00000000000000000000000001010100#32 = .ok (.mod) := by decide

theorem test_decode_comparison :
    decode 0b00000000000000000000000001100000#32 = .ok (.clt) ∧
    decode 0b00000000000000000000000001100001#32 = .ok (.cle) ∧
    decode 0b00000000000000000000000001100010#32 = .ok (.cgt) ∧
    decode 0b00000000000000000000000001100011#32 = .ok (.cge) ∧
    decode 0b00000000000000000000000001100100#32 = .ok (.ceq) ∧
    decode 0b00000000000000000000000001100101#32 = .ok (.cne) := by decide

theorem test_decode_rounding :
    decode 0b00000000000000000000000001110000#32 = .ok (.floor) ∧
    decode 0b00000000000000000001101101110001#32 = .ok (.round 27) ∧
    decode 0b00000000000000000000000001110010#32 = .ok (.trunc) ∧
    decode 0b00000000000000000000000001110011#32 = .ok (.neg) := by decide

theorem test_decode_converters :
    decode 0b00000000000000000000000010000000#32 = .ok (.fromi) ∧
    decode 0b00000000000000000000000010000001#32 = .ok (.fromf) ∧
    decode 0b00000000000000000000000010000010#32 = .ok (.toi) ∧
    decode 0b00000000000000000000000010000011#32 = .ok (.tof) ∧
    decode 0b00000000000000000000000010000100#32 = .ok (.fxtr) ∧
    decode 0b00000000000000000000000010000101#32 = .ok (.fbld) := by decide

/-- Section 2.10: gaps, a set reserved bit, an immediate out of range. -/
theorem test_decode_illegal : decode 0x00000000#32 = .error .opcodeUnassigned ∧
    decode 0x0000004F#32 = .error .opcodeUnassigned ∧ decode 0x000000FF#32 = .error .opcodeUnassigned ∧
    decode 0x00010050#32 = .error .reservedBitsSet ∧ decode 0x80000050#32 = .error .reservedBitsSet ∧
    decode 0x00000150#32 = .error .immediateOutOfRange ∧ decode 0x0000604E#32 = .error .immediateOutOfRange ∧
    decode 0x0000E04E#32 = .error .immediateOutOfRange := by decide

/-- A value that needs more than 32 bits is no command word. -/
theorem test_table_word : decodeTableWord 32 0x1C71 = some (.round 28) ∧
    decodeTableWord 33 0x100000050 = none := by decide

/-! ### One step -/

/-- The XREG256 image of R57, as a sum. -/
def x (v sc : Nat) (sg : Bool := false) : Image := BitVec.ofNat 256 (v + sc * 2 ^ 240 + sg.toNat * 2 ^ 255)

/-- The DEC128 image of R52, as a sum. -/
def d (v sc : Nat) (sg : Bool := false) : Image := BitVec.ofNat 256 (v + sc * 2 ^ 112 + sg.toNat * 2 ^ 127)

/-- The image with the given words, word 0 first (R33). -/
def ws (l : List Nat) : Image := BitVec.ofNat 256 (l.foldr (fun w v => w + 2 ^ 32 * v) 0)

/-- The state after reset with the given operand latches. -/
def holding (a b : Image) : State := { State.reset with opa := a, opb := b }

/-- The next step runs the word `c` on `a` and `b`, completes with status `st` and delivers `r` and `r2`. -/
def delivers (c : Nat) (a b : Image) (st : Nat) (r r2 : Image) : Bool :=
  match step ((holding a b).withFetchWord 32 c) with
  | .next t => t.done && !t.busy && t.status.toNat == st && t.res == r && t.res2 == r2
  | .fault _ => false
  | .refused _ => false

/-- As `delivers`, nothing said of the images. -/
def endsWith (c : Nat) (a b : Image) (st : Nat) : Bool :=
  match step ((holding a b).withFetchWord 32 c) with
  | .next t => t.done && !t.busy && t.status.toNat == st
  | .fault _ => false
  | .refused _ => false

/-! Section 2.1. -/

theorem test_btst_top : delivers 0x1F10 0x80000000 0 0 1 0 = true := by decide +kernel
theorem test_btst_next : delivers 0x1E10 0x80000000 0 0 0 0 = true := by decide +kernel
theorem test_bset : delivers 0x1F11 0x20000 0 0 0x80020000 0 = true := by decide +kernel
theorem test_bclr : delivers 0x1F12 0x80010000 0 0 0x10000 0 = true := by decide +kernel
theorem test_bclr_clear : delivers 0x412 0 0 0 0 0 = true := by decide +kernel
theorem test_bflp : delivers 0x1F13 0x80010000 0 0 0x10000 0 = true := by decide +kernel

/-! Section 2.2. -/

theorem test_xadd_two_words :
    delivers 0x20 (x (2 ^ 64 - 1) 3 true) (x 1 9) 0 (x (2 ^ 64) 3 true) 0 = true := by decide +kernel
theorem test_xadd_carry_out : delivers 0x20 (x (2 ^ 224 - 1) 0) (x 1 0) 0x100 (x 0 0) 0 = true := by decide +kernel
theorem test_xsub_borrow : delivers 0x21 (x 3 2) (x 5 2) 0 (x 2 2 true) 0 = true := by decide +kernel
theorem test_xsub_from_zero :
    delivers 0x21 (x 0 0) (x (2 ^ 224 - 1) 0) 0x200 (x (2 ^ 224 - 1) 0 true) 0 = true := by decide +kernel
theorem test_xshl : delivers 0x2422 (x 0xDEADBEEF 0) 0 0 (x 0xDEADBEEF000000000 0) 0 = true := by decide +kernel
theorem test_xshl_lost : delivers 0xE022 (x 1 0) 0 0x100 (x 0 0) 0 = true := by decide +kernel
theorem test_xshr : delivers 0xDF23 (x (2 ^ 223) 0) 0 0 (x 1 0) 0 = true := by decide +kernel
theorem test_xshr_keeps_sign : delivers 0x123 (x 5 2 true) 0 0 (x 2 2 true) 0 = true := by decide +kernel
theorem test_xgt_signs_ignored : delivers 0x24 (x 5 0 true) (x 3 0) 0 1 0 = true := by decide +kernel
theorem test_xgt_equal : delivers 0x24 (x 7 0) (x 7 0) 0 0 0 = true := by decide +kernel
theorem test_xeq : delivers 0x25 (x 7 0 true) (x 7 3) 0 1 0 = true := by decide +kernel
theorem test_xeq_differ : delivers 0x25 (x (2 ^ 223) 0) (x 0 0) 0 0 0 = true := by decide +kernel
theorem test_xzero : delivers 0x26 (x 0 5 true) 0 0 1 0 = true := by decide +kernel
theorem test_xzero_reserved_bit : endsWith 0x26 (2 ^ 254) 0 5 = true := by decide +kernel
theorem test_xisneg : delivers 0x27 (x 0 0 true) 0 0 1 0 = true := by decide +kernel
theorem test_xisneg_not : delivers 0x27 (x 9 9) 0 0 0 0 = true := by decide +kernel
theorem test_xsgnclr : delivers 0x28 (x (2 ^ 96) 0 true) 0 0x200 (x (2 ^ 96) 0) 0 = true := by decide +kernel

/-! Section 2.3. -/

theorem test_xmul_wraps :
    delivers 0x30 (x (2 ^ 112 + 3) 0) (x (2 ^ 112 + 5) 0) 0x300 (x (2 ^ 115 + 15) 0) 0 = true := by decide +kernel
theorem test_xmul_scale_wraps : delivers 0x30 (x 1 200) (x 1 100) 0x100 (x 1 44) 0 = true := by decide +kernel
theorem test_xmul10_wraps :
    delivers 0x31 (x ((2 ^ 224 - 1) / 10 + 1) 0) 0 0x100 (x 4 0) 0 = true := by decide +kernel
theorem test_xmul10_other_port :
    delivers 0x31 (x 0 7 true) (2 ^ 256 - 1) 0 (x 0 7 true) 0 = true := by decide +kernel
theorem test_xdiv_signs : delivers 0x32 (x 7 0 true) (x 2 0) 0 (x 3 0 true) (x 1 0 true) = true := by decide +kernel
theorem test_xdiv_zero : endsWith 0x32 (x 5 3) (x 0 9 true) 3 = true := by decide +kernel
theorem test_xfdiv_truncates :
    delivers 0x33 (x 2 0) (x 3 0) 0 (x 6666666666666666666666666666 28) (x 2 0) = true := by decide +kernel
theorem test_xfdiv_stops_at_96_bits :
    delivers 0x33 (x (2 ^ 96 - 1) 0) (x 2 0) 0 (x 39614081257132168796771975167 0) (x 1 0) = true :=
  by decide +kernel

/-! Section 2.4. -/

theorem test_xwiden : delivers 0x40 (d 0x177 2) 0 0 (x 0x177 2) 0 = true := by decide +kernel
theorem test_xwiden_infinity : endsWith 0x40 (d 0xFFFFFFFFFFFFFFFFFFFFFFFF 255) 0 5 = true := by decide +kernel
theorem test_xdown_tie_to_odd : delivers 0x41 (x 15 29) 0 0 (d 2 28) 0 = true := by decide +kernel
theorem test_xdown_saturates_on_tie :
    delivers 0x41 (x (10 * (2 ^ 96 - 1) + 5) 1) 0 1 (d 0xFFFFFFFFFFFFFFFFFFFFFFFF 255) 0 = true := by decide +kernel
theorem test_xnorm : delivers 0x42 (x 15 1) (x 225 2) 0 (x 150 2) (x 225 2) = true := by decide +kernel
theorem test_xnorm_stops :
    delivers 0x42 (x 7922816251426433759354395033 0) (x 1 2) 0x100 (x 79228162514264337593543950330 1) (x 1 2) = true :=
  by decide +kernel
theorem test_xinc :
    delivers 0x43 (x (2 ^ 96 - 1) 28) 0 0x200 (x (10 * (2 ^ 96 - 1)) 29) 0 = true := by decide +kernel
theorem test_xinc_scale_wraps : delivers 0x43 (x 1 255) 0 0x100 (x 10 0) 0 = true := by decide +kernel
theorem test_xdec : delivers 0x44 (x 125 3 true) 0 0 (x 12 2 true) (x 5 0) = true := by decide +kernel
theorem test_xdec_refused : delivers 0x44 (x 7 0) 0 0x100 (x 7 0) 0 = true := by decide +kernel
theorem test_xcls_fits :
    delivers 0x45 (x (2 ^ 96 - 1) 40 true) 0 0 (x (2 ^ 96 - 1) 40 true) 0 = true := by decide +kernel
theorem test_xcls_negative :
    delivers 0x45 (x (2 ^ 96) 0 true) 0 0x202 (x (2 ^ 96) 0 true) 0 = true := by decide +kernel

/-! Section 2.5. -/

theorem test_dzero : delivers 0x48 (2 ^ 256 - 1) (2 ^ 256 - 1) 0 0 0 = true := by decide +kernel
theorem test_dgsign : delivers 0x49 (d 0 0 true) 0 0 1 0 = true := by decide +kernel
theorem test_dgsign_infinity : endsWith 0x49 (d 0xFFFFFFFFFFFFFFFFFFFFFFFF 255 true) 0 5 = true := by decide +kernel
theorem test_dssign_set : delivers 0x14A (d 0x177 2) 0 0 (d 0x177 2 true) 0 = true := by decide +kernel
theorem test_dssign_clear : delivers 0x4A (d 0x177 2 true) 0 0 (d 0x177 2) 0 = true := by decide +kernel
theorem test_dgscale : delivers 0x4B (d 1 28 true) 0 0 28 0 = true := by decide +kernel
theorem test_dsscale : delivers 0x24C (d 0x177 0 true) 0 0 (d 0x177 2 true) 0 = true := by decide +kernel
theorem test_dgbit : delivers 0x204D (d (2 ^ 32) 0) 0 0 1 0 = true := by decide +kernel
theorem test_dgbit_below : delivers 0x1F4D (d (2 ^ 32) 0) 0 0 0 0 = true := by decide +kernel
theorem test_dsbit_set : delivers 0xA04E (d 0 3 true) 0 0 (d (2 ^ 32) 3 true) 0 = true := by decide +kernel
theorem test_dsbit_clear : delivers 0x14E (d 7 0) 0 0 (d 5 0) 0 = true := by decide +kernel

/-! Section 2.6 and Part 1. -/

theorem test_add_unlike_signs : delivers 0x50 (d 15 1) (d 225 2 true) 0 (d 75 2 true) 0 = true := by decide +kernel
theorem test_add_saturates :
    delivers 0x50 (d (2 ^ 96 - 1) 0) (d (2 ^ 96 - 1) 0) 1 (d 0xFFFFFFFFFFFFFFFFFFFFFFFF 255) 0 = true :=
  by decide +kernel
theorem test_sub_saturates :
    delivers 0x51 (d (2 ^ 96 - 1) 0 true) (d (2 ^ 96 - 1) 0) 2 (d 0xFFFFFFFFFFFFFFFFFFFFFFFF 255 true) 0 = true :=
  by decide +kernel
theorem test_sub_equal : delivers 0x51 (d 375 2 true) (d 375 2 true) 0 (d 0 2 true) 0 = true := by decide +kernel
theorem test_mul_tie_to_even : delivers 0x52 (d 3 28) (d 5 1) 0 (d 2 28) 0 = true := by decide +kernel
theorem test_mul_signed_zero : delivers 0x52 (d 0 3) (d 5 0 true) 0 (d 0 3 true) 0 = true := by decide +kernel
theorem test_div_truncates :
    delivers 0x53 (d 2 0) (d 3 0) 0 (d 6666666666666666666666666666 28) 0 = true := by decide +kernel
theorem test_div_zero : endsWith 0x53 (d 5 0) (d 0 5 true) 3 = true := by decide +kernel
theorem test_mod_sign_of_dividend : delivers 0x54 (d 7 0 true) (d 2 0) 0 (d 1 0 true) 0 = true := by decide +kernel
theorem test_mod_scales : delivers 0x54 (d 525 2) (d 15 1) 0 (d 75 2) 0 = true := by decide +kernel

/-! Section 2.7: -1.5 and -2.25; 1.50 and 1.5; the pair that only an exact alignment orders. -/

theorem test_clt_negative : delivers 0x60 (d 15 1 true) (d 225 2 true) 0 0 0 = true := by decide +kernel
theorem test_clt_equal_values : delivers 0x60 (d 150 2) (d 15 1) 0 0 0 = true := by decide +kernel
theorem test_cle_negative : delivers 0x61 (d 15 1 true) (d 225 2 true) 0 0 0 = true := by decide +kernel
theorem test_cle_equal_values : delivers 0x61 (d 150 2) (d 15 1) 0 1 0 = true := by decide +kernel
theorem test_cgt_negative : delivers 0x62 (d 15 1 true) (d 225 2 true) 0 1 0 = true := by decide +kernel
theorem test_cgt_equal_values : delivers 0x62 (d 150 2) (d 15 1) 0 0 0 = true := by decide +kernel
theorem test_cge_negative : delivers 0x63 (d 15 1 true) (d 225 2 true) 0 1 0 = true := by decide +kernel
theorem test_cge_equal_values : delivers 0x63 (d 150 2) (d 15 1) 0 1 0 = true := by decide +kernel
theorem test_ceq_negative : delivers 0x64 (d 15 1 true) (d 225 2 true) 0 0 0 = true := by decide +kernel
theorem test_ceq_equal_values : delivers 0x64 (d 150 2) (d 15 1) 0 1 0 = true := by decide +kernel
theorem test_cne_negative : delivers 0x65 (d 15 1 true) (d 225 2 true) 0 1 0 = true := by decide +kernel
theorem test_cne_equal_values : delivers 0x65 (d 150 2) (d 15 1) 0 0 0 = true := by decide +kernel

/-! Section 2.8. -/

theorem test_trunc : delivers 0x72 (d 375 2 true) 0 0 (d 3 0 true) 0 = true := by decide +kernel
theorem test_floor : delivers 0x70 (d 375 2 true) 0 0 (d 4 0 true) 0 = true := by decide +kernel
theorem test_floor_exact : delivers 0x70 (d 300 2 true) 0 0 (d 3 0 true) 0 = true := by decide +kernel
theorem test_round_tie : delivers 0x271 (d 135 3) 0 0 (d 14 2) 0 = true := by decide +kernel
theorem test_round_never_raises : delivers 0x571 (d 375 2) 0 0 (d 375 2) 0 = true := by decide +kernel
theorem test_neg : delivers 0x73 (d 0 0) 0 0 (d 0 0 true) 0 = true := by decide +kernel
theorem test_neg_infinity : endsWith 0x73 (d 0xFFFFFFFFFFFFFFFFFFFFFFFF 255 true) 0 5 = true := by decide +kernel

/-! Section 2.9. -/

theorem test_fxtr :
    delivers 0x84 0x3FC00000 0 0 (ws [0x400000, 0x7F, 0, 2, 0xC00000, 0xFFFFFFE9]) 0 = true := by decide +kernel
theorem test_fxtr_subnormal : delivers 0x84 1 0 0 (ws [1, 0, 0, 1, 1, 0xFFFFFF6B]) 0 = true := by decide +kernel
theorem test_fbld : delivers 0x85 (ws [0, 0xFF, 1]) 0 0 0xFF800000 0 = true := by decide +kernel
theorem test_fbld_wide_fraction : endsWith 0x85 0x800000 0 5 = true := by decide +kernel
theorem test_fromi_min : delivers 0x80 0x80000000 0 0 (d 0x80000000 0 true) 0 = true := by decide +kernel
theorem test_fromi_negative : delivers 0x80 0xFFFFFFF9 0 0 (d 7 0 true) 0 = true := by decide +kernel
theorem test_toi_truncates : delivers 0x82 (d 375 2 true) 0 0 0xFFFFFFFD 0 = true := by decide +kernel
theorem test_toi_range : endsWith 0x82 (d 2147483648 0) 0 4 = true := by decide +kernel
theorem test_fromf_tie_to_even :
    delivers 0x81 0x31000000 0 0 (d 18626451492309570312 28) 0 = true := by decide +kernel
theorem test_fromf_too_large : endsWith 0x81 0x6F800000 0 4 = true := by decide +kernel
theorem test_tof_carry : delivers 0x83 (d 33554431 0) 0 0 0x4C000000 0 = true := by decide +kernel
theorem test_tof_largest : delivers 0x83 (d (2 ^ 96 - 1) 0 true) 0 0 0xEF800000 0 = true := by decide +kernel

/-! Section 2.10: illegal before invalid before zero divisor. -/

theorem test_illegal_before_invalid :
    endsWith 0x150 (d 0xFFFFFFFFFFFFFFFFFFFFFFFF 255) 0 7 = true := by decide +kernel
theorem test_invalid_before_zero : endsWith 0x53 (d 0xFFFFFFFFFFFFFFFFFFFFFFFF 255) 0 5 = true := by decide +kernel
theorem test_immediate_out_of_range : endsWith 0x1D71 (d 1 0) 0 7 = true := by decide +kernel

/-! ### Witnesses: hypotheses of the obligations that something meets, each clause at a boundary -/

/-- A start of the command `c` driven by the host. -/
def starting (c : Word) : HostDrive := { HostDrive.idle with start := true, cmd := c, opa := d 15 1, opb := d 225 2 }

/-- A running command `c` with `p` waiting steps left and the given host input. -/
def running (c : Word) (p : Nat) (h : List HostDrive) : State :=
  { holding (d 15 1) (d 225 2) with cmd := c, busy := true, progress := p, host := h }

/-- A completed command whose outputs the host may read. -/
def completed (h : List HostDrive) : State :=
  { holding (d 15 1) (d 225 2) with cmd := 0x50, res := d 375 2, done := true, host := h }

/-- An image that is a valid Decimal with nothing above it, but no valid Extended Register: bit 248 is set. -/
def noRegister : Image := 2 ^ 248

/-- An image that is no valid Decimal: scale 29. -/
def noDecimal : Image := d 1 29

theorem noRegister_invalid : ¬∃ t, IsXr noRegister t := (not_isXr_iff _).2 (by decide +kernel)
theorem noDecimal_invalid : ¬∃ t, IsDec noDecimal t := (not_isDec_iff _).2 (by decide +kernel)

/-- States whose first, and whose second, latch is no Extended Register. -/
abbrev NoRegister : Prop :=
  (¬∃ t, IsXr (holding noRegister (x 1 0)).opa t) ∧ ¬∃ t, IsXr (holding (x 1 0) noRegister).opb t

/-- States whose first, and whose second, latch is no Decimal. -/
abbrev NoDecimal : Prop :=
  (¬∃ t, IsDec (holding noDecimal (d 1 0)).opa t) ∧ ¬∃ t, IsDec (holding (d 1 0) noDecimal).opb t

theorem noRegister_rejected : NoRegister := ⟨noRegister_invalid, noRegister_invalid⟩
theorem noDecimal_rejected : NoDecimal := ⟨noDecimal_invalid, noDecimal_invalid⟩

/-- The state that holds the two triples as XREG256 images is one whose latches are them. -/
abbrev HoldsXr (t u : Triple) : Prop :=
  IsXr (holding (x t.v t.sc t.sg) (x u.v u.sc u.sg)).opa t ∧
    IsXr (holding (x t.v t.sc t.sg) (x u.v u.sc u.sg)).opb u

/-- The state that holds the two triples as DEC128 images is one whose latches are them. -/
abbrev HoldsDec (t u : Triple) : Prop :=
  IsDec (holding (d t.v t.sc t.sg) (d u.v u.sc u.sg)).opa t ∧
    IsDec (holding (d t.v t.sc t.sg) (d u.v u.sc u.sg)).opb u

theorem witness_DecodeOfEncode : (Instr.round 28).wf = true ∧ (Instr.dsbit true 95).wf = true ∧
    (Instr.xshl 255).wf = true ∧ Instr.add.wf = true := by decide

theorem witness_DecodedWordIsTheEncoding : decode 0x00001C71#32 = .ok (.round 28) ∧
    decode 0x0000DF4E#32 = .ok (.dsbit true 95) := by decide

theorem witness_StepRunsDecodedInstruction :
    ((running 0x50 0 [starting 0x51]).busy = true ∧ (running 0x50 0 [starting 0x51]).progress = 0 ∧
      (running 0x50 0 [starting 0x51]).drive.rst = false ∧ (running 0x50 0 [starting 0x51]).drive.collect = false ∧
      decode (running 0x50 0 [starting 0x51]).cmd = .ok .add) ∧
    decodeTableWord 32 0x1C71 = some (.round 28) := by decide +kernel

theorem witness_IllegalWordCompletes :
    (running 0 0 []).busy = true ∧ (running 0 0 []).progress = 0 ∧ (running 0 0 []).drive.rst = false ∧
    (running 0 0 []).drive.collect = false ∧ decode (running 0 0 []).cmd = .error .opcodeUnassigned ∧
    decode (running 0x10050 0 []).cmd = .error .reservedBitsSet ∧
    decode (running 0x150 0 []).cmd = .error .immediateOutOfRange := by decide +kernel

/-- From reset, and with `DONE = 1` and the host reading in the same step. -/
theorem witness_StartLatchesThePorts :
    (let s : State := { State.reset with host := [starting 0x50] }
     s.busy = false ∧ s.drive.start = true ∧ s.drive.rst = false ∧ s.readsTooEarly = false) ∧
    (let s : State := completed [{ starting 0x50 with collect := true }]
     s.busy = false ∧ s.drive.start = true ∧ s.drive.rst = false ∧ s.readsTooEarly = false) := by decide +kernel

theorem witness_BusyCoreIgnoresThePorts :
    ((running 0x50 0 []).busy = true ∧ (starting 0x50).rst = HostDrive.idle.rst ∧
      (starting 0x50).collect = HostDrive.idle.collect ∧ starting 0x50 ≠ HostDrive.idle) ∧
    (let s := running 0x50 1 [starting 0x51]
     s.busy = true ∧ 0 < s.progress ∧ s.drive.rst = false ∧ s.drive.collect = false) := by decide +kernel

theorem witness_ResetPulseAbandonsTheCommand :
    let s := running 0x50 3 [{ starting 0x51 with rst := true }]
    s.drive.rst = true ∧ s.readsTooEarly = false := by decide +kernel

theorem witness_OnlyEarlyReadsFault :
    (let s := running 0x50 0 [{ HostDrive.idle with collect := true }]
     s.drive.collect = true ∧ s.done = false) ∧ (completed []).done = true ∧
    (completed [{ HostDrive.idle with collect := true }]).done = true ∧
    (running 0x50 0 []).drive.collect = false := by decide +kernel

theorem witness_IdleCoreHoldsItsRegisters :
    (let s := State.reset
     s.busy = false ∧ s.drive.start = false ∧ s.drive.rst = false ∧ s.readsTooEarly = false) ∧
    (let s := completed [{ HostDrive.idle with collect := true }]
     s.busy = false ∧ s.drive.start = false ∧ s.drive.rst = false ∧ s.readsTooEarly = false) := by decide +kernel

/-- The step that completes an ADD; its scratch registers are free values, so the next state is named, not
written out. -/
theorem witness_StepKeepsHandshakeAndStatus : (running 0x50 0 []).Inv ∧
    step (running 0x50 0 []) = .next ((running 0x50 0 []).complete (addResult (d 15 1) (d 225 2))) :=
  ⟨⟨by decide, fun h => absurd h (by decide)⟩, rfl⟩

/-- The same step, and an idle step of the state it leaves. -/
theorem witness_StepKeepsOutputsOfLatches : (running 0x50 0 []).Inv ∧ (running 0x50 0 []).OutputsOfLatches ∧
    step (running 0x50 0 []) = .next ((running 0x50 0 []).complete (addResult (d 15 1) (d 225 2))) ∧
    step ((running 0x50 0 []).complete (addResult (d 15 1) (d 225 2))) =
      .next ((running 0x50 0 []).complete (addResult (d 15 1) (d 225 2))) :=
  ⟨⟨by decide, fun h => absurd h (by decide)⟩, fun h => absurd h (by decide), rfl, rfl⟩

theorem witness_EveryAcceptedCommandCompletes :
    let s : State := { State.reset with host := [starting 0x50] }
    s.busy = false ∧ s.host = starting 0x50 :: [] ∧ (starting 0x50).start = true ∧ (starting 0x50).rst = false ∧
      s.readsTooEarly = false ∧
      QuietHost [] (Config.latency (starting 0x50).cmd (starting 0x50).opa (starting 0x50).opb) := by
  refine ⟨rfl, rfl, rfl, rfl, rfl, ?_⟩
  intro e he
  rw [List.take_nil] at he
  cases he

theorem witness_OutputsDependOnTheLatchesOnly :
    (completed []).opa = (running 0 3 []).opa ∧ (completed []).opb = (running 0 3 []).opb ∧
    completed [] ≠ running 0 3 [] := by decide +kernel

/-- A completion with each code and each flag, by its next state. -/
theorem witness_CodesAndFlagsComeFromTheirCommands :
    Instr.div.wf = true ∧
      exec .div (holding (d 5 0) 0) = .next ((holding (d 5 0) 0).complete (divResult (d 5 0) 0)) ∧
    (divResult (d 5 0) 0).code = .zeroDivision ∧ (fromfResult 0x7F800000).code = .convertingError ∧
    (xdownResult (x (2 ^ 96) 0)).code = .positiveInf ∧ (xclsResult (x (2 ^ 96) 0 true)).code = .negativeInf ∧
    (xaddResult (x (2 ^ 224 - 1) 0) (x (2 ^ 224 - 1) 0)).ovf = true ∧
    (xaddResult (x (2 ^ 224 - 1) 0) (x (2 ^ 224 - 1) 0)).x96 = true ∧
    (fbldResult (x (2 ^ 23) 0)).code = .invalidOperand ∧ Instr.fbld ∉ [Instr.dzero, .fromi, .fromf, .fxtr] :=
  ⟨rfl, rfl, by decide +kernel, by decide +kernel, by decide, by decide +kernel, by decide +kernel, by decide +kernel, by decide +kernel,
    by decide +kernel⟩

theorem witness_EveryListedCodeAndOverflowIsProduced :
    (Instr.round 28).wf = true ∧ Instr.div ∈ [Instr.xdown, .xcls, .add, .sub, .mul, .div] ∧
    Instr.div ∈ [Instr.xdiv, .xfdiv, .div, .mod] ∧ Instr.toi ∈ [Instr.fromf, .toi] ∧
    (Instr.round 28 ∉ [Instr.dzero, .fromi, .fromf, .fxtr] ∧
      ∀ k, Instr.round 28 ∉ [Instr.btst k, .bset k, .bclr k, .bflp k]) ∧
    Instr.xdec ∈ [Instr.xadd, .xmul, .xmul10, .xinc, .xnorm, .xdec] ∧
    ∃ n, Instr.xshl 1 = .xshl n ∧ 0 < n.toNat := by
  refine ⟨rfl, by decide, by decide, by decide, ⟨by decide, ?_⟩, by decide, 1, rfl, by decide⟩
  intro k; simp

theorem witness_InvalidOperandIsReported : Instr.neg.wf = true ∧ (Instr.round 28).wf = true ∧ Instr.add.wf = true ∧
    Instr.xzero.wf = true ∧ Instr.xnorm.wf = true ∧ NoDecimal ∧ NoRegister :=
  ⟨rfl, rfl, rfl, rfl, rfl, noDecimal_rejected, noRegister_rejected⟩

theorem witness_BitPrimitivesActOnOneBit : (31#8).toNat ≤ 31 ∧ (0#8).toNat ≤ 31 := by decide

theorem witness_XaddSumWithCarry :
    HoldsXr ⟨2 ^ 224 - 1, 255, true⟩ ⟨1, 0, false⟩ ∧ NoRegister :=
  ⟨by decide +kernel, noRegister_rejected⟩

theorem witness_XsubMagnitudeAndBorrow :
    HoldsXr ⟨0, 9, true⟩ ⟨2 ^ 224 - 1, 255, true⟩ ∧ NoRegister :=
  ⟨by decide +kernel, noRegister_rejected⟩

theorem witness_ShiftsScaleByPowersOfTwo :
    HoldsXr ⟨2 ^ 224 - 1, 255, true⟩ ⟨0, 0, false⟩ ∧ NoRegister :=
  ⟨by decide +kernel, noRegister_rejected⟩

theorem witness_ExtendedPredicates :
    HoldsXr ⟨2 ^ 224 - 1, 255, true⟩ ⟨0, 9, true⟩ ∧ NoRegister :=
  ⟨by decide +kernel, noRegister_rejected⟩

theorem witness_XsgnclrClearsTheSign :
    HoldsXr ⟨2 ^ 224 - 1, 255, true⟩ ⟨0, 0, false⟩ ∧ NoRegister :=
  ⟨by decide +kernel, noRegister_rejected⟩

theorem witness_RippleChainsAgreeWithTheArithmetic :
    (2 ^ 224 - 1 : Nat) = (2 ^ 256 - 1 : Image).toNat % 2 ^ 224 ∧ (1 : Nat) = (1 : Image).toNat % 2 ^ 224 := by
  decide +kernel

theorem witness_XmulAndTimesTen :
    HoldsXr ⟨2 ^ 224 - 1, 255, true⟩ ⟨2 ^ 224 - 1, 255, true⟩ ∧ NoRegister :=
  ⟨by decide +kernel, noRegister_rejected⟩

theorem witness_ShiftAndAddAgreesWithTheProduct :
    (2 ^ 224 - 1 : Nat) < 2 ^ 224 ∧ (2 ^ 223 + 1 : Nat) < 2 ^ 224 := by decide +kernel

/-- A divisor that is not zero, a signed zero divisor, an invalid operand. -/
theorem witness_XdivQuotientAndRemainder :
    (HoldsXr ⟨2 ^ 224 - 1, 255, true⟩ ⟨3, 0, false⟩ ∧ (3 : Nat) ≠ 0 ∧
    HoldsXr ⟨5, 3, false⟩ ⟨0, 9, true⟩) ∧ NoRegister :=
  ⟨by decide +kernel, noRegister_rejected⟩

theorem witness_RestoringDividerAgreesWithTheQuotient :
    (2 ^ 224 - 1 : Nat) < 2 ^ 224 ∧ (0 : Nat) < 10 := by decide +kernel

theorem witness_XfdivFractionalQuotient :
    (HoldsXr ⟨2 ^ 224 - 1, 255, true⟩ ⟨3, 0, false⟩ ∧ (3 : Nat) ≠ 0 ∧
    HoldsXr ⟨5, 3, false⟩ ⟨0, 9, true⟩) ∧ NoRegister :=
  ⟨by decide +kernel, noRegister_rejected⟩

theorem witness_XwidenIsLossless :
    HoldsDec ⟨2 ^ 96 - 1, 28, true⟩ ⟨0, 0, false⟩ ∧ NoDecimal :=
  ⟨by decide +kernel, noDecimal_rejected⟩

theorem witness_XdownRemovesFewestDigits :
    (HoldsXr ⟨2 ^ 224 - 1, 255, true⟩ ⟨0, 0, false⟩ ∧
    HoldsXr ⟨2 ^ 96, 0, false⟩ ⟨0, 0, false⟩) ∧ NoRegister :=
  ⟨by decide +kernel, noRegister_rejected⟩

theorem witness_WidenThenDowncastIsTheIdentity :
    HoldsDec ⟨2 ^ 96 - 1, 28, true⟩ ⟨0, 0, false⟩ :=
  by decide +kernel

theorem witness_XnormRaisesTheLowerScale :
    (HoldsXr ⟨15, 1, false⟩ ⟨225, 2, false⟩ ∧
    HoldsXr ⟨2 ^ 96 - 1, 0, false⟩ ⟨5, 1, false⟩) ∧ NoRegister :=
  ⟨by decide +kernel, noRegister_rejected⟩

theorem witness_XincAndXdec :
    (HoldsXr ⟨2 ^ 224 - 1, 255, true⟩ ⟨0, 0, false⟩ ∧
    HoldsXr ⟨7, 0, false⟩ ⟨0, 0, false⟩ ∧
    HoldsXr ⟨125, 3, true⟩ ⟨0, 0, false⟩ ∧ (3 : Nat) ≠ 0) ∧ NoRegister :=
  ⟨by decide +kernel, noRegister_rejected⟩

theorem witness_XclsClassifiesTheValue :
    (HoldsXr ⟨2 ^ 96 - 1, 40, true⟩ ⟨0, 0, false⟩ ∧ (2 ^ 96 - 1) ≤ max96 ∧
    HoldsXr ⟨2 ^ 96, 0, true⟩ ⟨0, 0, false⟩ ∧ max96 < 2 ^ 96) ∧ NoRegister :=
  ⟨by decide +kernel, noRegister_rejected⟩

theorem witness_DecimalAccessorsRead :
    (HoldsDec ⟨2 ^ 96 - 1, 28, true⟩ ⟨0, 0, false⟩ ∧
    (95#8).toNat ≤ 95 ∧ (0#8).toNat ≤ 95) ∧ NoDecimal :=
  ⟨by decide +kernel, noDecimal_rejected⟩

theorem witness_DecimalMutatorsReplaceOneField :
    (HoldsDec ⟨2 ^ 96 - 1, 28, true⟩ ⟨0, 0, false⟩ ∧
    (1#8).toNat ≤ 1 ∧ (28#8).toNat ≤ 28 ∧ (95#7).toNat ≤ 95) ∧ NoDecimal :=
  ⟨by decide +kernel, noDecimal_rejected⟩

theorem witness_AddAlignsAddsAndDowncasts :
    (HoldsDec ⟨2 ^ 96 - 1, 0, false⟩ ⟨1, 28, false⟩ ∧
    HoldsDec ⟨15, 1, false⟩ ⟨225, 2, true⟩) ∧ NoDecimal :=
  ⟨by decide +kernel, noDecimal_rejected⟩

/-- Like signs with a sum of exactly `MAX96`, and unlike signs at different scales. -/
theorem witness_AddIsExactWhenTheScalesMeet :
    HoldsDec ⟨2 ^ 96 - 2, 0, false⟩ ⟨1, 0, false⟩ ∧
    2 ^ 96 - 2 = (2 ^ 96 - 2) * 10 ^ (max 0 0 - 0) ∧ 2 ^ 96 - 2 ≤ max96 ∧ 1 ≤ max96 ∧ 2 ^ 96 - 2 + 1 ≤ max96 ∧
    HoldsDec ⟨15, 1, false⟩ ⟨225, 2, true⟩ ∧
    150 = 15 * 10 ^ (max 1 2 - 1) ∧ 225 = 225 * 10 ^ (max 1 2 - 2) ∧ 150 ≤ max96 ∧ 225 ≤ max96 :=
  by decide +kernel

theorem witness_SubIsAddOfTheNegation :
    (HoldsDec ⟨2 ^ 96 - 1, 0, false⟩ ⟨2 ^ 96 - 1, 28, true⟩ ∧
      IsDec (d (2 ^ 96 - 1) 28) ⟨2 ^ 96 - 1, 28, !true⟩) ∧ NoDecimal :=
  ⟨by decide +kernel, noDecimal_rejected⟩

theorem witness_MulRoundsTheExactProductOnce :
    HoldsDec ⟨2 ^ 96 - 1, 28, true⟩ ⟨2 ^ 96 - 1, 28, true⟩ ∧ NoDecimal :=
  ⟨by decide +kernel, noDecimal_rejected⟩

theorem witness_DivGeneratesTheFractionalDigits :
    (HoldsDec ⟨2 ^ 96 - 1, 0, false⟩ ⟨3, 28, true⟩ ∧ (3 : Nat) ≠ 0 ∧
    HoldsDec ⟨5, 3, false⟩ ⟨0, 9, true⟩) ∧ NoDecimal :=
  ⟨by decide +kernel, noDecimal_rejected⟩

theorem witness_ModIsTheExactRemainder :
    (HoldsDec ⟨2 ^ 96 - 1, 0, false⟩ ⟨3, 28, true⟩ ∧ (3 : Nat) ≠ 0 ∧
    HoldsDec ⟨5, 3, false⟩ ⟨0, 9, true⟩) ∧ NoDecimal :=
  ⟨by decide +kernel, noDecimal_rejected⟩

theorem witness_NegationSumsToZeroAndOneIsNeutral :
    HoldsDec ⟨2 ^ 96 - 1, 28, true⟩ ⟨0, 0, false⟩ ∧ IsDec (d (2 ^ 96 - 1) 28) ⟨2 ^ 96 - 1, 28, !true⟩ :=
  by decide +kernel

/-- The scales of this pair meet, so the last clause speaks of it. -/
theorem witness_AddFromExtendedCommands :
    HoldsDec ⟨15, 1, false⟩ ⟨225, 2, true⟩ :=
  by decide +kernel

theorem witness_MulAndDivFromExtendedCommands :
    HoldsDec ⟨15, 0, false⟩ ⟨225, 28, true⟩ ∧ (225 : Nat) ≠ 0 ∧ HoldsDec ⟨15, 2, false⟩ ⟨0, 0, true⟩ :=
  by decide +kernel

theorem witness_ComparatorOrdersTheValues :
    HoldsDec ⟨2 ^ 96 - 1, 0, false⟩ ⟨1, 28, false⟩ ∧ NoDecimal :=
  ⟨by decide +kernel, noDecimal_rejected⟩

theorem witness_TruncAndFloor :
    (HoldsDec ⟨5, 1, true⟩ ⟨0, 0, false⟩ ∧
    HoldsDec ⟨2 ^ 96 - 1, 28, true⟩ ⟨0, 0, false⟩) ∧ NoDecimal :=
  ⟨by decide +kernel, noDecimal_rejected⟩

theorem witness_RoundAndNegate :
    (HoldsDec ⟨15, 28, false⟩ ⟨0, 0, false⟩ ∧ (27#8).toNat < 28 ∧ 28 ≤ (28#8).toNat ∧ (28#8).toNat ≤ 28) ∧
      NoDecimal :=
  ⟨by decide +kernel, noDecimal_rejected⟩

theorem witness_RoundingIsNearestEvenAndDigitSerial : NearestEven 25 (10 ^ 1) 2 ∧ NearestEven 35 (10 ^ 1) 4 ∧
    1 ≤ (1 : Nat) := by decide +kernel

/-- The four ends of the range of TOI and both ends of FROMI. -/
theorem witness_IntegerConversions :
    (let s := holding 0x80000000 0
     (-2 ^ 31 : ℤ) = if lowWord s.opa < 2 ^ 31 then (lowWord s.opa : ℤ) else (lowWord s.opa : ℤ) - 2 ^ 32) ∧
    (let s := holding (d (2 ^ 31 - 1) 0) 0
     IsDec s.opa ⟨2 ^ 31 - 1, 0, false⟩ ∧ (2 ^ 31 - 1 : ℤ) = ((2 ^ 31 - 1) / 10 ^ 0 : Nat)) ∧
    (let s := holding (d (2 ^ 31) 0) 0
     IsDec s.opa ⟨2 ^ 31, 0, false⟩ ∧ ¬(-2 ^ 31 ≤ (2 ^ 31 : ℤ) ∧ (2 ^ 31 : ℤ) ≤ 2 ^ 31 - 1)) ∧
    (let s := holding (d (2 ^ 31) 0 true) 0
     IsDec s.opa ⟨2 ^ 31, 0, true⟩ ∧ -2 ^ 31 ≤ (-2 ^ 31 : ℤ)) ∧
    (let s := holding (d (2 ^ 31 + 1) 0 true) 0
     IsDec s.opa ⟨2 ^ 31 + 1, 0, true⟩ ∧ ¬(-2 ^ 31 ≤ (-(2 ^ 31 + 1) : ℤ))) ∧
    ¬∃ t, IsDec (holding noDecimal 0).opa t :=
  ⟨by decide +kernel, by decide +kernel, by decide +kernel, by decide +kernel, by decide +kernel,
    noDecimal_invalid⟩

/-- FXTR of an infinity; FBLD of the largest legal fields, and of each field one too large. -/
theorem witness_FloatFieldsTakenApartAndPutTogether :
    (let y := lowWord (holding 0xFF800000 0).opa
     0 = y % 2 ^ 23 ∧ 255 = y / 2 ^ 23 % 2 ^ 8) ∧
    (let p := (holding (2 ^ 64 + 255 * 2 ^ 32 + (2 ^ 23 - 1)) 0).opa
     p.toNat % 2 ^ 32 < 2 ^ 23 ∧ p.toNat / 2 ^ 32 % 2 ^ 32 < 256 ∧ p.toNat / 2 ^ 64 % 2 ^ 32 < 2) ∧
    ¬((2 ^ 23 : Image).toNat % 2 ^ 32 < 2 ^ 23) ∧ ¬((256 * 2 ^ 32 : Image).toNat / 2 ^ 32 % 2 ^ 32 < 256) ∧
    ¬((2 ^ 65 : Image).toNat / 2 ^ 64 % 2 ^ 32 < 2) := by decide +kernel

/-- The edges of the three clauses: an infinity, `2^96`, the largest float below it, exponent 0 scaled by one
half, the smallest subnormal. -/
theorem witness_FromfIsTheNearestDecimal :
    (let y := lowWord (holding 0x7F800000 0).opa
     y / 2 ^ 23 % 2 ^ 8 = 255) ∧
    (let y := lowWord (holding 0x6F800000 0).opa
     y / 2 ^ 23 % 2 ^ 8 = 223 ∧ max96 < (2 ^ 23 + y % 2 ^ 23) * 2 ^ (223 - 150)) ∧
    (let y := lowWord (holding 0x6F7FFFFF 0).opa
     y / 2 ^ 23 % 2 ^ 8 = 222 ∧ (2 ^ 23 + y % 2 ^ 23) * 2 ^ (222 - 150) ≤ max96) ∧
    (let y := lowWord (holding 0x4AFFFFFF 0).opa
     y / 2 ^ 23 % 2 ^ 8 = 149) ∧
    (let y := lowWord (holding 1 0).opa
     y / 2 ^ 23 % 2 ^ 8 = 0) := by decide +kernel

theorem witness_TofIsTheNearestFloat :
    (HoldsDec ⟨0, 28, true⟩ ⟨0, 0, false⟩ ∧
    HoldsDec ⟨2 ^ 96 - 1, 28, true⟩ ⟨0, 0, false⟩ ∧ (2 ^ 96 - 1) ≠ 0 ∧
    HoldsDec ⟨1, 28, false⟩ ⟨0, 0, false⟩) ∧ NoDecimal :=
  ⟨by decide +kernel, noDecimal_rejected⟩

/-- A signed zero, the lowest and the highest exponent. -/
theorem witness_FloatRoundTrip :
    (let y := lowWord (holding 0x80000000 0).opa
     y / 2 ^ 23 % 2 ^ 8 = 0 ∧ y % 2 ^ 23 = 0) ∧
    (let y := lowWord (holding 0x3D7FFFFF 0).opa
     y / 2 ^ 23 % 2 ^ 8 = 122) ∧
    (let y := lowWord (holding 0x6F7FFFFF 0).opa
     y / 2 ^ 23 % 2 ^ 8 = 222) := by decide +kernel

end Sys2Proof.Tests
end

section
/-! SUPPORT. One step of the core, an equation per branch (spec rules R17 to R19, R25, R26, R191), and the proofs of
the statements of 10_state.md: the handshake, the two invariants of a run, and what a completion depends on. -/

namespace Sys2Proof.Machine

/-! ### The coming drive -/

@[simp] theorem State.drive_cons (s : State) (d : HostDrive) (rest : List HostDrive) :
    ({ s with host := d :: rest } : State).drive = d := rfl

theorem State.drive_of_host {s : State} {d : HostDrive} {rest : List HostDrive} (h : s.host = d :: rest) :
    s.drive = d := by
  rw [State.drive, h]

theorem State.readsTooEarly_of_not_collect {s : State} (h : s.drive.collect = false) : s.readsTooEarly = false := by
  rw [State.readsTooEarly, h, Bool.false_and]

theorem State.readsTooEarly_of_done {s : State} (h : s.done = true) : s.readsTooEarly = false := by
  rw [State.readsTooEarly, h, Bool.not_true, Bool.and_false]

/-- The first drive of a quiet host asserts neither `rst` nor a read, and the host stays quiet after it. -/
theorem QuietHost.first {s : State} {n : Nat} (h : QuietHost s.host (n + 1)) :
    s.drive.rst = false ∧ s.drive.collect = false ∧ QuietHost s.host.tail n := by
  unfold State.drive
  cases hh : s.host with
  | nil => exact ⟨rfl, rfl, by simp [QuietHost]⟩
  | cons d ds =>
    rw [hh, QuietHost, List.take_succ_cons, List.forall_mem_cons] at h
    obtain ⟨⟨hrst, hcollect⟩, hrest⟩ := h
    exact ⟨hrst, hcollect, hrest⟩

/-! ### The step, branch by branch -/

theorem step_of_readsTooEarly {s : State} (h : s.readsTooEarly = true) : step s = .fault .outputReadUndefined :=
  if_pos h

theorem step_eq_driven {s : State} (h : s.readsTooEarly = false) : step s = driven s.drive s.advanceHost := by
  rw [step, handshakeStep, h]; rfl

theorem step_reset {s : State} (h : s.readsTooEarly = false) (hrst : s.drive.rst = true) :
    step s = .next s.advanceHost.resetPulse := by
  rw [step_eq_driven h, driven, if_pos hrst]

theorem step_complete {s : State} (h : s.readsTooEarly = false) (hrst : s.drive.rst = false) (hb : s.busy = true)
    (hp : s.progress = 0) : step s = runLatched s.advanceHost := by
  simp [step_eq_driven h, driven, hrst, hb, hp]

theorem step_wait {s : State} (h : s.readsTooEarly = false) (hrst : s.drive.rst = false) (hb : s.busy = true)
    (hp : s.progress ≠ 0) : step s = .next s.advanceHost.wait := by
  simp [step_eq_driven h, driven, hrst, hb, hp]

theorem step_accept {s : State} (h : s.readsTooEarly = false) (hrst : s.drive.rst = false) (hb : s.busy = false)
    (hs : s.drive.start = true) : step s = .next (s.advanceHost.accept s.drive) := by
  simp [step_eq_driven h, driven, hrst, hb, hs]

theorem step_idle {s : State} (h : s.readsTooEarly = false) (hrst : s.drive.rst = false) (hb : s.busy = false)
    (hs : s.drive.start = false) : step s = .next s.advanceHost := by
  simp [step_eq_driven h, driven, hrst, hb, hs]

/-- Only an early read keeps a step from answering a next state: no command traps (R176, R184). -/
theorem step_next_of_not_readsTooEarly {s : State} (h : s.readsTooEarly = false) : ∃ t, step s = .next t := by
  cases hrst : s.drive.rst with
  | true => exact ⟨_, step_reset h hrst⟩
  | false =>
    cases hb : s.busy with
    | true =>
      by_cases hp : s.progress = 0
      · obtain ⟨r, -, hr⟩ := runLatched_eq_complete s.advanceHost
        exact ⟨_, (step_complete h hrst hb hp).trans hr⟩
      · exact ⟨_, step_wait h hrst hb hp⟩
    | false =>
      cases hs : s.drive.start with
      | true => exact ⟨_, step_accept h hrst hb hs⟩
      | false => exact ⟨_, step_idle h hrst hb hs⟩

/-- While busy only `rst` is looked at (R17, R19, R191). -/
theorem driven_eq_of_busy {s : State} {d e : HostDrive} (hb : s.busy = true) (hrst : d.rst = e.rst) :
    driven d s = driven e s := by
  simp [driven, hb, hrst]

/-- The completing step leaves the latches and a legal status word (R17, R18, R59). -/
theorem runLatched_completed (s : State) : ∃ t, runLatched s = .next t ∧ Completed s t ∧ StatusLegal t.status := by
  obtain ⟨r, hr, e⟩ := runLatched_eq_complete s
  exact ⟨_, e, completed_complete s r, hr.statusLegal⟩

theorem runLatched_of_decode {s : State} {i : Instr} (h : decode s.cmd = .ok i) : runLatched s = exec i s := by
  rw [runLatched, h]

/-! ### The invariants of a run -/

theorem State.inv_of_not_done {s : State} (h : s.done = false) : s.Inv := by
  simp [State.Inv, h]

theorem State.outputsOfLatches_of_not_done {s : State} (h : s.done = false) : s.OutputsOfLatches := by
  simp [State.OutputsOfLatches, h]

theorem State.Inv.not_done_of_busy {s : State} (h : s.Inv) (hb : s.busy = true) : s.done = false := by
  obtain ⟨hexcl, -⟩ := h
  simpa [hb] using hexcl

/-- Settles O12: of the five kinds of step only a completion and an idle step end with `DONE = 1`, and a completion
writes the status word of a sound result. -/
theorem stepKeepsHandshakeAndStatus : Obligations.StepKeepsHandshakeAndStatus := by
  intro s t hi h
  obtain ⟨-, ⟨-, rfl⟩ | ⟨-, -, -, hrun⟩ | ⟨-, hb, -, rfl⟩ | ⟨-, -, -, rfl⟩ | ⟨-, -, -, rfl⟩⟩ := step_cases h
  case inl => exact State.inv_of_not_done rfl
  case inr.inl =>
    obtain ⟨t', e, ⟨hbusy, -⟩, hlegal⟩ := runLatched_completed s.advanceHost
    cases hrun.symm.trans e
    exact ⟨by simp [hbusy], fun _ => hlegal⟩
  case inr.inr.inl => exact State.inv_of_not_done (hi.not_done_of_busy hb)
  case inr.inr.inr.inl => exact State.inv_of_not_done rfl
  case inr.inr.inr.inr => exact hi

/-- Settles O14: a completion is itself the run of the latched command, since it keeps the latches; an idle step keeps
the run the state before had; every other step ends with `DONE = 0`, a waiting step because a busy core is not done. -/
theorem stepKeepsOutputsOfLatches : Obligations.StepKeepsOutputsOfLatches := by
  intro s t hi ho h
  obtain ⟨-, ⟨-, rfl⟩ | ⟨-, -, -, hrun⟩ | ⟨-, hb, -, rfl⟩ | ⟨-, -, -, rfl⟩ | ⟨-, -, -, rfl⟩⟩ := step_cases h
  case inl => exact State.outputsOfLatches_of_not_done rfl
  case inr.inl =>
    obtain ⟨t', e, ⟨-, -, hcmd, hopa, hopb, -⟩, -⟩ := runLatched_completed s.advanceHost
    cases hrun.symm.trans e
    exact fun _ => ⟨s.advanceHost, t, hcmd.symm, hopa.symm, hopb.symm, hrun, rfl, rfl, rfl⟩
  case inr.inr.inl => exact State.outputsOfLatches_of_not_done (hi.not_done_of_busy hb)
  case inr.inr.inr.inl => exact State.outputsOfLatches_of_not_done rfl
  case inr.inr.inr.inr => exact ho

/-! ### A running command -/

/-- A command with `p` waiting steps left stays busy for `p` more steps under a quiet host, and the step after them
completes it. -/
theorem run_busy_then_completed (p : Nat) (s : State) (hb : s.busy = true) (hd : s.done = false) (hp : s.progress = p)
    (hq : QuietHost s.host (p + 1)) :
    (∀ k ≤ p, ∃ t : State, Host.Core.run Sys2Proof.core k s = .next t ∧ t.busy = true ∧ t.done = false) ∧
    ∃ t : State, Host.Core.run Sys2Proof.core (p + 1) s = .next t ∧
      t.busy = false ∧ t.done = true ∧ t.cmd = s.cmd ∧ t.opa = s.opa ∧ t.opb = s.opb := by
  induction p generalizing s with
  | zero =>
    obtain ⟨hrst, hcollect, -⟩ := hq.first
    obtain ⟨t, e, ⟨hbusy, hdone, hcmd, hopa, hopb, -⟩, -⟩ := runLatched_completed s.advanceHost
    have hstep := (step_complete (State.readsTooEarly_of_not_collect hcollect) hrst hb hp).trans e
    refine ⟨fun k hk => ⟨s, ?_, hb, hd⟩, t, run_first 0 s t hstep, hbusy, hdone, hcmd, hopa, hopb⟩
    rw [Nat.le_zero.1 hk]; rfl
  | succ p ih =>
    obtain ⟨hrst, hcollect, hrest⟩ := hq.first
    have hstep := step_wait (State.readsTooEarly_of_not_collect hcollect) hrst hb (by omega)
    obtain ⟨hwait, t, hrun, hcompleted⟩ := ih s.advanceHost.wait hb hd (by simp [hp]) hrest
    refine ⟨fun k hk => ?_, t, (run_first _ _ _ hstep).trans hrun, hcompleted⟩
    cases k with
    | zero => exact ⟨s, rfl, hb, hd⟩
    | succ k =>
      rw [run_first _ _ _ hstep]
      exact hwait k (by omega)

/-- Settles O15: the accepting step, then the running command by induction on its waiting steps. -/
theorem everyAcceptedCommandCompletes : Obligations.EveryAcceptedCommandCompletes := by
  intro s d rest hb hhost hstart hrst hread hq
  obtain rfl := State.drive_of_host hhost
  have hstep := step_accept hread hrst hb hstart
  obtain ⟨hbusy, hdone⟩ := run_busy_then_completed _ (s.advanceHost.accept s.drive) rfl rfl rfl
    (by simpa [hhost, Config.latency] using hq)
  refine ⟨fun k hk1 hk => ?_, ?_⟩
  · obtain ⟨k, rfl⟩ := Nat.exists_eq_add_of_le' hk1
    rw [run_first _ _ _ hstep]
    exact hbusy k (Nat.le_of_succ_le_succ hk)
  · rw [run_first _ _ _ hstep]
    exact hdone

/-! ### What a completion depends on -/

/-- The low three bits of a result's status word are its code (R59, R60). -/
theorem Result.statusWord_mod_eight (r : Result) : r.statusWord.toNat % 8 = r.code.bits.toNat := by
  have hword : r.statusWord.toNat = r.code.bits.toNat + 256 * r.ovf.toNat + 512 * r.x96.toNat :=
    statusWord_is r.code r.ovf r.x96
  have hcode := r.code.bits.isLt
  omega

/-- A sound result whose status word has code 0, 1 or 2 fixes both images: no free value is drawn (R185). -/
theorem Result.Sound.images_of_code_lt {r : Result} (h : r.Sound) (hc : r.statusWord.toNat % 8 < 3) (m n : Nat) :
    r.resAt m = r.resAt n ∧ r.res2At m = r.res2At n := by
  rw [r.statusWord_mod_eight] at hc
  obtain ⟨-, o, ho⟩ | ⟨hcode, -⟩ := h
  · simp [Result.resAt, Result.res2At, ho]
  · omega

/-- Settles O16: both states complete with the same result, a function of the latched operands. -/
theorem outputsDependOnTheLatchesOnly : Obligations.OutputsDependOnTheLatchesOnly := by
  intro i s u ha hb
  obtain ⟨f, hf, e⟩ := exec_eq_complete i
  have eu : exec i u = .next (u.complete (f s.opa s.opb)) := by rw [ha, hb]; exact e u
  exact ⟨_, _, e s, eu, rfl, fun hc => (hf s.opa s.opb).images_of_code_lt hc s.draw u.draw⟩

/-- Settles O17: every meaning is one completion of a sound result. -/
theorem everyCommandEndsInACompletion : Obligations.EveryCommandEndsInACompletion := by
  intro i s
  obtain ⟨f, hf, e⟩ := exec_eq_complete i
  exact ⟨_, e s, completed_complete s _, (hf s.opa s.opb).statusLegal⟩

/-! ### Single steps of the handshake -/

theorem decode_of_decodeTableWord {w : Nat} {i : Instr} (h : decodeTableWord 32 w = some i) :
    decode (BitVec.ofNat 32 (w % 2 ^ 32)) = .ok i := by
  rw [decodeTableWord, if_pos (Nat.mod_lt _ (by decide))] at h
  cases hd : decode (BitVec.ofNat 32 (w % 2 ^ 32)) with
  | ok j => rw [hd] at h; cases h; rfl
  | error e => rw [hd] at h; cases h

/-- Before a loaded command's completing step the host drives nothing (log 5). -/
theorem State.loadCommand_drive (s : State) (c : Word) : (s.loadCommand c).drive = HostDrive.idle := by
  unfold State.loadCommand State.drive
  cases s.host <;> rfl

theorem step_eq_exec_of_decode {s : State} {i : Instr} (hb : s.busy = true) (hp : s.progress = 0)
    (hrst : s.drive.rst = false) (hcollect : s.drive.collect = false) (hi : decode s.cmd = .ok i) :
    step s = exec i s.advanceHost :=
  (step_complete (State.readsTooEarly_of_not_collect hcollect) hrst hb hp).trans (runLatched_of_decode hi)

/-- Settles O5: `withFetchWord` leaves a busy core with no waiting step and a host that drives nothing. -/
theorem stepRunsDecodedInstruction : Obligations.StepRunsDecodedInstruction := by
  refine ⟨fun s i => step_eq_exec_of_decode, fun s w i hi => ?_⟩
  have hdrive : (s.withFetchWord 32 w).drive = HostDrive.idle := s.loadCommand_drive _
  exact step_eq_exec_of_decode rfl rfl (by rw [hdrive]; rfl) (by rw [hdrive]; rfl) (decode_of_decodeTableWord hi)

/-- Settles O7: the step is `State.accept` of the coming drive. -/
theorem startLatchesThePorts : Obligations.StartLatchesThePorts := by
  intro s hb hstart hrst hread
  exact ⟨_, step_accept hread hrst hb hstart, rfl, rfl, rfl, rfl, rfl, rfl, rfl⟩

/-- Settles O8: the two drives differ in nothing that the early-read test or a busy step looks at; a waiting step is
`State.wait`. -/
theorem busyCoreIgnoresThePorts : Obligations.BusyCoreIgnoresThePorts := by
  constructor
  · intro s d e rest hb hrst hcollect
    have hreads : ({ s with host := d :: rest } : State).readsTooEarly =
        ({ s with host := e :: rest } : State).readsTooEarly := by
      simp only [State.readsTooEarly, State.drive_cons, hcollect]
    cases hread : ({ s with host := e :: rest } : State).readsTooEarly with
    | true => rw [step_of_readsTooEarly (hreads.trans hread), step_of_readsTooEarly hread]
    | false =>
      rw [step_eq_driven (hreads.trans hread), step_eq_driven hread]
      exact driven_eq_of_busy (s := { s with host := rest }) hb hrst
  · intro s hb hp hrst hcollect
    exact ⟨_, step_wait (State.readsTooEarly_of_not_collect hcollect) hrst hb (by omega), hb, rfl, rfl, rfl, rfl,
      Nat.succ_pred_eq_of_pos hp, rfl⟩

/-- Settles O9: the step is `State.resetPulse`. -/
theorem resetPulseAbandonsTheCommand : Obligations.ResetPulseAbandonsTheCommand := by
  intro s hrst hread
  exact ⟨_, step_reset hread hrst, rfl, rfl, rfl⟩

theorem State.readOutput_of_done {α : Type} {s : State} (h : s.done = true) (register : State → α) :
    s.readOutput register = .ok (register s) :=
  if_pos h

/-- Settles O10: the early-read test decides between the fault and a next state, and with `DONE = 1` it is false
whether or not the host reads. -/
theorem onlyEarlyReadsFault : Obligations.OnlyEarlyReadsFault := by
  refine ⟨fun s hcollect hd => ?_, fun s h => ?_, fun s d rest hd => ⟨?_, ?_, ?_, ?_⟩⟩
  · exact step_of_readsTooEarly (by simp [State.readsTooEarly, hcollect, hd])
  · exact step_next_of_not_readsTooEarly (h.elim State.readsTooEarly_of_not_collect State.readsTooEarly_of_done)
  · have hdriven (ds : List HostDrive) : step { s with host := ds } =
        driven ({ s with host := ds } : State).drive { s with host := ds.tail } :=
      step_eq_driven (State.readsTooEarly_of_done hd)
    rw [hdriven, hdriven]
    rfl
  · exact State.readOutput_of_done hd _
  · exact State.readOutput_of_done hd _
  · exact State.readOutput_of_done hd _

/-- Settles O11: the step is `State.advanceHost`. -/
theorem idleCoreHoldsItsRegisters : Obligations.IdleCoreHoldsItsRegisters := by
  intro s hb hstart hrst hread
  exact step_idle hread hrst hb hstart

/-- Settles O13: with `DONE = 0` both invariants ask nothing of the outputs. -/
theorem resetIsIdleAndMeetsTheInvariants : Obligations.ResetIsIdleAndMeetsTheInvariants :=
  ⟨rfl, rfl, State.inv_of_not_done rfl, State.outputsOfLatches_of_not_done rfl⟩

end Sys2Proof.Machine
end

section
/-! SUPPORT. The decoder and the encoder, case by case (spec rules R41 to R44, R47), and the proofs of the statements of
30_encoding.md about command words. -/

namespace Sys2Proof

/-! ### The three readings of an immediate -/

theorem ranged_of_le {top : Nat} {imm : BitVec 8} (h : imm.toNat ≤ top) (mk : BitVec 8 → Instr) :
    ranged top imm mk = .ok (mk imm) :=
  if_pos h

theorem ranged_eq_ok {top : Nat} {imm : BitVec 8} {mk : BitVec 8 → Instr} {i : Instr}
    (h : ranged top imm mk = .ok i) : imm.toNat ≤ top ∧ mk imm = i := by
  unfold ranged at h
  split at h
  · exact ⟨‹_›, Except.ok.inj h⟩
  · cases h

theorem plain_eq_ok {imm : BitVec 8} {j i : Instr} (h : plain imm j = .ok i) : imm = 0 ∧ j = i := by
  unfold plain at h
  split at h
  · exact ⟨‹_›, Except.ok.inj h⟩
  · cases h

/-- `imm8` of DSBIT put together from the new bit and the bit index is taken apart into them (R123). -/
theorem bitChoice_append {b : Bool} {k : BitVec 7} (h : k.toNat ≤ 95) :
    bitChoice (BitVec.ofBool b ++ k) = .ok (.dsbit b k) := by
  have hindex : (BitVec.ofBool b ++ k).extractLsb' 0 7 = k := by
    apply BitVec.eq_of_toNat_eq
    rw [Machine.toNat_field, Machine.toNat_append_add]
    have := k.isLt
    omega
  have hbit : (BitVec.ofBool b ++ k).getLsbD 7 = b := by
    rw [BitVec.getLsbD_append]
    cases b <;> rfl
  rw [bitChoice, hindex, hbit, if_pos h]

theorem bitChoice_eq_ok {imm : BitVec 8} {i : Instr} (h : bitChoice imm = .ok i) :
    ∃ (b : Bool) (k : BitVec 7), k.toNat ≤ 95 ∧ imm = BitVec.ofBool b ++ k ∧ .dsbit b k = i := by
  unfold bitChoice at h
  split at h
  · refine ⟨_, _, ‹_›, ?_, Except.ok.inj h⟩
    apply BitVec.eq_of_toNat_eq
    rw [Machine.toNat_append_add, Machine.toNat_ofBool, Machine.getLsbD_eq_bit, Machine.toNat_field]
    have := imm.isLt
    omega
  · cases h

/-! ### Words and their fields -/

/-- The fields determine the word and the word its fields (R41). -/
theorem commandWord_inj {op op' imm imm' : BitVec 8} (h : commandWord op imm = commandWord op' imm') :
    op = op' ∧ imm = imm' := by
  obtain ⟨-, hop, himm⟩ := fields_commandWord op imm
  obtain ⟨-, hop', himm'⟩ := fields_commandWord op' imm'
  exact ⟨by rw [← hop, h, hop'], by rw [← himm, h, himm']⟩

theorem decode_eq_ok {c : Word} {i : Instr} (h : decode c = .ok i) :
    reservedField c = 0 ∧ decodeFields (opcodeField c) (immField c) = .ok i := by
  unfold decode at h
  split at h
  · exact ⟨‹_›, h⟩
  · cases h

/-- A word with an immediate in front of an opcode is read by that opcode's row of the map. -/
theorem decode_ofNat (imm : BitVec 8) (op : Nat) (h : op < 256) :
    decode (BitVec.ofNat 32 (imm.toNat * 256 + op)) = decodeFields (BitVec.ofNat 8 op) imm := by
  rw [ofNat_eq_commandWord imm op h, decode_commandWord]

/-! ### The encoding of an instruction -/

/-- `i` is the well-formed instruction whose command word has the given opcode and immediate (R43, R47). -/
def EncodedAs (i : Instr) (op imm : BitVec 8) : Prop := i.wf = true ∧ encode i = commandWord op imm

theorem EncodedAs.of_plain {n : Nat} {op imm : BitVec 8} {j i : Instr} (hop : op.toNat = n)
    (h : plain imm j = .ok i) (hj : EncodedAs j (BitVec.ofNat 8 n) 0) : EncodedAs i op imm := by
  subst hop
  obtain ⟨rfl, rfl⟩ := plain_eq_ok h
  rwa [BitVec.ofNat_toNat, BitVec.setWidth_eq] at hj

theorem EncodedAs.of_ranged {n top : Nat} {op imm : BitVec 8} {mk : BitVec 8 → Instr} {i : Instr}
    (hop : op.toNat = n) (h : ranged top imm mk = .ok i)
    (hmk : ∀ k : BitVec 8, k.toNat ≤ top → EncodedAs (mk k) (BitVec.ofNat 8 n) k) : EncodedAs i op imm := by
  subst hop
  obtain ⟨hle, rfl⟩ := ranged_eq_ok h
  have hj := hmk imm hle
  rwa [BitVec.ofNat_toNat, BitVec.setWidth_eq] at hj

/-- A shift takes every count. -/
theorem EncodedAs.of_shift {n : Nat} {op imm : BitVec 8} {mk : BitVec 8 → Instr} {i : Instr}
    (hop : op.toNat = n) (h : Except.ok (ε := DecodeError) (mk imm) = .ok i)
    (hmk : ∀ k : BitVec 8, EncodedAs (mk k) (BitVec.ofNat 8 n) k) : EncodedAs i op imm :=
  of_ranged hop ((ranged_of_le (Nat.le_of_lt_succ imm.isLt) mk).trans h) fun k _ => hmk k

theorem EncodedAs.of_bitChoice {op imm : BitVec 8} {i : Instr} (hop : op.toNat = 0x4E)
    (h : bitChoice imm = .ok i) : EncodedAs i op imm := by
  obtain ⟨b, k, hk, rfl, rfl⟩ := bitChoice_eq_ok h
  obtain rfl : op = 0x4E := BitVec.eq_of_toNat_eq hop
  exact ⟨decide_eq_true hk, rfl⟩

/-- The opcode map row by row, in its own order: what a row delivers is encoded with that row's opcode. -/
theorem encodedAs_of_decodeFields {op imm : BitVec 8} {i : Instr} (h : decodeFields op imm = .ok i) :
    EncodedAs i op imm := by
  unfold decodeFields at h
  split at h
  -- BTST to BFLP
  iterate 4 exact .of_ranged ‹_› h fun k hk => ⟨decide_eq_true hk, rfl⟩
  -- XADD, XSUB, then the two shifts
  iterate 2 exact .of_plain ‹_› h ⟨rfl, rfl⟩
  iterate 2 exact .of_shift ‹_› h fun k => ⟨rfl, rfl⟩
  -- XGT to DGSIGN
  iterate 17 exact .of_plain ‹_› h ⟨rfl, rfl⟩
  -- DSSIGN, DGSCALE
  · exact .of_ranged ‹_› h fun k hk => ⟨decide_eq_true hk, rfl⟩
  · exact .of_plain ‹_› h ⟨rfl, rfl⟩
  -- DSSCALE, DGBIT, DSBIT
  iterate 2 exact .of_ranged ‹_› h fun k hk => ⟨decide_eq_true hk, rfl⟩
  · exact .of_bitChoice ‹_› h
  -- ADD to FLOOR, ROUND, TRUNC to FBLD
  iterate 12 exact .of_plain ‹_› h ⟨rfl, rfl⟩
  · exact .of_ranged ‹_› h fun k hk => ⟨decide_eq_true hk, rfl⟩
  iterate 8 exact .of_plain ‹_› h ⟨rfl, rfl⟩
  -- no other opcode is assigned
  · cases h

/-- Settles O1: the decoder reads the two fields the encoder writes, and a well-formed immediate passes the range check
of its opcode's row. -/
theorem decodeOfEncode : Obligations.DecodeOfEncode := by
  intro i hwf
  cases i with
  | btst k | bset k | bclr k | bflp k | dssign k | dsscale k | dgbit k | round k =>
    exact (decode_commandWord _ _).trans (ranged_of_le (of_decide_eq_true hwf) _)
  | dsbit b k => exact (decode_commandWord _ _).trans (bitChoice_append (of_decide_eq_true hwf))
  | _ => exact decode_commandWord _ _

/-- Settles O2: every row of the opcode map inverts the encoder, and a word with no reserved bit is its fields. -/
theorem decodedWordIsTheEncoding : Obligations.DecodedWordIsTheEncoding := by
  intro c i h
  obtain ⟨hres, hfields⟩ := decode_eq_ok h
  obtain ⟨hwf, henc⟩ := encodedAs_of_decodeFields hfields
  exact ⟨hwf, henc.trans (commandWord_fields hres)⟩

/-! ### The legal command words -/

/-- The opcodes of format C0, which take no immediate (R42, R47). -/
def plainOpcodes : List Nat :=
  [0x20, 0x21, 0x24, 0x25, 0x26, 0x27, 0x28, 0x30, 0x31, 0x32, 0x33, 0x40, 0x41, 0x42, 0x43, 0x44, 0x45,
    0x48, 0x49, 0x4B, 0x50, 0x51, 0x52, 0x53, 0x54, 0x60, 0x61, 0x62, 0x63, 0x64, 0x65, 0x70, 0x72, 0x73,
    0x80, 0x81, 0x82, 0x83, 0x84, 0x85]

/-- An opcode of R47 with an immediate in the range R43 gives it. -/
def LegalFields (op imm : Nat) : Prop :=
  imm = 0 ∧ op ∈ plainOpcodes ∨ op ∈ [0x10, 0x11, 0x12, 0x13] ∧ imm ≤ 31 ∨ op ∈ [0x22, 0x23] ∨
    op = 0x4A ∧ imm ≤ 1 ∨ op ∈ [0x4C, 0x71] ∧ imm ≤ 28 ∨ op = 0x4D ∧ imm ≤ 95 ∨ op = 0x4E ∧ imm % 128 ≤ 95

theorem EncodedAs.fields {i : Instr} {op imm op' imm' : BitVec 8} (h : EncodedAs i op imm)
    (he : encode i = commandWord op' imm') : op = op' ∧ imm = imm' := by
  obtain ⟨-, henc⟩ := h
  exact commandWord_inj (henc.symm.trans he)

/-- What is encoded has legal fields, constructor by constructor. -/
theorem EncodedAs.legalFields {i : Instr} {op imm : BitVec 8} (h : EncodedAs i op imm) :
    LegalFields op.toNat imm.toNat := by
  have ⟨hwf, _⟩ := h
  cases i with
  | btst k | bset k | bclr k | bflp k | dssign k | dsscale k | dgbit k | round k =>
    obtain ⟨rfl, rfl⟩ := h.fields rfl
    have hk := of_decide_eq_true hwf
    simp [LegalFields, hk]
  | dsbit b k =>
    obtain ⟨rfl, rfl⟩ := h.fields rfl
    have hk : k.toNat ≤ 95 := of_decide_eq_true hwf
    have himm : (BitVec.ofBool b ++ k).toNat % 128 = k.toNat := by
      rw [Machine.toNat_append_add]; omega
    simp [LegalFields, himm, hk]
  | xshl n | xshr n =>
    obtain ⟨rfl, rfl⟩ := h.fields rfl
    simp [LegalFields]
  | _ =>
    obtain ⟨rfl, rfl⟩ := h.fields rfl
    simp [LegalFields, plainOpcodes]

theorem decodeFields_of_plainOpcodes :
    ∀ op ∈ plainOpcodes, ∃ i, decodeFields (BitVec.ofNat 8 op) 0 = .ok i := by
  simp only [plainOpcodes, List.forall_mem_cons]
  and_intros
  iterate 40 exact ⟨_, rfl⟩
  simp

/-- Fields in the range of one row of the map are read by that row. -/
theorem decodeFields_of_legalFields {op imm : BitVec 8} (h : LegalFields op.toNat imm.toNat) :
    ∃ i, decodeFields op imm = .ok i := by
  have hop : BitVec.ofNat 8 op.toNat = op := by simp
  simp only [LegalFields, List.mem_cons, List.not_mem_nil, or_false] at h
  rw [← hop]
  obtain ⟨himm, hmem⟩ | ⟨hmem | hmem | hmem | hmem, hle⟩ | (hmem | hmem) | ⟨hmem, hle⟩ |
    ⟨hmem | hmem, hle⟩ | ⟨hmem, hle⟩ | ⟨hmem, hle⟩ := h
  case inl =>
    obtain rfl : imm = 0 := BitVec.eq_of_toNat_eq himm
    exact decodeFields_of_plainOpcodes _ hmem
  all_goals rw [hmem]
  iterate 4 exact ⟨_, ranged_of_le hle _⟩
  iterate 2 exact ⟨_, rfl⟩
  iterate 4 exact ⟨_, ranged_of_le hle _⟩
  exact ⟨_, if_pos (by rwa [Machine.toNat_field, Nat.pow_zero, Nat.div_one])⟩

/-- Settles O3: by O2's row-by-row reading, what decodes has the fields of an encoding; conversely legal fields select
a row and pass its range check. -/
theorem legalWordsAreTheOpcodeMap : Obligations.LegalWordsAreTheOpcodeMap := by
  intro c
  obtain ⟨hres, himm, hop⟩ := fields_toNat c
  change (∃ i, decode c = .ok i) ↔ c.toNat < 2 ^ 16 ∧ LegalFields (c.toNat % 256) (c.toNat / 256)
  constructor
  · rintro ⟨i, h⟩
    obtain ⟨hzero, hfields⟩ := decode_eq_ok h
    have hlt : c.toNat < 2 ^ 16 := by rw [hzero] at hres; simp at hres; omega
    have hlegal := (encodedAs_of_decodeFields hfields).legalFields
    rw [hop, himm, Nat.mod_eq_of_lt (a := c.toNat / 256) (by omega)] at hlegal
    exact ⟨hlt, hlegal⟩
  · rintro ⟨hlt, hlegal⟩
    have hzero : reservedField c = 0 := BitVec.eq_of_toNat_eq (by rw [hres]; simp; omega)
    rw [decode, if_pos hzero]
    apply decodeFields_of_legalFields
    rwa [hop, himm, Nat.mod_eq_of_lt (a := c.toNat / 256) (by omega)]

/-- Settles O4: each word is read by its row. -/
theorem specWordsDecode : Obligations.SpecWordsDecode := by
  unfold Obligations.SpecWordsDecode
  decide

end Sys2Proof
end

section
/-! SUPPORT. What each command may report (spec rules R60 to R62), that it reports nothing else and that it reports all
of it, and the proofs of the statements about INVALID_OPERAND and ILLEGAL_COMMAND, SUB, ROUND and NEG. -/

namespace Sys2Proof.Machine

/-! ### The lists of R60, R61 and R62 -/

/-- The commands R60 lists under a status code; code 7 is the decoder's. -/
@[simp] def Reports (i : Instr) (c : StatusCode) : Prop :=
  match c with
  | .success => True
  | .positiveInf | .negativeInf => i ∈ [.xdown, .xcls, .add, .sub, .mul, .div]
  | .zeroDivision => i ∈ [.xdiv, .xfdiv, .div, .mod]
  | .convertingError => i ∈ [.fromf, .toi]
  | .invalidOperand => i ∉ [.dzero, .fromi, .fromf, .fxtr] ∧ ∀ k, i ∉ [.btst k, .bset k, .bclr k, .bflp k]
  | .illegalCommand => False

/-- The commands R61 lists under `OVF`. -/
@[simp] def MayOverflow (i : Instr) : Prop :=
  i ∈ [.xadd, .xmul, .xmul10, .xinc, .xnorm, .xdec] ∨ ∃ n, i = .xshl n

/-- The commands whose `res` is an XREG256 image (R62). -/
@[simp] def DeliversRegister (i : Instr) : Prop :=
  i ∈ [.xadd, .xsub, .xsgnclr, .xmul, .xmul10, .xdiv, .xfdiv, .xwiden, .xnorm, .xinc, .xdec, .xcls] ∨
    ∃ n, i = .xshl n ∨ i = .xshr n

/-- A result with a code and flags that command `i` may report. -/
structure Result.Within (r : Result) (i : Instr) : Prop where
  code : Reports i r.code
  ovf : r.ovf = true → MayOverflow i
  x96 (draw : Nat) :
    r.x96 = true ↔ r.code.bits.toNat < 3 ∧ DeliversRegister i ∧ max96 < (r.resAt draw).toNat % 2 ^ 224

section
variable {i : Instr} {c : StatusCode}

theorem within_error (h3 : 3 ≤ c.bits.toNat) (hc : Reports i c) : (Result.error c).Within i :=
  ⟨hc, nofun, fun _ => ⟨nofun, fun ⟨h, _⟩ => absurd h3 (Nat.not_le.2 h)⟩⟩

theorem within_plain {p : Image} (hc : Reports i c) (hi : ¬DeliversRegister i) : (Result.plain c p).Within i :=
  ⟨hc, nofun, fun _ => ⟨nofun, fun ⟨_, h, _⟩ => absurd h hi⟩⟩

theorem exceeds96_iff (p : Image) : exceeds96 p = true ↔ max96 < p.toNat % 2 ^ 224 := by
  rw [exceeds96, decide_eq_true_iff, xr, toNat_field, Nat.pow_zero, Nat.div_one]

theorem within_extended {ovf : Bool} {p q : Image} (hlt : c.bits.toNat < 3) (hc : Reports i c)
    (hi : DeliversRegister i) (ho : ovf = true → MayOverflow i) : (Result.extended c ovf p q).Within i :=
  ⟨hc, ho, fun _ => (exceeds96_iff p).trans ⟨fun h => ⟨hlt, hi, h⟩, fun ⟨_, _, h⟩ => h⟩⟩

theorem within_invalidOperand (hi : Reports i .invalidOperand) : (Result.error .invalidOperand).Within i :=
  within_error (by decide) hi

theorem within_legal {p : Prop} [Decidable p] {r : Result} (hp : decide p = true) (h : r.Within i) :
    (Result.legal (decide p) r).Within i := by
  rwa [legal_eq (of_decide_eq_true hp)]

theorem within_withDec {a : Image} {k : Triple → Result} (hi : Reports i .invalidOperand)
    (h : ∀ x, (k x).Within i) : (withDec a k).Within i := by
  unfold withDec
  split
  · exact h _
  · exact within_invalidOperand hi

theorem within_withDec2 {a b : Image} {k : Triple → Triple → Result} (hi : Reports i .invalidOperand)
    (h : ∀ x y, (k x y).Within i) : (withDec2 a b k).Within i := by
  unfold withDec2
  split
  · exact h _ _
  · exact within_invalidOperand hi

theorem within_withXr {a : Image} {k : Triple → Result} (hi : Reports i .invalidOperand)
    (h : ∀ x, (k x).Within i) : (withXr a k).Within i := by
  unfold withXr
  split
  · exact h _
  · exact within_invalidOperand hi

theorem within_withXr2 {a b : Image} {k : Triple → Triple → Result} (hi : Reports i .invalidOperand)
    (h : ∀ x y, (k x y).Within i) : (withXr2 a b k).Within i := by
  unfold withXr2
  split
  · exact h _ _
  · exact within_invalidOperand hi

theorem reports_infinityCode (hi : Reports i .positiveInf) (sg : Bool) : Reports i (infinityCode sg) := by
  cases sg <;> exact hi

/-- A downcast ends with SUCCESS or with the infinity of the sign (R102). -/
theorem within_deliver (t : Triple) (hinf : Reports i .positiveInf) (hi : ¬DeliversRegister i) :
    (deliver t).Within i := by
  apply within_plain _ hi
  obtain ⟨k, -, -, -, -, e⟩ | ⟨-, e⟩ := downcast_cases t
  · rw [e]; trivial
  · rw [e]; exact reports_infinityCode hinf t.sg

theorem within_zeroDivision_or {y : Triple} {r : Result} (hz : Reports i .zeroDivision) (h : r.Within i) :
    (if y.v = 0 then Result.error .zeroDivision else r).Within i := by
  split
  · exact within_error (by decide) hz
  · exact h

end

/-- FROMF answers CONVERTING_ERROR or a Decimal image with SUCCESS (R165). -/
theorem fromfResult_cases (a : Image) :
    fromfResult a = Result.error .convertingError ∨ ∃ p, fromfResult a = Result.plain .success p := by
  unfold fromfResult
  dsimp only
  split
  · exact .inl rfl
  · exact .inl rfl
  · exact .inr ⟨_, rfl⟩
  all_goals
    split
    · split
      · exact .inl rfl
      · exact .inr ⟨_, rfl⟩
    · exact .inr ⟨_, rfl⟩

/-- Every command completes with a code and flags from its lists. -/
theorem exec_within (i : Instr) (s : State) (hwf : i.wf = true) :
    ∃ r : Result, exec i s = .next (s.complete r) ∧ r.Within i := by
  cases i with
  | btst k | bset k | bclr k | bflp k =>
    exact ⟨_, rfl, within_legal hwf (within_plain trivial (by simp))⟩
  | xadd | xmul | xnorm =>
    exact ⟨_, rfl, within_withXr2 (by simp) fun x y => within_extended (by decide) trivial (by simp) (by simp)⟩
  | xsub =>
    exact ⟨_, rfl, within_withXr2 (by simp) fun x y => within_extended (by decide) trivial (by simp) nofun⟩
  | xshl n | xmul10 | xinc =>
    exact ⟨_, rfl, within_withXr (by simp) fun x => within_extended (by decide) trivial (by simp) (by simp)⟩
  | xshr n | xsgnclr =>
    exact ⟨_, rfl, within_withXr (by simp) fun x => within_extended (by decide) trivial (by simp) nofun⟩
  | xgt | xeq => exact ⟨_, rfl, within_withXr2 (by simp) fun x y => within_plain trivial (by simp)⟩
  | xzero | xisneg => exact ⟨_, rfl, within_withXr (by simp) fun x => within_plain trivial (by simp)⟩
  | xdiv | xfdiv =>
    exact ⟨_, rfl, within_withXr2 (by simp) fun x y =>
      within_zeroDivision_or (by simp) (within_extended (by decide) trivial (by simp) nofun)⟩
  | xwiden =>
    exact ⟨_, rfl, within_withDec (by simp) fun x => within_extended (by decide) trivial (by simp) nofun⟩
  | xdown => exact ⟨_, rfl, within_withXr (by simp) fun x => within_deliver x (by simp) (by simp)⟩
  | xdec =>
    refine ⟨_, rfl, within_withXr (by simp) fun x => ?_⟩
    split
    · exact within_extended (by decide) trivial (by simp) (by simp)
    · exact within_extended (by decide) trivial (by simp) (by simp)
  | xcls =>
    refine ⟨_, rfl, within_withXr (by simp) fun x => ?_⟩
    split
    · exact within_extended (by decide) trivial (by simp) nofun
    · exact within_extended (infinityCode_lt _) (reports_infinityCode (by simp) _) (by simp) nofun
  | dzero | fromi | fxtr => exact ⟨_, rfl, within_plain trivial (by simp)⟩
  | dgsign | dgscale | floor | trunc | neg | tof =>
    exact ⟨_, rfl, within_withDec (by simp) fun x => within_plain trivial (by simp)⟩
  | dssign k | dsscale k | dgbit k | dsbit b k =>
    exact ⟨_, rfl, within_legal hwf (within_withDec (by simp) fun x => within_plain trivial (by simp))⟩
  | round ts =>
    refine ⟨_, rfl, within_legal hwf (within_withDec (by simp) fun x => ?_)⟩
    split <;> exact within_plain trivial (by simp)
  | add | sub | mul =>
    exact ⟨_, rfl, within_withDec2 (by simp) fun x y => within_deliver _ (by simp) (by simp)⟩
  | div =>
    exact ⟨_, rfl, within_withDec2 (by simp) fun x y =>
      within_zeroDivision_or (by simp) (within_deliver _ (by simp) (by simp))⟩
  | mod =>
    exact ⟨_, rfl, within_withDec2 (by simp) fun x y =>
      within_zeroDivision_or (by simp) (within_plain trivial (by simp))⟩
  | clt | cle | cgt | cge | ceq | cne =>
    exact ⟨_, rfl, within_withDec2 (by simp) fun x y => within_plain trivial (by simp)⟩
  | fromf =>
    refine ⟨_, rfl, ?_⟩
    obtain e | ⟨p, e⟩ := fromfResult_cases s.opa
    · rw [e]; exact within_error (by decide) (by simp)
    · rw [e]; exact within_plain trivial (by simp)
  | toi =>
    refine ⟨_, rfl, within_withDec (by simp) fun x => ?_⟩
    dsimp only
    split
    · exact within_error (by decide) (by simp)
    · exact within_plain trivial (by simp)
  | fbld =>
    refine ⟨fbldResult s.opa, rfl, ?_⟩
    unfold fbldResult
    split
    · exact within_plain trivial (by simp)
    · exact within_invalidOperand (by simp)

/-! ### The fields of a status word -/

theorem StatusCode.bits_inj {c d : StatusCode} (h : c.bits.toNat = d.bits.toNat) : c = d := by
  cases c <;> cases d <;> revert h <;> decide

theorem StatusCode.bits_ne_six (c : StatusCode) : c.bits.toNat ≠ 6 := by
  cases c <;> decide

theorem Reports.of_bits {i : Instr} {c d : StatusCode} (h : Reports i c) (hb : c.bits.toNat = d.bits.toNat) :
    Reports i d :=
  StatusCode.bits_inj hb ▸ h

/-- Bit 8 of a result's status word is `OVF` and bit 9 is `X96` (R59). -/
theorem Result.statusWord_flags (r : Result) :
    (r.statusWord.toNat / 256 % 2 = 1 ↔ r.ovf = true) ∧ (r.statusWord.toNat / 512 % 2 = 1 ↔ r.x96 = true) := by
  have hword : r.statusWord.toNat = r.code.bits.toNat + 256 * r.ovf.toNat + 512 * r.x96.toNat :=
    statusWord_is r.code r.ovf r.x96
  have hcode := r.code.bits.isLt
  rw [← Bool.toNat_eq_one, ← Bool.toNat_eq_one]
  have := r.ovf.toNat_le
  have := r.x96.toNat_le
  omega

/-- Settles O18: the result a command completes with keeps to its lists, and the status word holds that result's code
and flags. -/
theorem codesAndFlagsComeFromTheirCommands : Obligations.CodesAndFlagsComeFromTheirCommands := by
  intro i s t hwf h
  obtain ⟨r, e, hcode, hovf, hx96⟩ := exec_within i s hwf
  cases h.symm.trans e
  obtain ⟨hovfBit, hx96Bit⟩ := r.statusWord_flags
  simp only [State.complete_status, State.complete_res, r.statusWord_mod_eight, hovfBit, hx96Bit]
  refine ⟨hcode.of_bits (d := .zeroDivision), hcode.of_bits (d := .convertingError), ?_,
    hcode.of_bits (d := .invalidOperand), r.code.bits_ne_six, hcode.of_bits (d := .illegalCommand), hovf,
    hx96 s.draw⟩
  rintro (hb | hb)
  · exact hcode.of_bits (d := .positiveInf) hb
  · exact hcode.of_bits (d := .negativeInf) hb

/-! ### Operands on which a listed code or flag appears -/

theorem producesCode_of_exec {i : Instr} {s : State} {r : Result} (c : StatusCode)
    (h : exec i s = .next (s.complete r)) (hr : r.code = c) : ProducesCode i c.bits.toNat :=
  ⟨s, _, h, by rw [State.complete_status, r.statusWord_mod_eight, hr]⟩

/-- A state with the given operand latches. -/
def latching (a b : Image) : State := { State.reset with opa := a, opb := b }

theorem producesCode_of_legal {i : Instr} {s : State} {p : Prop} [Decidable p] {r : Result} (c : StatusCode)
    (hp : decide p = true) (h : exec i s = .next (s.complete (Result.legal (decide p) r))) (hr : r.code = c) :
    ProducesCode i c.bits.toNat :=
  producesCode_of_exec c h (by rwa [legal_eq (of_decide_eq_true hp)])

/-- The image 1 is valid in every format: the value, mantissa, integer or fraction 1. -/
theorem producesCode_success {i : Instr} (hwf : i.wf = true) : ProducesCode i 0 := by
  cases i with
  | btst k | bset k | bclr k | bflp k | dssign k | dsscale k | dgbit k | dsbit b k | round k =>
    exact producesCode_of_legal (s := latching 1 1) .success hwf rfl rfl
  | _ => exact producesCode_of_exec (s := latching 1 1) .success rfl rfl

/-- The image with every bit set is invalid in every format. -/
theorem producesCode_invalidOperand {i : Instr} (hwf : i.wf = true) (hi : Reports i .invalidOperand) :
    ProducesCode i 5 := by
  cases i with
  | btst k | bset k | bclr k | bflp k | dzero | fromi | fromf | fxtr => simp at hi
  | dssign k | dsscale k | dgbit k | dsbit b k | round k =>
    exact producesCode_of_legal (s := latching (-1) (-1)) .invalidOperand hwf rfl rfl
  | _ => exact producesCode_of_exec (s := latching (-1) (-1)) .invalidOperand rfl rfl

/-- A value of `2^96`, twice `MAX96`, its square and `MAX96 / 10^-28` saturate with either sign. -/
theorem producesCode_infinity (sg : Bool) {i : Instr} (hi : Reports i .positiveInf) :
    ProducesCode i (infinityCode sg).bits.toNat := by
  simp only [Reports, List.mem_cons, List.not_mem_nil, or_false] at hi
  obtain rfl | rfl | rfl | rfl | rfl | rfl := hi
  case inl | inr.inl =>
    apply producesCode_of_exec (s := latching (xrImg ⟨2 ^ 96, 0, sg⟩) 0) _ rfl
    cases sg <;> rfl
  case inr.inr.inl =>
    apply producesCode_of_exec (s := latching (decImg ⟨max96, 0, sg⟩) (decImg ⟨max96, 0, sg⟩)) _ rfl
    cases sg <;> rfl
  case inr.inr.inr.inl =>
    apply producesCode_of_exec (s := latching (decImg ⟨max96, 0, sg⟩) (decImg ⟨max96, 0, !sg⟩)) _ rfl
    cases sg <;> rfl
  case inr.inr.inr.inr.inl =>
    apply producesCode_of_exec (s := latching (decImg ⟨max96, 0, sg⟩) (decImg ⟨max96, 0, false⟩)) _ rfl
    cases sg <;> rfl
  case inr.inr.inr.inr.inr =>
    apply producesCode_of_exec (s := latching (decImg ⟨max96, 0, sg⟩) (decImg ⟨1, 28, false⟩)) _ rfl
    cases sg <;> rfl

/-- The image 0 is a zero divisor in both formats. -/
theorem producesCode_zeroDivision {i : Instr} (hi : Reports i .zeroDivision) : ProducesCode i 3 := by
  simp only [Reports, List.mem_cons, List.not_mem_nil, or_false] at hi
  obtain rfl | rfl | rfl | rfl := hi <;>
    exact producesCode_of_exec (s := latching 1 0) .zeroDivision rfl rfl

/-- The float infinity has no Decimal and the Decimal `2^31` no native integer. -/
theorem producesCode_convertingError {i : Instr} (hi : Reports i .convertingError) : ProducesCode i 4 := by
  simp only [Reports, List.mem_cons, List.not_mem_nil, or_false] at hi
  obtain rfl | rfl := hi
  · exact producesCode_of_exec (s := latching 0x7F800000 0) .convertingError rfl rfl
  · exact producesCode_of_exec (s := latching (decImg ⟨2 ^ 31, 0, false⟩) 0) .convertingError rfl rfl

/-- The largest value at scale 0 and the value 2 at scale 1. -/
def overflowing : State := latching (xrImg ⟨2 ^ 224 - 1, 0, false⟩) (xrImg ⟨2, 1, false⟩)

theorem setsOvf_of_exec {i : Instr} {s : State} {r : Result} (h : exec i s = .next (s.complete r))
    (hr : r.ovf = true) : ∃ s t, exec i s = .next t ∧ t.status.toNat / 256 % 2 = 1 :=
  ⟨s, _, h, r.statusWord_flags.1.2 hr⟩

/-- A left shift of the largest value by at least one position loses a bit (R81). -/
theorem xshl_overflowing {n : BitVec 8} (hn : 0 < n.toNat) :
    (xshlResult n overflowing.opa).ovf = true := by
  have hx : IsXr overflowing.opa ⟨2 ^ 224 - 1, 0, false⟩ := isXr_xrImg _ (by decide) (by decide)
  rw [xshlResult, withXr_valid hx]
  have hpow : 2 ^ 1 ≤ 2 ^ n.toNat := Nat.pow_le_pow_right (by decide) hn
  have hlarge : (2 ^ 224 - 1) * 2 ^ 1 ≤ (2 ^ 224 - 1) * 2 ^ n.toNat := Nat.mul_le_mul_left _ hpow
  exact decide_eq_true (Nat.le_trans (by decide) hlarge)

/-- Settles O19: one operand image or pair for each list. -/
theorem everyListedCodeAndOverflowIsProduced : Obligations.EveryListedCodeAndOverflowIsProduced := by
  refine ⟨fun i => producesCode_success,
    fun i hi => ⟨producesCode_infinity false hi, producesCode_infinity true hi⟩,
    fun i => producesCode_zeroDivision, fun i => producesCode_convertingError,
    fun i hwf hformat hbit => producesCode_invalidOperand hwf ⟨hformat, hbit⟩, ?_⟩
  rintro i (hi | ⟨n, rfl, hn⟩)
  · simp only [List.mem_cons, List.not_mem_nil, or_false] at hi
    obtain rfl | rfl | rfl | rfl | rfl | rfl := hi <;> exact setsOvf_of_exec (s := overflowing) rfl rfl
  · exact setsOvf_of_exec (s := overflowing) rfl (xshl_overflowing hn)

/-! ### Invalid operands -/

/-- The commands of one Decimal operand without an immediate reject an invalid one. -/
theorem rejects_of_invalid_dec {s : State} (h : ¬∃ x, IsDec s.opa x) :
    ∀ i ∈ [Instr.xwiden, .dgsign, .dgscale, .floor, .trunc, .neg, .toi, .tof], Rejects i s := by
  intro i hi
  fin_cases hi <;> exact rejects_of rfl (withDec_invalid h _)

/-- The commands of two Decimal operands reject an invalid one. -/
theorem rejects_of_invalid_dec2 {s : State} (h : (¬∃ x, IsDec s.opa x) ∨ ¬∃ y, IsDec s.opb y) :
    ∀ i ∈ [Instr.add, .sub, .mul, .div, .mod, .clt, .cle, .cgt, .cge, .ceq, .cne], Rejects i s := by
  intro i hi
  fin_cases hi <;> exact rejects_of rfl (withDec2_invalid h _)

/-- The commands of one register operand without an immediate reject an invalid one. -/
theorem rejects_of_invalid_xr {s : State} (h : ¬∃ x, IsXr s.opa x) :
    ∀ i ∈ [Instr.xzero, .xisneg, .xsgnclr, .xmul10, .xdown, .xinc, .xdec, .xcls], Rejects i s := by
  intro i hi
  fin_cases hi <;> exact rejects_of rfl (withXr_invalid h _)

/-- The commands of two register operands reject an invalid one. -/
theorem rejects_of_invalid_xr2 {s : State} (h : (¬∃ x, IsXr s.opa x) ∨ ¬∃ y, IsXr s.opb y) :
    ∀ i ∈ [Instr.xadd, .xsub, .xgt, .xeq, .xmul, .xdiv, .xfdiv, .xnorm], Rejects i s := by
  intro i hi
  fin_cases hi <;> exact rejects_of rfl (withXr2_invalid h _)

/-- Settles O20: every command of a format checks its operands of that format before anything else, a legal immediate
of its own aside. -/
theorem invalidOperandIsReported : Obligations.InvalidOperandIsReported := by
  intro i s hwf
  refine ⟨fun hi h => ?_, fun hi h => rejects_of_invalid_dec2 h i hi, fun hi h => ?_,
    fun hi h => rejects_of_invalid_xr2 h i hi⟩
  · obtain hi | ⟨k, rfl | rfl | rfl | rfl⟩ | ⟨b, k, rfl⟩ := hi
    case inl => exact rejects_of_invalid_dec h i hi
    all_goals exact rejects_of rfl (legal_withDec_invalid (of_decide_eq_true hwf) h _)
  · obtain hi | ⟨n, rfl | rfl⟩ := hi
    case inl => exact rejects_of_invalid_xr h i hi
    all_goals exact rejects_of rfl (withXr_invalid h _)

/-! ### Illegal words -/

theorem runLatched_of_decode_error {s : State} {e : DecodeError} (h : decode s.cmd = .error e) :
    runLatched s = .next s.completeIllegal := by
  rw [runLatched, h]

/-- Settles O6: the completing step of such a word is `State.completeIllegal`. -/
theorem illegalWordCompletes : Obligations.IllegalWordCompletes := by
  intro s e hb hp hrst hcollect he
  have hstep := step_complete (State.readsTooEarly_of_not_collect hcollect) hrst hb hp
  exact ⟨_, hstep.trans (runLatched_of_decode_error he), statusWord_is .illegalCommand false false,
    completed_complete _ _⟩

/-! ### SUB, ROUND and NEG -/

/-- Settles O44: on valid operands both commands deliver one and the same Decimal sum (R131). -/
theorem subIsAddOfTheNegation : Obligations.SubIsAddOfTheNegation := by
  refine ⟨by decide, fun s => ⟨fun x y q hx hy hq => ?_, fun h => rejects_of rfl (withDec2_invalid h _)⟩⟩
  have hsub : subResult s.opa s.opb = deliver (decimalSum x (negate y)) := withDec2_valid hx hy _
  have hadd : addResult s.opa q = deliver (decimalSum x (negate y)) := withDec2_valid hx hq _
  have hexec : exec .sub s = .next (s.complete (addResult s.opa q)) := by rw [hadd, ← hsub]; rfl
  refine ⟨_, _, hexec, rfl, ?_, ?_, rfl, completed_complete s _⟩
  · rw [hadd]; rfl
  · rw [hadd]; rfl

theorem rhe_le (v k : Nat) : rhe v k ≤ v := rhe_antitone v (Nat.zero_le k)

/-- ROUND on a valid Decimal at a legal target scale: the Decimal itself, or its magnitude rounded (R154). -/
theorem roundResult_valid {a : Image} {x : Triple} {ts : BitVec 8} (hx : IsDec a x) (hts : ts.toNat ≤ maxScale) :
    roundResult ts a = Result.plain .success
      (decImg (if x.sc ≤ ts.toNat then x else ⟨rhe x.v (x.sc - ts.toNat), ts.toNat, x.sg⟩)) := by
  rw [roundResult, legal_eq hts, withDec_valid hx]
  split <;> rfl

/-- Settles O53: the rounded mantissa is `rhe`, the nearest even, and no larger than the operand's. -/
theorem roundAndNegate : Obligations.RoundAndNegate := by
  refine ⟨fun ts hts => (decode_ofNat ts 0x71 (by decide)).trans (ranged_of_le hts _), by decide,
    fun s => ⟨fun x hx => ?_, fun h => ⟨fun ts hts => ?_, ?_⟩⟩⟩
  · have ⟨hv, hsc, _⟩ := hx
    refine ⟨fun ts hts => ?_, completes_of_plain rfl (withDec_valid hx _) ⟨isDecResult_decImg (negate x) hv hsc, rfl⟩⟩
    have hround := roundResult_valid hx hts
    refine ⟨fun hle => ?_, fun hlt => ⟨_, (nearestEven_iff_rhe _ _ _).2 rfl, ?_⟩⟩
    · rw [if_pos hle] at hround
      exact completes_of_plain rfl hround ⟨isDecResult_decImg x hv hsc, rfl⟩
    · rw [if_neg (Nat.not_le.2 hlt)] at hround
      have hfits := Nat.lt_of_le_of_lt (rhe_le x.v (x.sc - ts.toNat)) hv
      exact completes_of_plain rfl hround ⟨isDecResult_decImg _ hfits hts, rfl⟩
  · exact rejects_of rfl (legal_withDec_invalid hts h _)
  · exact rejects_of rfl (withDec_invalid h _)

end Sys2Proof.Machine
end

section
/-! SUPPORT. The bits of the one-bit mask and of a word on a port, and the proof of the statement of 40_bit_primitives.md
(spec rules R71 to R75). -/

namespace Sys2Proof.Machine

/-! ### Words bit by bit -/

theorem testBit_lowWord (p : Image) (j : Nat) : (lowWord p).testBit j = (word p 0).getLsbD j := by
  rw [lowWord_eq, BitVec.testBit_toNat]

/-- Among the 32 bits of a word the mask has bit `i` alone. -/
theorem getLsbD_bitMask (i : Nat) {j : Nat} (hj : j < 32) : (bitMask i).getLsbD j = decide (j = i) := by
  rw [bitMask, BitVec.getLsbD_shiftLeft, BitVec.getLsbD_one, Bool.eq_iff_iff]
  simp only [Bool.and_eq_true, Bool.not_eq_true', decide_eq_true_eq, decide_eq_false_iff_not]
  omega

/-- A meaning whose result is a word with SUCCESS, the word given by its bits. -/
theorem completes_of_wordBits {i : Instr} {s : State} {r : Result} {w : Word} {bit : Nat → Bool}
    (h : exec i s = .next (s.complete r)) (hr : r = Result.plain .success (wordImg w))
    (hw : ∀ j, j < 32 → w.getLsbD j = bit j) :
    Completes i s 0 false false fun p q =>
      p.toNat < 2 ^ 32 ∧ q = 0 ∧ ∀ j, j < 32 → p.toNat.testBit j = bit j := by
  refine completes_of_plain h hr ?_
  rw [toNat_wordImg]
  exact ⟨w.isLt, rfl, fun j hj => (BitVec.testBit_toNat w).trans (hw j hj)⟩

/-! ### The four commands -/

section
variable {i : BitVec 8} (hi : i.toNat ≤ 31) (s : State)
include hi

/-- BTST delivers bit `i` as a truth value (R72). -/
theorem completes_btst : Completes (.btst i) s 0 false false fun p q =>
    p.toNat = ((lowWord s.opa).testBit i.toNat).toNat ∧ q = 0 := by
  refine completes_of_plain rfl (legal_eq hi _) ⟨?_, rfl⟩
  rw [toNat_boolImg, testBit_lowWord]

/-- BSET: the `or` with the mask (R73). -/
theorem completes_bset : Completes (.bset i) s 0 false false fun p q => p.toNat < 2 ^ 32 ∧ q = 0 ∧
    ∀ j, j < 32 → p.toNat.testBit j = (decide (j = i.toNat) || (lowWord s.opa).testBit j) := by
  refine completes_of_wordBits rfl (legal_eq hi _) fun j hj => ?_
  rw [BitVec.getLsbD_or, getLsbD_bitMask _ hj, testBit_lowWord, Bool.or_comm]

/-- BCLR: the `and` with the complement of the mask, which within the word has every bit but `i` (R74). -/
theorem completes_bclr : Completes (.bclr i) s 0 false false fun p q => p.toNat < 2 ^ 32 ∧ q = 0 ∧
    ∀ j, j < 32 → p.toNat.testBit j = (decide (j ≠ i.toNat) && (lowWord s.opa).testBit j) := by
  refine completes_of_wordBits rfl (legal_eq hi _) fun j hj => ?_
  have hmask : (~~~bitMask i.toNat).getLsbD j = decide (j ≠ i.toNat) := by
    rw [BitVec.getLsbD_not, getLsbD_bitMask _ hj, decide_eq_true hj, Bool.true_and, decide_not]
  rw [BitVec.getLsbD_and, hmask, testBit_lowWord, Bool.and_comm]

/-- BFLP: the `xor` with the mask (R75). -/
theorem completes_bflp : Completes (.bflp i) s 0 false false fun p q => p.toNat < 2 ^ 32 ∧ q = 0 ∧
    ∀ j, j < 32 → p.toNat.testBit j = (decide (j = i.toNat) ^^ (lowWord s.opa).testBit j) := by
  refine completes_of_wordBits rfl (legal_eq hi _) fun j hj => ?_
  rw [BitVec.getLsbD_xor, getLsbD_bitMask _ hj, testBit_lowWord, Bool.xor_comm]

end

/-- Settles O21: the four command words decode by their rows of the opcode map, and each command is one of the
completions above. -/
theorem bitPrimitivesActOnOneBit : Obligations.BitPrimitivesActOnOneBit := by
  intro i hi
  refine ⟨?_, ?_, ?_, ?_,
    fun s => ⟨completes_btst hi s, completes_bset hi s, completes_bclr hi s, completes_bflp hi s⟩⟩
  all_goals exact (decode_ofNat i _ (by decide)).trans (ranged_of_le hi _)

end Sys2Proof.Machine
end

section
/-! SUPPORT. The completions of the extended commands as triples and truth values, and the proofs of the statements of
41_xreg_addsub_shift_cmp.md about them (spec rules R77 to R88). -/

namespace Sys2Proof.Machine

/-! ### Completions with a register or a truth value -/

/-- A meaning whose result is the image of a triple in range, with SUCCESS and second image 0. -/
theorem completes_of_register {i : Instr} {s : State} {r : Result} {ovf : Bool} {t : Triple}
    (h : exec i s = .next (s.complete r)) (hr : r = Result.extended .success ovf (xrImg t) 0)
    (hv : t.v < 2 ^ 224) (hsc : t.sc < 256) :
    Completes i s 0 ovf (decide (max96 < t.v)) fun p q => IsXr p t ∧ q = 0 :=
  have ht := isXr_xrImg t hv hsc
  completes_of_extended h hr t ht rfl ⟨ht, rfl⟩

/-- A meaning whose result is a truth value. -/
theorem completes_of_bool {i : Instr} {s : State} {r : Result} {b : Bool}
    (h : exec i s = .next (s.complete r)) (hr : r = Result.bool b) :
    Completes i s 0 false false fun p q => p.toNat = b.toNat ∧ q = 0 :=
  completes_of_plain h hr ⟨toNat_boolImg b, rfl⟩

/-- A meaning whose result is the truth value of a decidable proposition, as a number. -/
theorem completes_of_decide {i : Instr} {s : State} {r : Result} {c : Prop} [Decidable c]
    (h : exec i s = .next (s.complete r)) (hr : r = Result.bool (decide c)) :
    Completes i s 0 false false fun p q => p.toNat = (if c then 1 else 0) ∧ q = 0 := by
  have hnat : (decide c).toNat = if c then 1 else 0 := Bool.cond_decide c 1 0
  rw [← hnat]
  exact completes_of_bool h hr

/-! ### Sum and difference -/

/-- Settles O22: a valid pair takes `xaddResult` to the image of the sum modulo `2^224`. -/
theorem xaddSumWithCarry : Obligations.XaddSumWithCarry := by
  refine ⟨by decide, fun s => ⟨fun x y hx hy => ?_, fun h => rejects_of_invalid_xr2 h .xadd (by simp)⟩⟩
  have ⟨_, hsc, _⟩ := hx
  exact completes_of_register rfl (withXr2_valid hx hy _) (Nat.mod_lt _ (by decide)) hsc

/-- The difference without the case split on the borrow: the magnitude of the integer difference (R79). -/
theorem magnitudeDiff_eq (x y : Triple) :
    magnitudeDiff x y = ⟨((x.v : ℤ) - y.v).natAbs, x.sc, x.sg ^^ decide (x.v < y.v)⟩ := by
  have hmagnitude : (if x.v < y.v then y.v - x.v else x.v - y.v) = ((x.v : ℤ) - y.v).natAbs := by
    split <;> omega
  rw [magnitudeDiff, hmagnitude]

/-- Settles O23: the magnitude of the difference is no larger than the larger operand, so it fits. -/
theorem xsubMagnitudeAndBorrow : Obligations.XsubMagnitudeAndBorrow := by
  refine ⟨by decide, fun s => ⟨fun x y hx hy => ?_, fun h => rejects_of_invalid_xr2 h .xsub (by simp)⟩⟩
  have ⟨hxv, hsc, _⟩ := hx
  have ⟨hyv, _, _⟩ := hy
  have hfits : ((x.v : ℤ) - y.v).natAbs < 2 ^ 224 := by omega
  have hresult : xsubResult s.opa s.opb = Result.extended .success false
      (xrImg ⟨((x.v : ℤ) - y.v).natAbs, x.sc, x.sg ^^ decide (x.v < y.v)⟩) 0 := by
    rw [xsubResult, withXr2_valid hx hy, magnitudeDiff_eq]
  exact completes_of_register rfl hresult hfits hsc

/-! ### Shifts -/

/-- Settles O24: a left shift is reduced modulo `2^224` and a right shift only makes the value smaller. -/
theorem shiftsScaleByPowersOfTwo : Obligations.ShiftsScaleByPowersOfTwo := by
  refine fun n => ⟨decode_ofNat n 0x22 (by decide), decode_ofNat n 0x23 (by decide),
    fun s => ⟨fun x hx => ?_, fun h => ?_⟩⟩
  · have ⟨hv, hsc, _⟩ := hx
    have hshr : x.v / 2 ^ n.toNat < 2 ^ 224 := Nat.lt_of_le_of_lt (Nat.div_le_self _ _) hv
    exact ⟨completes_of_register rfl (withXr_valid hx _) (Nat.mod_lt _ (by decide)) hsc,
      completes_of_register rfl (withXr_valid hx _) hshr hsc⟩
  · exact ⟨rejects_of rfl (withXr_invalid h _), rejects_of rfl (withXr_invalid h _)⟩

/-! ### Predicates and sign -/

/-- Settles O25: each predicate delivers the truth value of its comparison, or the sign flag itself. -/
theorem extendedPredicates : Obligations.ExtendedPredicates := by
  refine ⟨by decide, by decide, by decide, by decide, fun s => ⟨fun x y hx hy => ?_, fun x hx => ?_, fun h => ?_,
    fun h => ?_⟩⟩
  · exact ⟨completes_of_decide rfl (withXr2_valid hx hy _), completes_of_decide rfl (withXr2_valid hx hy _)⟩
  · exact ⟨completes_of_decide rfl (withXr_valid hx _), completes_of_bool rfl (withXr_valid hx _)⟩
  · exact ⟨rejects_of_invalid_xr h .xzero (by simp), rejects_of_invalid_xr h .xisneg (by simp)⟩
  · exact ⟨rejects_of_invalid_xr2 h .xgt (by simp), rejects_of_invalid_xr2 h .xeq (by simp)⟩

/-- Settles O26: the delivered triple is the operand's with the sign cleared, so it is in range. -/
theorem xsgnclrClearsTheSign : Obligations.XsgnclrClearsTheSign := by
  refine ⟨by decide, fun s => ⟨fun x hx => ?_, fun h => rejects_of_invalid_xr h .xsgnclr (by simp)⟩⟩
  have ⟨hv, hsc, _⟩ := hx
  exact completes_of_register (t := ⟨x.v, x.sc, false⟩) rfl (withXr_valid hx _) hv hsc

end Sys2Proof.Machine
end

section
/-! SUPPORT. The seven value words of a register as one number, and the proofs that the word-wise chains of R80, the
word move and funnel shift of R83 and the restoring divider of R94 compute the arithmetic. -/

namespace Sys2Proof.Machine

/-! ### Words and the number they stand for -/

/-- Every element of the list is a 32-bit word. -/
def AreWords (ws : List Nat) : Prop := ∀ w ∈ ws, w < 2 ^ 32

@[simp] theorem areWords_nil : AreWords [] := List.forall_mem_nil _

@[simp] theorem areWords_cons {w : Nat} {ws : List Nat} : AreWords (w :: ws) ↔ w < 2 ^ 32 ∧ AreWords ws :=
  List.forall_mem_cons

theorem wordsValue_eq_ofDigits (ws : List Nat) : wordsValue ws = Nat.ofDigits (2 ^ 32) ws := by
  induction ws with
  | nil => rfl
  | cons w ws ih => rw [wordsValue, ih, Nat.ofDigits_cons]

theorem wordsValue_lt {ws : List Nat} (h : AreWords ws) : wordsValue ws < 2 ^ (32 * ws.length) := by
  rw [wordsValue_eq_ofDigits, pow_mul]
  exact Nat.ofDigits_lt_base_pow_length (by decide) h

/-- The weight of the carry out of a list with one more word. -/
theorem weight_cons (w : Nat) (ws : List Nat) :
    2 ^ (32 * (w :: ws).length) = 2 ^ 32 * 2 ^ (32 * ws.length) := by
  rw [List.length_cons, Nat.mul_succ, pow_add, Nat.mul_comm]

/-- A list whose `j`-th element is word `j` of `v` stands for `v` cut to its length. -/
theorem wordsValue_map_range {f : Nat → Nat} {v : Nat} (k : Nat)
    (h : ∀ j, j < k → f j = v / 2 ^ (32 * j) % 2 ^ 32) :
    wordsValue ((List.range k).map f) = v % 2 ^ (32 * k) := by
  induction k generalizing f v with
  | zero => simp [wordsValue, Nat.mod_one]
  | succ k ih =>
    have htail : ∀ j, j < k → (f ∘ Nat.succ) j = v / 2 ^ 32 / 2 ^ (32 * j) % 2 ^ 32 := fun j hj => by
      rw [Function.comp, h _ (Nat.succ_lt_succ hj), Nat.div_div_eq_div_mul, ← pow_add, Nat.mul_succ, Nat.add_comm]
    have hhead : f 0 = v % 2 ^ 32 := by simpa using h 0 k.succ_pos
    rw [List.range_succ_eq_map, List.map_cons, List.map_map, wordsValue, ih htail, hhead, Nat.mul_succ,
      Nat.add_comm (32 * k), pow_add, Nat.mod_mul]

/-! ### The value words of an image -/

/-- The value words of an image are the words of its low 224 bits. -/
theorem word_eq_value_word (p : Image) {j : Nat} (hj : j < 7) :
    (word p j).toNat = p.toNat % 2 ^ 224 / 2 ^ (32 * j) % 2 ^ 32 := by
  have hsplit : 224 = 32 * j + (224 - 32 * j) := by omega
  rw [toNat_word, hsplit, pow_add, Nat.mod_mul_right_div_self, Nat.mod_mod_of_dvd]
  exact pow_dvd_pow 2 (by omega)

@[simp] theorem length_valueWords (p : Image) : (valueWords p).length = 7 := by simp [valueWords]

theorem areWords_valueWords (p : Image) : AreWords (valueWords p) := by
  simp only [AreWords, valueWords, List.forall_mem_map]
  exact fun i _ => (word p i).isLt

theorem wordsValue_valueWords (p : Image) : wordsValue (valueWords p) = p.toNat % 2 ^ 224 := by
  rw [valueWords, wordsValue_map_range 7 fun j hj => word_eq_value_word p hj, Nat.mod_mod]

/-- Reading a value word past the last one gives 0, as does shifting the value past its last bit. -/
theorem getD_valueWords (p : Image) (j : Nat) :
    (valueWords p).getD j 0 = p.toNat % 2 ^ 224 / 2 ^ (32 * j) % 2 ^ 32 := by
  by_cases hj : j < 7
  · rw [← word_eq_value_word p hj]
    simp [valueWords, hj]
  · have hlt : p.toNat % 2 ^ 224 < 2 ^ (32 * j) :=
      Nat.lt_of_lt_of_le (Nat.mod_lt _ (by positivity)) (Nat.pow_le_pow_right (by decide) (by omega))
    rw [Nat.div_eq_of_lt hlt, Nat.zero_mod, List.getD_eq_default _ _ (by rw [length_valueWords]; omega)]

/-! ### Ripple carry and borrow (R80) -/

/-- What a ripple chain leaves is a list of words of the operands' length. -/
theorem rippleAdd_words {as bs : List Nat} (h : as.length = bs.length) (c : Nat) :
    AreWords (rippleAdd as bs c).1 ∧ (rippleAdd as bs c).1.length = as.length := by
  induction as generalizing bs c with
  | nil => simp [rippleAdd]
  | cons a as ih =>
    obtain _ | ⟨b, bs⟩ := bs
    · simp at h
    · have ⟨hwords, hlength⟩ := ih (Nat.succ.inj h) ((a + b + c) / 2 ^ 32)
      simp only [rippleAdd, areWords_cons, List.length_cons, hlength]
      exact ⟨⟨Nat.mod_lt _ (by decide), hwords⟩, trivial⟩

/-- The sum words, with the carry out as their next word, stand for the sum. -/
theorem rippleAdd_value {as bs : List Nat} (h : as.length = bs.length) (c : Nat) :
    wordsValue (rippleAdd as bs c).1 + 2 ^ (32 * as.length) * (rippleAdd as bs c).2 =
      wordsValue as + wordsValue bs + c := by
  induction as generalizing bs c with
  | nil =>
    obtain rfl : bs = [] := List.length_eq_zero_iff.1 h.symm
    simp [rippleAdd, wordsValue]
  | cons a as ih =>
    obtain _ | ⟨b, bs⟩ := bs
    · simp at h
    · have hrest := ih (Nat.succ.inj h) ((a + b + c) / 2 ^ 32)
      rw [weight_cons, Nat.mul_assoc]
      simp only [rippleAdd, wordsValue]
      omega

/-- The sum words stand for the sum modulo their range, and the carry out is its overflow. -/
theorem rippleAdd_eq {as bs : List Nat} (h : as.length = bs.length) (c : Nat) :
    wordsValue (rippleAdd as bs c).1 = (wordsValue as + wordsValue bs + c) % 2 ^ (32 * as.length) ∧
      (rippleAdd as bs c).2 = (wordsValue as + wordsValue bs + c) / 2 ^ (32 * as.length) := by
  obtain ⟨hwords, hlength⟩ := rippleAdd_words h c
  have hlt := wordsValue_lt hwords
  rw [hlength] at hlt
  have hunique := (Nat.div_mod_unique (by positivity)).2 ⟨rippleAdd_value h c, hlt⟩
  exact ⟨hunique.2.symm, hunique.1.symm⟩

/-- One word of the borrow chain: the word left over and the borrow taken for it, which the next word pays. -/
theorem rippleSub_cons {a b c : Nat} (ha : a < 2 ^ 32) (hb : b < 2 ^ 32) (hc : c ≤ 1) (as bs : List Nat) :
    ∃ w c', w < 2 ^ 32 ∧ c' ≤ 1 ∧ w + b + c = a + 2 ^ 32 * c' ∧
      rippleSub (a :: as) (b :: bs) c = (w :: (rippleSub as bs c').1, (rippleSub as bs c').2) := by
  rw [rippleSub]
  split
  · exact ⟨_, 1, by omega, by omega, by omega, rfl⟩
  · exact ⟨_, 0, by omega, by omega, by omega, rfl⟩

/-- What a borrow chain leaves is a list of words of the operands' length and a borrow bit. -/
theorem rippleSub_words {as bs : List Nat} (h : as.length = bs.length) (ha : AreWords as) (hb : AreWords bs)
    {c : Nat} (hc : c ≤ 1) : AreWords (rippleSub as bs c).1 ∧ (rippleSub as bs c).1.length = as.length ∧
      (rippleSub as bs c).2 ≤ 1 := by
  induction as generalizing bs c with
  | nil => simp [rippleSub, hc]
  | cons a as ih =>
    obtain _ | ⟨b, bs⟩ := bs
    · simp at h
    · obtain ⟨haWord, has⟩ := areWords_cons.1 ha
      obtain ⟨hbWord, hbs⟩ := areWords_cons.1 hb
      obtain ⟨w, c', hw, hc', -, heq⟩ := rippleSub_cons haWord hbWord hc as bs
      obtain ⟨hwords, hlength, hborrow⟩ := ih (Nat.succ.inj h) has hbs hc'
      rw [heq, List.length_cons, List.length_cons, hlength]
      exact ⟨areWords_cons.2 ⟨hw, hwords⟩, rfl, hborrow⟩

/-- The difference words stand for the difference, the borrow out counting as one more word taken from. -/
theorem rippleSub_value {as bs : List Nat} (h : as.length = bs.length) (ha : AreWords as) (hb : AreWords bs)
    {c : Nat} (hc : c ≤ 1) : wordsValue (rippleSub as bs c).1 + wordsValue bs + c =
      wordsValue as + 2 ^ (32 * as.length) * (rippleSub as bs c).2 := by
  induction as generalizing bs c with
  | nil =>
    obtain rfl : bs = [] := List.length_eq_zero_iff.1 h.symm
    simp [rippleSub, wordsValue]
  | cons a as ih =>
    obtain _ | ⟨b, bs⟩ := bs
    · simp at h
    · obtain ⟨haWord, has⟩ := areWords_cons.1 ha
      obtain ⟨hbWord, hbs⟩ := areWords_cons.1 hb
      obtain ⟨w, c', -, hc', hw, heq⟩ := rippleSub_cons haWord hbWord hc as bs
      have hrest := ih (Nat.succ.inj h) has hbs hc'
      rw [heq, weight_cons, Nat.mul_assoc]
      simp only [wordsValue]
      omega

/-- The inverted words stand for the complement to the largest number of that many words. -/
theorem wordsValue_invert {ws : List Nat} (h : AreWords ws) :
    wordsValue (ws.map fun w => 2 ^ 32 - 1 - w) + wordsValue ws + 1 = 2 ^ (32 * ws.length) := by
  induction ws with
  | nil => rfl
  | cons w ws ih =>
    obtain ⟨hw, hws⟩ := areWords_cons.1 h
    have hrest := ih hws
    rw [weight_cons, List.map_cons, wordsValue, wordsValue]
    omega

theorem wordsValue_zeros (ws : List Nat) : wordsValue (ws.map fun _ => 0) = 0 := by
  induction ws with
  | nil => rfl
  | cons w ws ih => rw [List.map_cons, wordsValue, ih, Nat.mul_zero]

/-- Inverting the words and adding 1 is the two's complement. -/
theorem wordsValue_negateWords {ws : List Nat} (h : AreWords ws) :
    wordsValue (negateWords ws) = (2 ^ (32 * ws.length) - wordsValue ws) % 2 ^ (32 * ws.length) := by
  have hinvert := wordsValue_invert h
  obtain ⟨hsum, -⟩ := rippleAdd_eq (as := ws.map fun w => 2 ^ 32 - 1 - w) (bs := ws.map fun _ => 0) (by simp) 1
  rw [negateWords, hsum, wordsValue_zeros, List.length_map]
  congr 1
  omega

/-- The borrow chain gives the magnitude of the difference, and its borrow says which operand is larger. -/
theorem borrowMagnitude_eq {as bs : List Nat} (h : as.length = bs.length) (ha : AreWords as) (hb : AreWords bs) :
    wordsValue (borrowMagnitude as bs).1 = ((wordsValue as : ℤ) - wordsValue bs).natAbs ∧
      (borrowMagnitude as bs).2 = decide (wordsValue as < wordsValue bs) := by
  obtain ⟨hwords, hlength, hborrow⟩ := rippleSub_words h ha hb (c := 0) (Nat.zero_le _)
  have hvalue := rippleSub_value h ha hb (c := 0) (Nat.zero_le _)
  have hd := wordsValue_lt hwords
  have hbs := wordsValue_lt hb
  rw [hlength] at hd
  rw [← h] at hbs
  rw [borrowMagnitude]
  split
  next hone =>
    rw [hone] at hvalue
    rw [wordsValue_negateWords hwords, hlength, Nat.mod_eq_of_lt (by omega)]
    exact ⟨by omega, by simp only [true_eq_decide_iff]; omega⟩
  next hne =>
    have hzero : (rippleSub as bs 0).2 = 0 := by omega
    rw [hzero] at hvalue
    dsimp only
    exact ⟨by omega, by simp only [false_eq_decide_iff]; omega⟩

/-- Settles O27: the chains over the seven value words, by their values. -/
theorem rippleChainsAgreeWithTheArithmetic : Obligations.RippleChainsAgreeWithTheArithmetic := by
  rintro p q x y rfl rfl
  have hlength : (valueWords p).length = (valueWords q).length := by simp
  obtain ⟨hsum, hcarry⟩ := rippleAdd_eq hlength 0
  obtain ⟨hmagnitude, hborrow⟩ := borrowMagnitude_eq hlength (areWords_valueWords p) (areWords_valueWords q)
  simp only [wordsValue_valueWords, length_valueWords] at hsum hcarry hmagnitude hborrow
  exact ⟨hsum, hcarry, hmagnitude, hborrow⟩

/-! ### Word move and funnel shift (R83) -/

/-- The funnel: 32 bits of `u` from bit `k` on are the top of its low word and the bottom of the next one. -/
theorem funnel_word (u : Nat) {k : Nat} (hk : k ≤ 32) :
    u / 2 ^ k % 2 ^ 32 = (u % 2 ^ 32 / 2 ^ k + u / 2 ^ 32 % 2 ^ 32 * 2 ^ (32 - k)) % 2 ^ 32 := by
  have hpow : 2 ^ 32 = 2 ^ k * 2 ^ (32 - k) := by rw [← pow_add, Nat.add_sub_of_le hk]
  have hsplit : u / 2 ^ k = u % 2 ^ 32 / 2 ^ k + u / 2 ^ 32 * 2 ^ (32 - k) := by
    conv_lhs => rw [← Nat.mod_add_div u (2 ^ 32)]
    rw [hpow, Nat.mul_assoc, Nat.add_mul_div_left _ _ (by positivity), Nat.mul_comm (2 ^ (32 - k))]
  rw [hsplit, Nat.add_mod, Nat.add_mod (u % 2 ^ 32 / 2 ^ k) (u / 2 ^ 32 % 2 ^ 32 * 2 ^ (32 - k)), Nat.mod_mul_mod]

/-- The word move: word `j` of `v` moved up by `q` words. -/
theorem moved_word (v q j : Nat) :
    (if q ≤ j then v / 2 ^ (32 * (j - q)) % 2 ^ 32 else 0) = v * 2 ^ (32 * q) / 2 ^ (32 * j) % 2 ^ 32 := by
  split
  next hle =>
    have hsplit : 32 * j = 32 * (j - q) + 32 * q := by omega
    rw [hsplit, pow_add, Nat.mul_div_mul_right _ _ (by positivity)]
  next hlt =>
    have hsplit : 32 * q = 32 * (q - j - 1) + 32 + 32 * j := by omega
    rw [hsplit, pow_add, ← Nat.mul_assoc, Nat.mul_div_cancel _ (by positivity), pow_add, ← Nat.mul_assoc,
      Nat.mul_mod_left]

/-- Each word of the left shift is a funnel over two adjacent words of the value moved up. -/
theorem wordsValue_funnelLeft (p : Image) (n : Nat) :
    wordsValue (funnelLeft (valueWords p) n) = p.toNat % 2 ^ 224 * 2 ^ n % 2 ^ 224 := by
  generalize hv : p.toNat % 2 ^ 224 = v
  have hbits : n % 32 ≤ 32 := by omega
  have hcount : 32 * (n / 32 + 1) = n + (32 - n % 32) := by omega
  refine wordsValue_map_range _ fun j _ => ?_
  have hshift : v * 2 ^ n / 2 ^ (32 * j) = v * 2 ^ (32 * (n / 32 + 1)) / 2 ^ (32 * j) / 2 ^ (32 - n % 32) := by
    rw [hcount, pow_add, Nat.div_right_comm, ← Nat.mul_assoc, Nat.mul_div_cancel _ (by positivity)]
  have hnext : v * 2 ^ (32 * (n / 32)) / 2 ^ (32 * j) = v * 2 ^ (32 * (n / 32 + 1)) / 2 ^ (32 * j) / 2 ^ 32 := by
    rw [Nat.mul_succ, pow_add, Nat.div_right_comm, ← Nat.mul_assoc, Nat.mul_div_cancel _ (by positivity)]
  rw [getD_valueWords, getD_valueWords, hv, Nat.sub_sub, moved_word, moved_word, hshift, hnext,
    funnel_word _ (Nat.sub_le _ _), Nat.sub_sub_self hbits, Nat.add_comm]

/-- Each word of the right shift is a funnel over two adjacent words of the value. -/
theorem wordsValue_funnelRight (p : Image) (n : Nat) :
    wordsValue (funnelRight (valueWords p) n) = p.toNat % 2 ^ 224 / 2 ^ n := by
  have hlt : p.toNat % 2 ^ 224 / 2 ^ n < 2 ^ (32 * (valueWords p).length) := by
    rw [length_valueWords]
    exact Nat.lt_of_le_of_lt (Nat.div_le_self _ _) (Nat.mod_lt _ (by decide))
  generalize hv : p.toNat % 2 ^ 224 = v at hlt ⊢
  have hbits : n % 32 ≤ 32 := by omega
  rw [← Nat.mod_eq_of_lt hlt]
  refine wordsValue_map_range _ fun j _ => ?_
  have hcount : n + 32 * j = 32 * (j + n / 32) + n % 32 := by omega
  have hshift : v / 2 ^ n / 2 ^ (32 * j) = v / 2 ^ (32 * (j + n / 32)) / 2 ^ (n % 32) := by
    rw [Nat.div_div_eq_div_mul, Nat.div_div_eq_div_mul, ← pow_add, ← pow_add, hcount]
  have hnext : v / 2 ^ (32 * (j + n / 32 + 1)) = v / 2 ^ (32 * (j + n / 32)) / 2 ^ 32 := by
    rw [Nat.mul_succ, pow_add, Nat.div_div_eq_div_mul]
  rw [getD_valueWords, getD_valueWords, hv, hshift, hnext, funnel_word _ hbits]

/-- Settles O28: both shifts word by word, for every count. -/
theorem funnelShifterAgreesWithTheArithmetic : Obligations.FunnelShifterAgreesWithTheArithmetic :=
  fun p n => ⟨wordsValue_funnelLeft p n, wordsValue_funnelRight p n⟩

/-! ### The restoring divider (R94) -/

/-- One more dividend bit doubles the quotient and the remainder, and one trial subtraction restores their range. -/
theorem div_mod_bit (m d b : Nat) (hd : 0 < d) (hb : b ≤ 1) :
    (d ≤ 2 * (m % d) + b → (2 * m + b) / d = 2 * (m / d) + 1 ∧ (2 * m + b) % d = 2 * (m % d) + b - d) ∧
    (2 * (m % d) + b < d → (2 * m + b) / d = 2 * (m / d) ∧ (2 * m + b) % d = 2 * (m % d) + b) := by
  have hmod := Nat.mod_lt m hd
  have hm := Nat.mod_add_div m d
  refine ⟨fun h => (Nat.div_mod_unique hd).2 ⟨?_, by omega⟩, fun h => (Nat.div_mod_unique hd).2 ⟨?_, h⟩⟩
  · rw [Nat.mul_add, Nat.mul_left_comm]; omega
  · rw [Nat.mul_left_comm]; omega

/-- From bit `i` on, started with the quotient and the remainder of the bits above, the divider ends with those of the
whole dividend. -/
theorem restoringFrom_eq (n : Nat) {d : Nat} (hd : 0 < d) (i : Nat) :
    restoringFrom n d i (n / 2 ^ i / d * 2 ^ i, n / 2 ^ i % d) = (n / d, n % d) := by
  induction i with
  | zero => simp [restoringFrom]
  | succ i ih =>
    have hbit : n / 2 ^ i = 2 * (n / 2 ^ (i + 1)) + (n.testBit i).toNat := by
      rw [Nat.toNat_testBit, pow_succ, ← Nat.div_div_eq_div_mul, Nat.div_add_mod]
    obtain ⟨hsubtract, hkeep⟩ := div_mod_bit (n / 2 ^ (i + 1)) d _ hd (n.testBit i).toNat_le
    rw [← hbit] at hsubtract hkeep
    have hdouble (q : Nat) : q * 2 ^ (i + 1) = 2 * q * 2 ^ i := by ring
    rw [← ih, hdouble, restoringFrom]
    split
    next h =>
      obtain ⟨hquotient, hremainder⟩ := hsubtract h
      rw [hquotient, hremainder, Nat.succ_mul (2 * _)]
    next h =>
      obtain ⟨hquotient, hremainder⟩ := hkeep (Nat.lt_of_not_le h)
      rw [hquotient, hremainder]

/-- Started with zeros at or above the first set bit of the dividend, the divider gives quotient and remainder. -/
theorem restoringFrom_zero {n d i : Nat} (hd : 0 < d) (hn : n < 2 ^ i) :
    restoringFrom n d i (0, 0) = (n / d, n % d) := by
  simpa [Nat.div_eq_of_lt hn] using restoringFrom_eq n hd i

theorem lt_two_pow_bitlen (n : Nat) : n < 2 ^ bitlen n := by
  rw [bitlen]
  split
  next h => simp [h]
  next => exact Nat.lt_log2_self

/-- Settles O32: both starting points lie at or above the first set bit of the dividend. -/
theorem restoringDividerAgreesWithTheQuotient : Obligations.RestoringDividerAgreesWithTheQuotient :=
  fun n _ hn hd => ⟨restoringFrom_zero hd hn, restoringFrom_zero hd (lt_two_pow_bitlen n)⟩

end Sys2Proof.Machine
end

section
/-! SUPPORT. The shift-and-add steps, what a fractional quotient satisfies and how large it gets, and the proofs of the
statements of 42_xreg_mul_div.md about XMUL, XMUL10, XDIV, XFDIV and the multiplier (spec rules R92, R93, R95 to R97,
R99). -/

namespace Sys2Proof.Machine

/-! ### The multiplier (R99) -/

/-- The low `i + 1` bits are the low `i` bits and bit `i` at its weight. -/
theorem mod_two_pow_succ_eq (b i : Nat) : b % 2 ^ (i + 1) = b % 2 ^ i + 2 ^ i * (b.testBit i).toNat := by
  rw [Nat.mod_pow_succ, Nat.toNat_testBit]

/-- A sum does not fit exactly when one of its terms does not, or the sum of the two terms cut to the range does not. -/
theorem le_add_iff_overflows (m p t : Nat) : m ≤ p + t ↔ (m ≤ p ∨ m ≤ t) ∨ m ≤ p % m + t % m := by
  by_cases hp : m ≤ p
  · exact iff_of_true (by omega) (.inl (.inl hp))
  by_cases ht : m ≤ t
  · exact iff_of_true (by omega) (.inl (.inr ht))
  rw [Nat.mod_eq_of_lt (by omega), Nat.mod_eq_of_lt (by omega)]
  omega

/-- After `i` positions the accumulator is the product by the low `i` bits modulo the register's range, and some step
has reported an overflow exactly when that product does not fit. -/
theorem shiftAdd_eq (a b i : Nat) :
    shiftAdd a b i = ⟨a * (b % 2 ^ i) % xSize, decide (xSize ≤ a * (b % 2 ^ i))⟩ := by
  induction i with
  | zero => simp [shiftAdd, Nat.mod_one, xSize]
  | succ i ih =>
    rw [shiftAdd, ih]
    dsimp only
    split
    next hset =>
      have hoverflow := le_add_iff_overflows xSize (a * (b % 2 ^ i)) (a * 2 ^ i)
      rw [mod_two_pow_succ_eq, hset, Bool.toNat_true, Nat.mul_one, Nat.mul_add, ← Nat.add_mod,
        decide_eq_decide.2 hoverflow, Bool.decide_or, Bool.decide_or]
    next hclear =>
      rw [mod_two_pow_succ_eq, Bool.eq_false_of_not_eq_true hclear, Bool.toNat_false, Nat.mul_zero, Nat.add_zero]

/-- Settles O30: 224 positions are all the bits of the multiplier. -/
theorem shiftAndAddAgreesWithTheProduct : Obligations.ShiftAndAddAgreesWithTheProduct := by
  intro a b _ hb
  have heq : shiftAddMul a b = ⟨a * b % xSize, decide (xSize ≤ a * b)⟩ := by
    rw [shiftAddMul, shiftAdd_eq, Nat.mod_eq_of_lt hb]
  rw [heq]
  exact ⟨rfl, decide_eq_true_iff⟩

/-! ### Products -/

/-- XMUL on a valid pair: the product and the scale sum reduced to their fields, `OVF` when either loses a bit
(R92). -/
theorem completes_xmul {s : State} {x y : Triple} (hx : IsXr s.opa x) (hy : IsXr s.opb y) :
    Completes .xmul s 0 (decide (2 ^ 224 ≤ x.v * y.v ∨ 255 < x.sc + y.sc))
      (decide (max96 < x.v * y.v % 2 ^ 224)) fun p q =>
        IsXr p ⟨x.v * y.v % 2 ^ 224, (x.sc + y.sc) % 256, x.sg ^^ y.sg⟩ ∧ q = 0 := by
  have hresult : xmulResult s.opa s.opb =
      Result.extended .success (decide (2 ^ 224 ≤ x.v * y.v ∨ 255 < x.sc + y.sc))
        (xrImg ⟨x.v * y.v % 2 ^ 224, (x.sc + y.sc) % 256, x.sg ^^ y.sg⟩) 0 := by
    rw [xmulResult, withXr2_valid hx hy, Bool.decide_or, xSize]
  exact completes_of_register rfl hresult (Nat.mod_lt _ (by decide)) (Nat.mod_lt _ (by decide))

/-- XMUL10 on a valid register: ten times the value reduced to its field, `OVF` when it loses a bit (R93). -/
theorem completes_xmul10 {s : State} {x : Triple} (hx : IsXr s.opa x) :
    Completes .xmul10 s 0 (decide (2 ^ 224 ≤ 10 * x.v)) (decide (max96 < 10 * x.v % 2 ^ 224)) fun p q =>
      IsXr p ⟨10 * x.v % 2 ^ 224, x.sc, x.sg⟩ ∧ q = 0 := by
  have ⟨_, hsc, _⟩ := hx
  have hresult : xmul10Result s.opa = Result.extended .success (decide (2 ^ 224 ≤ 10 * x.v))
      (xrImg ⟨10 * x.v % 2 ^ 224, x.sc, x.sg⟩) 0 := by
    rw [xmul10Result, withXr_valid hx, Nat.mul_comm, xSize]
  exact completes_of_register rfl hresult (Nat.mod_lt _ (by decide)) hsc

/-- Settles O29: both completions above; XMUL10 looks at `opa` alone. -/
theorem xmulAndTimesTen : Obligations.XmulAndTimesTen :=
  ⟨by decide, by decide, fun _ => ⟨fun _ _ => completes_xmul, fun _ => completes_xmul10,
    fun h => rejects_of_invalid_xr h .xmul10 (by simp), fun h => rejects_of_invalid_xr2 h .xmul (by simp)⟩⟩

/-! ### Quotients -/

/-- A meaning whose result is the images of a quotient and a bare remainder in range, with SUCCESS. -/
theorem completes_of_quotient {i : Instr} {s : State} {res : Result} {q k r : Nat} {sg sg' : Bool}
    (h : exec i s = .next (s.complete res))
    (hres : res = Result.extended .success false (xrImg ⟨q, k, sg⟩) (xrImg ⟨r, 0, sg'⟩))
    (hq : q < 2 ^ 224) (hk : k < 256) (hr : r < 2 ^ 224) :
    Completes i s 0 false (decide (max96 < q)) fun p p2 => IsXr p ⟨q, k, sg⟩ ∧ IsXr p2 ⟨r, 0, sg'⟩ :=
  have hquotient := isXr_xrImg ⟨q, k, sg⟩ hq hk
  completes_of_extended h hres _ hquotient rfl ⟨hquotient, isXr_xrImg ⟨r, 0, sg'⟩ hr (by simp)⟩

/-- Settles O31: quotient and remainder are no larger than the operands, so they fit. -/
theorem xdivQuotientAndRemainder : Obligations.XdivQuotientAndRemainder := by
  refine ⟨by decide, fun s => ⟨fun x y hx hy => ⟨fun hne => ?_, fun hzero => ?_⟩,
    fun h => rejects_of_invalid_xr2 h .xdiv (by simp)⟩⟩
  · have ⟨hxv, _, _⟩ := hx
    have ⟨hyv, _, _⟩ := hy
    have hr : x.v % y.v < y.v := Nat.mod_lt _ (Nat.pos_of_ne_zero hne)
    have hq : x.v / y.v < 2 ^ 224 := Nat.lt_of_le_of_lt (Nat.div_le_self _ _) hxv
    have hresult : xdivResult s.opa s.opb = Result.extended .success false
        (xrImg ⟨x.v / y.v, 0, x.sg ^^ y.sg⟩) (xrImg ⟨x.v % y.v, 0, x.sg⟩) := by
      rw [xdivResult, withXr2_valid hx hy, if_neg hne]
    exact ⟨_, _, (Nat.div_add_mod' _ _).symm, hr,
      completes_of_quotient rfl hresult hq (by decide) (Nat.lt_trans hr hyv)⟩
  · exact completes_of_error (code := .zeroDivision) rfl (by rw [xdivResult, withXr2_valid hx hy, if_pos hzero])

/-! ### Fractional quotients (R97) -/

section
variable {n d q k r : Nat} (h : FracDivides n d q k r)
include h

/-- What digit generation leaves is the division identity of the dividend raised by its digit count. -/
theorem FracDivides.identity (hd : 0 < d) : n * 10 ^ k = q * d + r ∧ r < d := by
  obtain ⟨rfl, rfl, -⟩ := h
  exact ⟨(Nat.div_add_mod' _ _).symm, Nat.mod_lt _ hd⟩

/-- Without a fractional digit the quotient is at most the dividend, and every digit made keeps it within `MAX96`. -/
theorem FracDivides.quotient_le : q ≤ max n max96 := by
  obtain ⟨rfl, -, -, -, hmade⟩ := h
  cases k with
  | zero => simpa using .inl (Nat.div_le_self n d)
  | succ k =>
    obtain ⟨-, hfits⟩ := hmade k k.lt_succ_self
    exact le_max_of_le_right hfits

end

/-- Settles O33: `fracdiv` meets its relational description, from which the identity and the ranges follow. -/
theorem xfdivFractionalQuotient : Obligations.XfdivFractionalQuotient := by
  refine ⟨by decide, fun s => ⟨fun x y hx hy => ⟨fun hne => ?_, fun hzero => ?_⟩,
    fun h => rejects_of_invalid_xr2 h .xfdiv (by simp)⟩⟩
  · have ⟨hxv, _, _⟩ := hx
    have ⟨hyv, _, _⟩ := hy
    have hpos : 0 < y.v := Nat.pos_of_ne_zero hne
    have hfrac := fracdiv_fracDivides x.v y.v hpos
    obtain ⟨hidentity, hr⟩ := hfrac.identity hpos
    have hq : (fracdiv x.v y.v).q < 2 ^ 224 := Nat.lt_of_le_of_lt hfrac.quotient_le (max_lt hxv (by decide))
    have ⟨_, _, hdigits, _⟩ := hfrac
    have hresult : xfdivResult s.opa s.opb = Result.extended .success false
        (xrImg ⟨(fracdiv x.v y.v).q, (fracdiv x.v y.v).s, x.sg ^^ y.sg⟩)
        (xrImg ⟨(fracdiv x.v y.v).r, 0, x.sg⟩) := by
      rw [xfdivResult, withXr2_valid hx hy, if_neg hne]
    exact ⟨_, _, _, hfrac, hidentity, hr,
      completes_of_quotient rfl hresult hq (by omega) (Nat.lt_trans hr hyv)⟩
  · exact completes_of_error (code := .zeroDivision) rfl (by rw [xfdivResult, withXr2_valid hx hy, if_pos hzero])

end Sys2Proof.Machine
end

section
/-! SUPPORT. The completions of the scale manager and the classifier as triples, when the downcast saturates, and the
proofs of the statements of 43_scale_overflow.md about XWIDEN, XDOWN, XNORM, XINC, XDEC and XCLS (spec rules R101 to
R112). -/

namespace Sys2Proof.Machine

/-! ### Widen and downcast (R101 to R103, R112) -/

/-- XWIDEN on a valid Decimal: the same triple as a register, whose value is below `2^96`. -/
theorem completes_xwiden {s : State} {x : Triple} (hx : IsDec s.opa x) :
    Completes .xwiden s 0 false false fun p q => IsXr p x ∧ q = 0 := by
  have ⟨hv, hsc, _⟩ := hx
  have hx96 : decide (max96 < x.v) = false := decide_eq_false (by unfold max96; omega)
  have hwiden := completes_of_register (i := .xwiden) (t := x) rfl (withDec_valid hx _) (by omega) (by omega)
  rwa [hx96] at hwiden

/-- Settles O34: the completion above. -/
theorem xwidenIsLossless : Obligations.XwidenIsLossless :=
  ⟨by decide, fun _ => ⟨fun _ => completes_xwiden, fun h => rejects_of_invalid_dec h .xwiden (by simp)⟩⟩

theorem infinityCode_bits (sg : Bool) : (infinityCode sg).bits.toNat = if sg then 2 else 1 := by
  cases sg <;> rfl

/-- The downcast saturates exactly when the value rounded to an integer does not fit: removing fewer digits rounds to
no smaller a value. -/
theorem downcast_saturates_iff (t : Triple) : (downcast t).code.bits.toNat ≠ 0 ↔ max96 < rhe t.v t.sc := by
  obtain ⟨k, -, hk, hfits, -, e⟩ | ⟨hbig, e⟩ := downcast_cases t
  · have hinteger : rhe t.v t.sc ≤ max96 := (rhe_antitone t.v hk).trans hfits
    rw [e]
    exact iff_of_false (not_not.2 rfl) hinteger.not_gt
  · rw [e, infinityCode_bits]
    exact iff_of_true (by split <;> decide) hbig

/-- Settles O35: `downcast` meets its relational description, and saturates by the lemma above. -/
theorem xdownRemovesFewestDigits : Obligations.XdownRemovesFewestDigits := by
  refine ⟨by decide, fun s => ⟨fun x hx => ?_, fun h => rejects_of_invalid_xr h .xdown (by simp)⟩⟩
  refine ⟨_, _, downcast_downcastsTo x, ?_, completes_of_deliver rfl (withXr_valid hx _)⟩
  simp only [downcast_saturates_iff, nearestEven_iff_rhe, exists_eq_left]

/-- Settles O36: the widened Decimal fits at its own scale, so nothing is removed, and the image of the triple is the
low half of the operand. -/
theorem widenThenDowncastIsTheIdentity : Obligations.WidenThenDowncastIsTheIdentity := by
  intro s x hx
  obtain ⟨t, hexec, ⟨hres, -⟩, -⟩ := completes_xwiden hx
  have ⟨hv, hsc, himage⟩ := hx
  have hdown : xdownResult t.res = Result.plain .success (decImg x) := by
    rw [xdownResult, withXr_valid hres, downcast_of_fits (by unfold max96; omega) hsc]
  obtain ⟨⟨-, -, hback⟩, hlow⟩ := isDecResult_decImg x hv hsc
  rw [Nat.mod_eq_of_lt hlow] at hback
  exact ⟨t, hexec, completes_of_plain rfl hdown ⟨hback.trans himage.symm, rfl⟩⟩

/-! ### Normalization (R104, R105) -/

/-- A raised register is in range: its value is the operand's or within `MAX96`, its scale does not pass the target. -/
theorem isXr_of_raisesBy {p : Image} {x : Triple} {target i : Nat} (hx : IsXr p x) (htarget : target < 256)
    (hi : RaisesBy x.v (target - x.sc) i) :
    IsXr (xrImg ⟨x.v * 10 ^ i, x.sc + i, x.sg⟩) ⟨x.v * 10 ^ i, x.sc + i, x.sg⟩ := by
  have ⟨hv, hsc, _⟩ := hx
  have ⟨hsteps, _, _⟩ := hi
  have hscale : x.sc + i < 256 := by omega
  exact isXr_xrImg _ (Nat.lt_succ_of_le (hi.le (Nat.le_pred_of_lt hv) (by decide))) hscale

/-- Settles O37: `normalize` raises by the counts of `normalize_spec`, and both registers stay in range. -/
theorem xnormRaisesTheLowerScale : Obligations.XnormRaisesTheLowerScale := by
  refine ⟨by decide, fun s => ⟨fun x y hx hy => ?_, fun h => rejects_of_invalid_xr2 h .xnorm (by simp)⟩⟩
  obtain ⟨i, j, hi, hj, hnormalize⟩ := normalize_spec x y
  have ⟨_, hxsc, _⟩ := hx
  have ⟨_, hysc, _⟩ := hy
  have hxraised := isXr_of_raisesBy hx hysc hi
  have hyraised := isXr_of_raisesBy hy hxsc hj
  have hresult : xnormResult s.opa s.opb = Result.extended .success (decide (x.sc + i ≠ y.sc + j))
      (xrImg ⟨x.v * 10 ^ i, x.sc + i, x.sg⟩) (xrImg ⟨y.v * 10 ^ j, y.sc + j, y.sg⟩) := by
    rw [xnormResult, withXr2_valid hx hy, hnormalize]
  exact ⟨i, j, hi, hj, completes_of_extended rfl hresult _ hxraised rfl ⟨hxraised, hyraised⟩⟩

/-! ### One scale step (R107, R108) -/

/-- XINC on a valid register: ten times the value at the next scale, `OVF` when either field wraps (R107). -/
theorem completes_xinc {s : State} {x : Triple} (hx : IsXr s.opa x) :
    Completes .xinc s 0 (decide (2 ^ 224 ≤ 10 * x.v ∨ x.sc = 255)) (decide (max96 < 10 * x.v % 2 ^ 224)) fun p q =>
      IsXr p ⟨10 * x.v % 2 ^ 224, (x.sc + 1) % 256, x.sg⟩ ∧ q = 0 := by
  have hresult : xincResult s.opa = Result.extended .success (decide (2 ^ 224 ≤ 10 * x.v ∨ x.sc = 255))
      (xrImg ⟨10 * x.v % 2 ^ 224, (x.sc + 1) % 256, x.sg⟩) 0 := by
    rw [xincResult, withXr_valid hx, Bool.decide_or, xSize]
  exact completes_of_register rfl hresult (Nat.mod_lt _ (by decide)) (Nat.mod_lt _ (by decide))

/-- XDEC at scale 0 delivers its operand and reports `OVF` (R108). -/
theorem completes_xdec_of_scale_zero {s : State} {x : Triple} (hx : IsXr s.opa x) (hzero : x.sc = 0) :
    Completes .xdec s 0 true (decide (max96 < x.v)) fun p q => p = s.opa ∧ q = 0 := by
  have hresult : xdecResult s.opa = Result.extended .success true s.opa 0 := by
    rw [xdecResult, withXr_valid hx, if_pos hzero]
  exact completes_of_extended rfl hresult x hx rfl ⟨rfl, rfl⟩

/-- XDEC above scale 0 delivers the quotient by ten at the scale below and the removed digit (R108). -/
theorem completes_xdec_of_scale_ne_zero {s : State} {x : Triple} (hx : IsXr s.opa x) (hne : x.sc ≠ 0) :
    Completes .xdec s 0 false (decide (max96 < x.v / 10)) fun p q =>
      IsXr p ⟨x.v / 10, x.sc - 1, x.sg⟩ ∧ IsXr q ⟨x.v % 10, 0, false⟩ := by
  have ⟨hv, hsc, _⟩ := hx
  have hresult : xdecResult s.opa = Result.extended .success false
      (xrImg ⟨x.v / 10, x.sc - 1, x.sg⟩) (xrImg ⟨x.v % 10, 0, false⟩) := by
    rw [xdecResult, withXr_valid hx, if_neg hne]
  exact completes_of_quotient rfl hresult (by omega) (by omega) (by omega)

/-- Settles O38: the completions above. -/
theorem xincAndXdec : Obligations.XincAndXdec :=
  ⟨by decide, by decide, fun _ => ⟨fun _ hx =>
      ⟨completes_xinc hx, completes_xdec_of_scale_zero hx, completes_xdec_of_scale_ne_zero hx⟩,
    fun h => ⟨rejects_of_invalid_xr h .xinc (by simp), rejects_of_invalid_xr h .xdec (by simp)⟩⟩⟩

/-! ### The classifier (R110) -/

/-- A meaning whose result is an XREG256 image with any code that delivers one, `X96` read off the triple it stands
for. -/
theorem completes_of_extended_code {i : Instr} {s : State} {r : Result} {code : StatusCode} {ovf : Bool} {p q : Image}
    {t : Triple} {P : Image → Image → Prop} (h : exec i s = .next (s.complete r))
    (hr : r = Result.extended code ovf p q) (ht : IsXr p t) (hP : P p q) :
    Completes i s code.bits.toNat ovf (decide (max96 < t.v)) P := by
  obtain ⟨-, rfl⟩ := (isXr_iff p t).1 ht
  subst hr
  exact completes_extended h hP

/-- XCLS on a valid register: the operand itself, `X96` and the code both by its value alone. -/
theorem completes_xcls {s : State} {x : Triple} (hx : IsXr s.opa x) :
    Completes .xcls s (if x.v ≤ max96 then StatusCode.success else infinityCode x.sg).bits.toNat false
      (decide (max96 < x.v)) fun p q => p = s.opa ∧ q = 0 :=
  completes_of_extended_code rfl (withXr_valid hx _) hx ⟨rfl, rfl⟩

/-- Settles O39: the completion above on either side of `MAX96`. -/
theorem xclsClassifiesTheValue : Obligations.XclsClassifiesTheValue := by
  refine ⟨by decide, fun s => ⟨fun x hx => ⟨fun hfits => ?_, fun hbig => ?_⟩,
    fun h => rejects_of_invalid_xr h .xcls (by simp)⟩⟩
  · have hcls := completes_xcls hx
    rwa [if_pos hfits, decide_eq_false (Nat.not_lt.2 hfits)] at hcls
  · have hcls := completes_xcls hx
    rwa [if_neg (Nat.not_le.2 hbig), decide_eq_true hbig, infinityCode_bits] at hcls

end Sys2Proof.Machine
end

section
/-! SUPPORT. The bits of a mantissa on a port and after a replacement, the completions of the Decimal accessors and
mutators, and the proofs of the statements of 44_decimal_type.md about them (spec rules R117 to R123). -/

namespace Sys2Proof.Machine

/-! ### The mantissa bit by bit (R122, R123) -/

/-- Bit `i` of a valid Decimal's mantissa is bit `i mod 32` of word `i / 32` of its image (R122). -/
theorem IsDec.testBit_eq_word {p : Image} {x : Triple} (hx : IsDec p x) {i : Nat} (hi : i < 96) :
    x.v.testBit i = (word p (i / 32)).getLsbD (i % 32) := by
  obtain ⟨-, rfl⟩ := (isDec_iff p x).1 hx
  have hmantissa : (dec p).v.testBit i = p.getLsbD i := by
    rw [dec, BitVec.testBit_toNat, BitVec.getLsbD_extractLsb', decide_eq_true hi, Bool.true_and, Nat.zero_add]
  rw [hmantissa, word, BitVec.getLsbD_extractLsb', decide_eq_true (Nat.mod_lt i (by decide)), Bool.true_and,
    Nat.div_add_mod]

/-- After a replacement the replaced bit is the new one and every other bit is the old one (R123). -/
theorem getLsbD_replaceBit (m : BitVec 96) {i : Nat} (b : Bool) (hi : i < 96) (j : Nat) :
    (replaceBit m i b).getLsbD j = if j = i then b else m.getLsbD j := by
  have hmask : (1#96 <<< i).getLsbD j = decide (j = i) := by
    rw [← BitVec.twoPow_eq, BitVec.getLsbD_twoPow, decide_eq_true hi, Bool.true_and]
    exact decide_eq_decide.2 eq_comm
  cases b with
  | true =>
    rw [replaceBit, if_pos rfl, BitVec.getLsbD_or, hmask]
    by_cases hj : j = i <;> simp [hj]
  | false =>
    have hinside : m.getLsbD j = true → j < 96 := BitVec.lt_of_getLsbD
    rw [replaceBit, if_neg Bool.false_ne_true, BitVec.getLsbD_and, BitVec.getLsbD_not, hmask]
    by_cases hj : j = i
    · simp [hj]
    · simpa [hj] using hinside

/-- The mantissa DSBIT delivers, as a natural number (R123). -/
theorem testBit_replaceBit {v i : Nat} (hv : v < 2 ^ 96) (b : Bool) (hi : i < 96) (j : Nat) :
    (replaceBit (BitVec.ofNat 96 v) i b).toNat.testBit j = if j = i then b else v.testBit j := by
  rw [BitVec.testBit_toNat, getLsbD_replaceBit _ b hi, ← BitVec.testBit_toNat, BitVec.toNat_ofNat,
    Nat.mod_eq_of_lt hv]

/-! ### Completions with a Decimal -/

/-- A meaning whose result is the image of a Decimal in range, with SUCCESS. -/
theorem completes_of_decimal {i : Instr} {s : State} {r : Result} {t : Triple}
    (h : exec i s = .next (s.complete r)) (hr : r = Result.plain .success (decImg t)) (hv : t.v < 2 ^ 96)
    (hsc : t.sc ≤ 28) : Completes i s 0 false false fun p q => IsDecResult p t ∧ q = 0 :=
  completes_of_plain h hr ⟨isDecResult_decImg t hv hsc, rfl⟩

/-- With a legal immediate and a valid Decimal operand the result is the one computed. -/
theorem legal_withDec_valid {c : Prop} [Decidable c] (h : c) {a : Image} {x : Triple} (hx : IsDec a x)
    (k : Triple → Result) : Result.legal (decide c) (withDec a k) = k x := by
  rw [legal_eq h, withDec_valid hx]

/-! ### The accessors (R117, R118, R120, R122) -/

/-- DZERO needs no operand. -/
theorem completes_dzero (s : State) : Completes .dzero s 0 false false fun p q => p = 0 ∧ q = 0 :=
  completes_of_plain rfl rfl ⟨by decide, rfl⟩

section
variable {s : State} {x : Triple} (hx : IsDec s.opa x)
include hx

theorem completes_dgsign : Completes .dgsign s 0 false false fun p q => p.toNat = x.sg.toNat ∧ q = 0 :=
  completes_of_bool rfl (withDec_valid hx _)

/-- A scale of at most 28 fits the delivered word. -/
theorem completes_dgscale : Completes .dgscale s 0 false false fun p q => p.toNat = x.sc ∧ q = 0 := by
  have ⟨_, hsc, _⟩ := hx
  refine completes_of_plain rfl (withDec_valid hx _) ⟨?_, rfl⟩
  rw [toNat_wordImg, BitVec.toNat_ofNat, Nat.mod_eq_of_lt (by omega)]

theorem completes_dgbit {i : BitVec 8} (hi : i.toNat ≤ 95) :
    Completes (.dgbit i) s 0 false false fun p q => p.toNat = (x.v.testBit i.toNat).toNat ∧ q = 0 := by
  rw [hx.testBit_eq_word (Nat.lt_succ_of_le hi)]
  exact completes_of_bool rfl (legal_withDec_valid hi hx _)

/-! ### The mutators (R119, R121, R123) -/

theorem completes_dssign {k : BitVec 8} (hk : k.toNat ≤ 1) : Completes (.dssign k) s 0 false false fun p q =>
    IsDecResult p ⟨x.v, x.sc, decide (k.toNat = 1)⟩ ∧ q = 0 := by
  have ⟨hv, hsc, _⟩ := hx
  exact completes_of_decimal rfl (legal_withDec_valid hk hx _) hv hsc

/-- The new scale is in range because the immediate is (R43). -/
theorem completes_dsscale {t : BitVec 8} (ht : t.toNat ≤ 28) : Completes (.dsscale t) s 0 false false fun p q =>
    IsDecResult p ⟨x.v, t.toNat, x.sg⟩ ∧ q = 0 := by
  have ⟨hv, _, _⟩ := hx
  exact completes_of_decimal rfl (legal_withDec_valid ht hx _) hv ht

theorem completes_dsbit (b : Bool) {i : BitVec 7} (hi : i.toNat ≤ 95) :
    Completes (.dsbit b i) s 0 false false fun p q =>
      IsDecResult p ⟨(replaceBit (BitVec.ofNat 96 x.v) i.toNat b).toNat, x.sc, x.sg⟩ ∧ q = 0 := by
  have ⟨_, hsc, _⟩ := hx
  exact completes_of_decimal rfl (legal_withDec_valid hi hx _) (BitVec.isLt _) hsc

end

/-! ### The statements -/

/-- Settles O40: the command words by their rows of the opcode map, the completions above, and the operand check. -/
theorem decimalAccessorsRead : Obligations.DecimalAccessorsRead := by
  refine ⟨by decide, by decide, by decide,
    fun i hi => (decode_ofNat i 0x4D (by decide)).trans (ranged_of_le hi _),
    fun s => ⟨completes_dzero s, fun x hx => ?_, fun h => ?_⟩⟩
  · exact ⟨completes_dgsign hx, completes_dgscale hx, fun i hi => completes_dgbit hx hi⟩
  · exact ⟨rejects_of_invalid_dec h .dgsign (by simp), rejects_of_invalid_dec h .dgscale (by simp),
      fun i hi => rejects_of rfl (legal_withDec_invalid hi h _)⟩

/-- DSBIT's command word holds the new bit above the bit index (R43, R123). -/
theorem decode_dsbit (b : Bool) {i : BitVec 7} (hi : i.toNat ≤ 95) :
    decode (BitVec.ofNat 32 ((b.toNat * 128 + i.toNat) * 256 + 0x4E)) = .ok (.dsbit b i) := by
  have himm : b.toNat * 128 + i.toNat = (BitVec.ofBool b ++ i).toNat := by
    rw [toNat_append_add, toNat_ofBool]; rfl
  rw [himm, decode_ofNat _ 0x4E (by decide)]
  exact bitChoice_append hi

/-- Settles O41: each delivered triple is the operand's with one field replaced, and so in range. -/
theorem decimalMutatorsReplaceOneField : Obligations.DecimalMutatorsReplaceOneField := by
  refine ⟨fun k hk => (decode_ofNat k 0x4A (by decide)).trans (ranged_of_le hk _),
    fun t ht => (decode_ofNat t 0x4C (by decide)).trans (ranged_of_le ht _),
    fun b i hi => decode_dsbit b hi, fun s => ⟨fun x hx => ?_, fun h => ?_⟩⟩
  · have ⟨hv, _, _⟩ := hx
    exact ⟨fun k hk => completes_dssign hx hk, fun t ht => completes_dsscale hx ht,
      fun b i hi => ⟨_, testBit_replaceBit hv b (Nat.lt_succ_of_le hi), completes_dsbit hx b hi⟩⟩
  · exact ⟨fun k hk => rejects_of rfl (legal_withDec_invalid hk h _),
      fun t ht => rejects_of rfl (legal_withDec_invalid ht h _),
      fun b i hi => rejects_of rfl (legal_withDec_invalid hi h _)⟩

end Sys2Proof.Machine
end

section
/-! SUPPORT. The values of sums, aligned triples and remainders, what the Decimal commands deliver, and the proofs of the
statements of 45_decimal_arith.md about ADD, MUL, DIV and MOD and their sequences of extended commands (spec rules R130,
R132 to R134, R136, R137). -/

namespace Sys2Proof.Machine

/-! ### The sign as a factor -/

/-- The sign of a triple as the factor in its value (R10). -/
def signFactor (sg : Bool) : ℚ := if sg then -1 else 1

theorem Triple.value_eq (t : Triple) : t.value = signFactor t.sg * t.v / 10 ^ t.sc := rfl

@[simp] theorem signFactor_not (sg : Bool) : signFactor (!sg) = -signFactor sg := by cases sg <;> simp [signFactor]

theorem signFactor_mul_self (sg : Bool) : signFactor sg * signFactor sg = 1 := by cases sg <;> simp [signFactor]

theorem signFactor_xor (sg sg' : Bool) : signFactor (sg ^^ sg') = signFactor sg * signFactor sg' := by
  cases sg <;> cases sg' <;> simp [signFactor]

theorem signFactor_div (sg sg' : Bool) : signFactor sg / signFactor sg' = signFactor (sg ^^ sg') := by
  cases sg <;> cases sg' <;> simp [signFactor]

/-! ### Signed sums (R89) -/

/-- The signed sum without the case split on the borrow. -/
theorem xsum_eq (x y : Triple) : xsum x y =
    ⟨if x.sg = y.sg then x.v + y.v else ((x.v : ℤ) - y.v).natAbs, x.sc,
      if x.sg = y.sg ∨ y.v ≤ x.v then x.sg else y.sg⟩ := by
  rw [xsum, magnitudeDiff_eq]
  split
  next hsg => simp [hsg]
  next hsg =>
    rw [Bool.eq_not_of_ne (Ne.symm hsg)]
    by_cases hborrow : x.v < y.v
    · simp [hborrow]
    · simp [hborrow, Nat.le_of_not_lt hborrow]

/-- The signed sum of two registers of one scale is the sum of their values. -/
theorem value_xsum {x y : Triple} (hsc : x.sc = y.sc) : (xsum x y).value = x.value + y.value := by
  have hsum : signFactor (xsum x y).sg * (xsum x y).v = signFactor x.sg * x.v + signFactor y.sg * y.v := by
    rw [xsum]
    split
    next hsg => rw [hsg]; push_cast; ring
    next hsg =>
      rw [magnitudeDiff, Bool.eq_not_of_ne (Ne.symm hsg)]
      by_cases hborrow : x.v < y.v
      · simp [hborrow, Nat.cast_sub hborrow.le]; ring
      · simp [hborrow, Nat.cast_sub (Nat.le_of_not_lt hborrow)]; ring
  have hscale : (xsum x y).sc = x.sc := by rw [xsum_eq]
  rw [Triple.value_eq, hsum, hscale, add_div, Triple.value_eq, Triple.value_eq, hsc]

/-- The signed sum fits when both values do and, with like signs, their sum does. -/
theorem xsum_le {x y : Triple} {m : Nat} (hx : x.v ≤ m) (hy : y.v ≤ m) (hsum : x.sg = y.sg → x.v + y.v ≤ m) :
    (xsum x y).v ≤ m := by
  rw [xsum_eq]
  dsimp only
  split
  next hsg => exact hsum hsg
  next => omega

/-! ### Alignment (R106, R114) -/

theorem value_raiseExact {target : Nat} {x : Triple} (h : x.sc ≤ target) : (raiseExact target x).value = x.value := by
  obtain ⟨n, rfl⟩ := Nat.exists_eq_add_of_le h
  rw [Triple.value_eq, Triple.value_eq, raiseExact, Nat.add_sub_cancel_left]
  push_cast
  rw [pow_add]
  field_simp

theorem le_max96_iff {v : Nat} : v ≤ max96 ↔ v < 2 ^ 96 := by unfold max96; omega

/-- `normalize` keeps both values within `MAX96` (R104). -/
theorem normalize_fits {x y : Triple} (hx : x.v ≤ max96) (hy : y.v ≤ max96) :
    (normalize x y).x.v ≤ max96 ∧ (normalize x y).y.v ≤ max96 := by
  obtain ⟨i, j, hi, hj, hnormalize⟩ := normalize_spec x y
  rw [hnormalize]
  exact ⟨hi.le hx le_rfl, hj.le hy le_rfl⟩

/-- `normalize` keeps both signs (R104). -/
theorem normalize_sg (x y : Triple) : (normalize x y).x.sg = x.sg ∧ (normalize x y).y.sg = y.sg := by
  obtain ⟨i, j, -, -, hnormalize⟩ := normalize_spec x y
  rw [hnormalize]
  exact ⟨rfl, rfl⟩

/-- When the scales meet, both registers are left as `normalize` raised them. -/
theorem align_of_meet {x y : Triple} (h : (normalize x y).ovf = false) :
    align x y = ((normalize x y).x, (normalize x y).y) := by
  simp [align, h]

/-- When both values fit at the higher scale, the alignment of ADD is the exact one. -/
theorem align_eq_xalign {x y : Triple} (hx : x.v * 10 ^ (max x.sc y.sc - x.sc) ≤ max96)
    (hy : y.v * 10 ^ (max x.sc y.sc - y.sc) ≤ max96) : align x y = xalign x y := by
  obtain ⟨i, j, hi, hj, hnormalize⟩ := normalize_spec x y
  have hxsteps : max x.sc y.sc - x.sc = y.sc - x.sc := by omega
  have hysteps : max x.sc y.sc - y.sc = x.sc - y.sc := by omega
  rw [hxsteps] at hx
  rw [hysteps] at hy
  obtain rfl := hi.eq_steps hx
  obtain rfl := hj.eq_steps hy
  have hxscale : x.sc + (y.sc - x.sc) = max x.sc y.sc := by omega
  have hyscale : y.sc + (x.sc - y.sc) = max x.sc y.sc := by omega
  rw [hxscale, hyscale] at hnormalize
  rw [align_of_meet (by simp [hnormalize]), hnormalize, xalign, raiseExact, raiseExact, hxsteps, hysteps]

/-! ### Completions of the Decimal commands -/

/-- A meaning whose result is the downcast of a triple in range delivers that triple. -/
theorem completes_of_deliver_fits {i : Instr} {s : State} {r : Result} {t : Triple}
    (h : exec i s = .next (s.complete r)) (hr : r = deliver t) (hv : t.v ≤ max96) (hsc : t.sc ≤ 28) :
    Completes i s 0 false false fun p q => IsDecResult p t ∧ q = 0 := by
  rw [deliver, downcast_of_fits hv hsc] at hr
  exact completes_of_decimal h hr (le_max96_iff.1 hv) hsc

/-- A meaning whose result is the downcast of a triple, in the relational description of the downcast. -/
theorem completes_of_deliver_downcastsTo {i : Instr} {s : State} {r : Result} {t : Triple}
    (h : exec i s = .next (s.complete r)) (hr : r = deliver t) :
    ∃ code p, DowncastsTo t code p ∧ Completes i s code false false fun q q2 => q = p ∧ q2 = 0 :=
  ⟨_, _, downcast_downcastsTo t, completes_of_deliver h hr⟩

/-- The exactly aligned dividend and divisor divided digit by digit, with the sign of the quotient (R133). -/
theorem divResult_valid {a b : Image} {x y : Triple} (hx : IsDec a x) (hy : IsDec b y) (hne : y.v ≠ 0) :
    divResult a b =
      deliver
        ⟨(fracdiv (x.v * 10 ^ (max x.sc y.sc - x.sc)) (y.v * 10 ^ (max x.sc y.sc - y.sc))).q,
          (fracdiv (x.v * 10 ^ (max x.sc y.sc - x.sc)) (y.v * 10 ^ (max x.sc y.sc - y.sc))).s, x.sg ^^ y.sg⟩ := by
  rw [divResult, withDec2_valid hx hy, if_neg hne]
  rfl

theorem divResult_zero {a b : Image} {x y : Triple} (hx : IsDec a x) (hy : IsDec b y) (hzero : y.v = 0) :
    divResult a b = Result.error .zeroDivision := by
  rw [divResult, withDec2_valid hx hy, if_pos hzero]

/-! ### ADD (R130) -/

/-- The sum before the downcast: the operands raised, rounded to the lower of the two scales reached, and added. -/
theorem decimalSum_spec (x y : Triple) : ∃ i j c, RaisesBy x.v (y.sc - x.sc) i ∧ RaisesBy y.v (x.sc - y.sc) j ∧
    c = min (x.sc + i) (y.sc + j) ∧
    decimalSum x y = xsum ⟨rhe (x.v * 10 ^ i) (x.sc + i - c), c, x.sg⟩ ⟨rhe (y.v * 10 ^ j) (y.sc + j - c), c, y.sg⟩ := by
  obtain ⟨i, j, c, hi, hj, hc, halign⟩ := align_spec x y
  refine ⟨i, j, c, hi, hj, hc, ?_⟩
  rw [decimalSum, widen, widen, halign]

/-- Settles O42: the sum is the one above, `rhe` is the nearest even, and `downcast` meets its relation. -/
theorem addAlignsAddsAndDowncasts : Obligations.AddAlignsAddsAndDowncasts := by
  refine ⟨by decide, fun s => ⟨fun x y hx hy => ?_, fun h => rejects_of_invalid_dec2 h .add (by simp)⟩⟩
  obtain ⟨i, j, c, hi, hj, hc, hsum⟩ := decimalSum_spec x y
  have hresult : addResult s.opa s.opb = deliver (decimalSum x y) := withDec2_valid hx hy _
  rw [hsum, xsum_eq] at hresult
  obtain ⟨code, p, hdown, hcompletes⟩ := completes_of_deliver_downcastsTo (i := .add) rfl hresult
  exact ⟨i, j, c, _, _, code, p, hi, hj, hc, (nearestEven_iff_rhe _ _ _).2 rfl, (nearestEven_iff_rhe _ _ _).2 rfl,
    hdown, hcompletes⟩

/-- ADD when both operands and the sum fit at the higher scale: the signed sum of the exactly aligned operands. -/
theorem completes_add_of_fits {s : State} {x y : Triple} (hx : IsDec s.opa x) (hy : IsDec s.opb y)
    (hxfits : x.v * 10 ^ (max x.sc y.sc - x.sc) ≤ max96) (hyfits : y.v * 10 ^ (max x.sc y.sc - y.sc) ≤ max96)
    (hsum : (xsum (xalign x y).1 (xalign x y).2).v ≤ max96) :
    Completes .add s 0 false false fun p q => IsDecResult p (xsum (xalign x y).1 (xalign x y).2) ∧ q = 0 := by
  have ⟨_, hxsc, _⟩ := hx
  have ⟨_, hysc, _⟩ := hy
  have hresult : addResult s.opa s.opb = deliver (xsum (xalign x y).1 (xalign x y).2) := by
    rw [addResult, withDec2_valid hx hy, decimalSum, widen, widen, align_eq_xalign hxfits hyfits]
  have hscale : (xsum (xalign x y).1 (xalign x y).2).sc ≤ 28 := by
    rw [xsum_eq]; exact max_le hxsc hysc
  exact completes_of_deliver_fits rfl hresult hsum hscale

/-- Settles O43: exact alignment keeps both values, and the signed sum adds them. -/
theorem addIsExactWhenTheScalesMeet : Obligations.AddIsExactWhenTheScalesMeet := by
  rintro s x y _ _ hx hy rfl rfl hxfits hyfits hsum
  refine ⟨xsum (xalign x y).1 (xalign x y).2, by rw [xsum_eq]; rfl, ?_,
    completes_add_of_fits hx hy hxfits hyfits (xsum_le hxfits hyfits hsum)⟩
  calc (xsum (xalign x y).1 (xalign x y).2).value
      = (xalign x y).1.value + (xalign x y).2.value := value_xsum rfl
    _ = x.value + y.value := by
      rw [xalign, value_raiseExact (le_max_left _ _), value_raiseExact (le_max_right _ _)]

/-! ### MUL and DIV (R132, R133) -/

/-- Settles O45: MUL downcasts the exact product. -/
theorem mulRoundsTheExactProductOnce : Obligations.MulRoundsTheExactProductOnce :=
  ⟨by decide, fun _ => ⟨fun _ _ hx hy => completes_of_deliver_downcastsTo rfl (withDec2_valid hx hy _),
    fun h => rejects_of_invalid_dec2 h .mul (by simp)⟩⟩

/-- Settles O46: `fracdiv` and `downcast` meet their relations; the aligned divisor is zero only when the divisor
is. -/
theorem divGeneratesTheFractionalDigits : Obligations.DivGeneratesTheFractionalDigits := by
  refine ⟨by decide, fun s => ⟨fun x y hx hy => ⟨fun hne => ?_, fun hzero => ?_⟩,
    fun h => rejects_of_invalid_dec2 h .div (by simp)⟩⟩
  · have hdivisor : 0 < y.v * 10 ^ (max x.sc y.sc - y.sc) := by positivity
    obtain ⟨code, p, hdown, hcompletes⟩ := completes_of_deliver_downcastsTo (i := .div) rfl (divResult_valid hx hy hne)
    exact ⟨_, _, _, code, p, fracdiv_fracDivides _ _ hdivisor, hdown, hcompletes⟩
  · exact completes_of_error (code := .zeroDivision) rfl (divResult_zero hx hy hzero)

/-! ### MOD (R134) -/

/-- The integer part of a rational number, toward zero (R134: `trunc`). -/
def truncate (q : ℚ) : ℤ := if 0 ≤ q then ⌊q⌋ else ⌈q⌉

theorem truncate_neg (q : ℚ) : truncate (-q) = -truncate q := by
  obtain hneg | rfl | hpos := lt_trichotomy q 0
  · rw [truncate, truncate, if_pos (by linarith), if_neg hneg.not_ge, Int.floor_neg]
  · simp [truncate]
  · rw [truncate, truncate, if_neg (by linarith), if_pos hpos.le, Int.ceil_neg]

theorem truncate_natCast_div (n d : Nat) : truncate ((n : ℚ) / d) = (n / d : Nat) := by
  rw [truncate, if_pos (by positivity), Rat.floor_natCast_div_natCast, Int.natCast_div]

theorem truncate_signed_div (sg : Bool) (n d : Nat) :
    (truncate (signFactor sg * ((n : ℚ) / d)) : ℚ) = signFactor sg * (n / d : Nat) := by
  cases sg with
  | false => simp only [signFactor, Bool.false_eq_true, if_false, one_mul, truncate_natCast_div, Int.cast_natCast]
  | true =>
    simp only [signFactor, if_true, neg_one_mul, truncate_neg, truncate_natCast_div, Int.cast_neg, Int.cast_natCast]

/-- At one scale, the remainder with the sign of the dividend is the dividend less the divisor times the truncated
quotient. -/
theorem value_remainder {x y : Triple} (hsc : x.sc = y.sc) :
    (⟨x.v % y.v, x.sc, x.sg⟩ : Triple).value = x.value - y.value * truncate (x.value / y.value) := by
  have hquotient : x.value / y.value = signFactor (x.sg ^^ y.sg) * ((x.v : ℚ) / y.v) := by
    rw [Triple.value_eq, Triple.value_eq, hsc, div_div_div_cancel_right₀ (by positivity), mul_div_mul_comm,
      signFactor_div]
  have hdivision : (x.v : ℚ) = (x.v % y.v : Nat) + y.v * (x.v / y.v : Nat) := by
    exact_mod_cast (Nat.mod_add_div x.v y.v).symm
  rw [hquotient, truncate_signed_div, signFactor_xor, Triple.value_eq, Triple.value_eq, Triple.value_eq, ← hsc]
  linear_combination (signFactor x.sg / 10 ^ x.sc) * (-hdivision)
    + signFactor x.sg * y.v * (x.v / y.v : Nat) / 10 ^ x.sc * (signFactor_mul_self y.sg)

/-- The exact remainder fits: it is at most the dividend and below the divisor, and one of the two is an unscaled
mantissa. -/
theorem aligned_mod_lt {x y : Triple} (hx : x.v < 2 ^ 96) (hy : y.v < 2 ^ 96) (hne : y.v ≠ 0) :
    x.v * 10 ^ (max x.sc y.sc - x.sc) % (y.v * 10 ^ (max x.sc y.sc - y.sc)) < 2 ^ 96 := by
  obtain hsc | hsc := le_total x.sc y.sc
  · rw [max_eq_right hsc, Nat.sub_self, pow_zero, mul_one]
    exact (Nat.mod_lt _ (Nat.pos_of_ne_zero hne)).trans hy
  · rw [max_eq_left hsc, Nat.sub_self, pow_zero, mul_one]
    exact (Nat.mod_le _ _).trans_lt hx

/-- Settles O47: exact alignment keeps both values, and the remainder is that of the aligned values. -/
theorem modIsTheExactRemainder : Obligations.ModIsTheExactRemainder := by
  refine ⟨by decide, fun s => ⟨fun x y hx hy => ⟨fun hne => ?_, fun hzero => ?_⟩,
    fun h => rejects_of_invalid_dec2 h .mod (by simp)⟩⟩
  · have ⟨hxv, hxsc, _⟩ := hx
    have ⟨hyv, hysc, _⟩ := hy
    have hvalue := value_remainder (x := raiseExact (max x.sc y.sc) x) (y := raiseExact (max x.sc y.sc) y) rfl
    rw [value_raiseExact (le_max_left _ _), value_raiseExact (le_max_right _ _)] at hvalue
    have hresult : modResult s.opa s.opb = Result.plain .success (decImg
        ⟨x.v * 10 ^ (max x.sc y.sc - x.sc) % (y.v * 10 ^ (max x.sc y.sc - y.sc)), max x.sc y.sc, x.sg⟩) := by
      rw [modResult, withDec2_valid hx hy, if_neg hne]
      rfl
    exact ⟨⟨_, _, _⟩, rfl, rfl, rfl, hvalue,
      completes_of_decimal rfl hresult (aligned_mod_lt hxv hyv hne) (max_le hxsc hysc)⟩
  · exact completes_of_error (code := .zeroDivision) rfl (by rw [modResult, withDec2_valid hx hy, if_pos hzero])

/-! ### Signed zeros and the neutral factor (R137) -/

/-- Settles O48: both operands of the sum are at one scale and fit, so their magnitudes cancel there; the product by 1
is the operand, which fits. -/
theorem negationSumsToZeroAndOneIsNeutral : Obligations.NegationSumsToZeroAndOneIsNeutral := by
  intro s x q hx hq
  have ⟨hv, hsc, _⟩ := hx
  have hfits : x.v ≤ max96 := le_max96_iff.2 hv
  constructor
  · have hcancel : xsum (xalign x (negate x)).1 (xalign x (negate x)).2 = ⟨0, x.sc, x.sg⟩ := by
      simp [xsum_eq, xalign, raiseExact, negate]
    have hadd := completes_add_of_fits (s := { s with opb := q }) (y := negate x) hx hq
      (by simpa [negate] using hfits) (by simpa [negate] using hfits) (by rw [hcancel]; exact Nat.zero_le _)
    rwa [hcancel] at hadd
  · have hone : IsDec 1 ⟨1, 0, false⟩ := by decide
    have hproduct : mulResult s.opa 1 = deliver x := by
      rw [mulResult, withDec2_valid hx hone]
      simp
    exact completes_of_deliver_fits rfl hproduct hfits hsc

/-! ### The sequences of extended commands (R136) -/

/-- A completion with the downcast of a triple has the outputs of XDOWN on an image of that triple. -/
theorem outputs_eq_xdown {s : State} {r : Result} {t : Triple} {p : Image} (hr : r = deliver t) (hp : IsXr p t) :
    (s.complete r).res = (State.complete { s with opa := p } (xdownResult p)).res ∧
      (s.complete r).res2 = (State.complete { s with opa := p } (xdownResult p)).res2 ∧
      (s.complete r).status = (State.complete { s with opa := p } (xdownResult p)).status := by
  have hdown : xdownResult p = r := (withXr_valid hp _).trans hr.symm
  rw [hdown]
  exact ⟨rfl, rfl, rfl⟩

section
variable {s : State} {x y : Triple} (hx : IsXr s.opa x) (hy : IsXr s.opb y)
include hx hy

/-- XNORM on a valid pair delivers both registers as `normalize` leaves them (R105). -/
theorem completes_xnorm : Completes .xnorm s 0 (normalize x y).ovf (decide (max96 < (normalize x y).x.v))
    fun p q => IsXr p (normalize x y).x ∧ IsXr q (normalize x y).y := by
  have ⟨_, hxsc, _⟩ := hx
  have ⟨_, hysc, _⟩ := hy
  obtain ⟨i, j, hi, hj, hnormalize⟩ := normalize_spec x y
  have hxraised : IsXr (xrImg (normalize x y).x) (normalize x y).x := by
    rw [hnormalize]; exact isXr_of_raisesBy hx hysc hi
  have hyraised : IsXr (xrImg (normalize x y).y) (normalize x y).y := by
    rw [hnormalize]; exact isXr_of_raisesBy hy hxsc hj
  exact completes_of_extended rfl (withXr2_valid hx hy _) _ hxraised rfl ⟨hxraised, hyraised⟩

/-- XADD or XSUB, chosen by the signs, delivers the signed sum of two values within `MAX96` (R89). -/
theorem exec_xsum (hxfits : x.v ≤ max96) (hyfits : y.v ≤ max96) :
    ∃ t, exec (if x.sg = y.sg then .xadd else .xsub) s = .next t ∧ IsXr t.res (xsum x y) := by
  rw [le_max96_iff] at hxfits hyfits
  rw [xsum]
  split
  next =>
    obtain ⟨t, hexec, ⟨hres, -⟩, -⟩ := (xaddSumWithCarry.2 s).1 x y hx hy
    rw [Nat.mod_eq_of_lt (by omega)] at hres
    exact ⟨t, hexec, hres⟩
  next =>
    obtain ⟨t, hexec, ⟨hres, -⟩, -⟩ := (xsubMagnitudeAndBorrow.2 s).1 x y hx hy
    rw [magnitudeDiff_eq]
    exact ⟨t, hexec, hres⟩

/-- XFDIV on a valid pair with a divisor other than zero delivers the quotient of `fracdiv` (R96). -/
theorem exec_xfdiv (hne : y.v ≠ 0) :
    ∃ t, exec .xfdiv s = .next t ∧ IsXr t.res ⟨(fracdiv x.v y.v).q, (fracdiv x.v y.v).s, x.sg ^^ y.sg⟩ := by
  have ⟨hxv, _, _⟩ := hx
  have hfrac := fracdiv_fracDivides x.v y.v (Nat.pos_of_ne_zero hne)
  have ⟨_, _, hdigits, _⟩ := hfrac
  have hq : (fracdiv x.v y.v).q < 2 ^ 224 := hfrac.quotient_le.trans_lt (max_lt hxv (by decide))
  have hquotient := isXr_xrImg ⟨(fracdiv x.v y.v).q, (fracdiv x.v y.v).s, x.sg ^^ y.sg⟩ hq (by dsimp only; omega)
  have hresult : xfdivResult s.opa s.opb = Result.extended .success false
      (xrImg ⟨(fracdiv x.v y.v).q, (fracdiv x.v y.v).s, x.sg ^^ y.sg⟩)
      (xrImg ⟨(fracdiv x.v y.v).r, 0, x.sg⟩) := by
    rw [xfdivResult, withXr2_valid hx hy, if_neg hne]
  obtain ⟨t, hexec, hres, -⟩ := completes_of_extended (i := .xfdiv)
    (P := fun p _ => IsXr p ⟨_, _, _⟩) rfl hresult _ hquotient rfl hquotient
  exact ⟨t, hexec, hres⟩

end

/-- Bit 8 of a status word is `OVF` (R59). -/
theorem StatusIs.ovf_bit {w : Word} {code : Nat} {ovf x96 : Bool} (h : StatusIs w code ovf x96) (hcode : code < 256) :
    w.toNat / 256 % 2 = ovf.toNat := by
  have hovf := ovf.toNat_le
  omega

/-- Settles O49: each command of the sequence delivers an image of the next triple of R130, and when the scales meet
`align` is what `normalize` leaves. -/
theorem addFromExtendedCommands : Obligations.AddFromExtendedCommands := by
  intro s x y hx hy
  have ⟨hxv, _, _⟩ := hx
  have ⟨hyv, _, _⟩ := hy
  obtain ⟨t1, h1, ⟨hx1, -⟩, -⟩ := completes_xwiden hx
  obtain ⟨t2, h2, ⟨hy2, -⟩, -⟩ := completes_xwiden (s := { s with opa := s.opb }) hy
  obtain ⟨t3, h3, ⟨hx3, hy3⟩, hstatus, -⟩ := completes_xnorm (s := { s with opa := t1.res, opb := t2.res }) hx1 hy2
  obtain ⟨hxfits, hyfits⟩ := normalize_fits (le_max96_iff.2 hxv) (le_max96_iff.2 hyv)
  obtain ⟨hxsg, hysg⟩ := normalize_sg x y
  obtain ⟨t4, h4, hsum⟩ := exec_xsum (s := { s with opa := t3.res, opb := t3.res2 }) hx3 hy3 hxfits hyfits
  rw [hxsg, hysg] at h4
  refine ⟨t1, t2, t3, t4, _, _, h1, h2, h3, h4, rfl, rfl, fun hmeet => ?_⟩
  have hovf : (normalize x y).ovf = false := by
    rw [← Bool.toNat_eq_zero, ← hstatus.ovf_bit (by decide), hmeet]
  have hresult : addResult s.opa s.opb = deliver (xsum (normalize x y).x (normalize x y).y) := by
    rw [addResult, withDec2_valid hx hy, decimalSum, widen, widen, align_of_meet hovf]
  exact outputs_eq_xdown hresult hsum

/-- The MUL half of R136: the product of two mantissas and the sum of two scales fit the register. -/
theorem mul_eq_xmul_xdown {s : State} {x y : Triple} {p q : Image} (hx : IsDec s.opa x) (hy : IsDec s.opb y)
    (hp : IsXr p x) (hq : IsXr q y) :
    ∃ t3 t4 t5, exec .xmul { s with opa := p, opb := q } = .next t3 ∧
      exec .xdown { s with opa := t3.res } = .next t4 ∧ exec .mul s = .next t5 ∧
      t5.res = t4.res ∧ t5.res2 = t4.res2 ∧ t5.status = t4.status := by
  have ⟨hxv, hxsc, _⟩ := hx
  have ⟨hyv, hysc, _⟩ := hy
  have hproduct : x.v * y.v < 2 ^ 224 := (Nat.mul_lt_mul'' hxv hyv).trans (by decide)
  obtain ⟨t3, h3, ⟨hres, -⟩, -⟩ := completes_xmul (s := { s with opa := p, opb := q }) hp hq
  rw [Nat.mod_eq_of_lt hproduct, Nat.mod_eq_of_lt (by omega)] at hres
  exact ⟨t3, _, _, h3, rfl, rfl, outputs_eq_xdown (withDec2_valid hx hy _) hres⟩

/-- A mantissa raised by as many steps as two Decimal scales can differ still fits the register. -/
theorem mul_ten_pow_lt {v n : Nat} (hv : v < 2 ^ 96) (hn : n ≤ 28) : v * 10 ^ n < 2 ^ 224 :=
  calc v * 10 ^ n ≤ v * 10 ^ 28 := Nat.mul_le_mul_left v (Nat.pow_le_pow_right (by decide) hn)
    _ < 2 ^ 224 := by omega

/-- The DIV half of R136: the XINC steps are the exact alignment, and XFDIV is `fracdiv` or the zero divisor's status. -/
theorem div_eq_xinc_xfdiv_xdown {s : State} {x y : Triple} {a b : Image} (hx : IsDec s.opa x) (hy : IsDec s.opb y)
    (ha : IsXr a x) (hb : IsXr b y) :
    ∃ p q t3 t4 t5, XincSteps s (y.sc - x.sc) a p ∧ XincSteps s (x.sc - y.sc) b q ∧
      (xr p).sc = (xr q).sc ∧ exec .xfdiv { s with opa := p, opb := q } = .next t3 ∧
      exec .xdown { s with opa := t3.res } = .next t4 ∧ exec .div s = .next t5 ∧
      (y.v ≠ 0 → t5.res = t4.res ∧ t5.res2 = t4.res2 ∧ t5.status = t4.status) ∧
      (y.v = 0 → StatusIs t3.status 3 false false ∧ t5.status = t3.status) := by
  have ⟨hxv, hxsc, _⟩ := hx
  have ⟨hyv, hysc, _⟩ := hy
  obtain ⟨p, hxinc, hp⟩ := xincSteps_spec s (y.sc - x.sc) ha (mul_ten_pow_lt hxv (by omega)) (by omega)
  obtain ⟨q, hyinc, hq⟩ := xincSteps_spec s (x.sc - y.sc) hb (mul_ten_pow_lt hyv (by omega)) (by omega)
  have hscales : (xr p).sc = (xr q).sc := by
    rw [((isXr_iff _ _).1 hp).2, ((isXr_iff _ _).1 hq).2]
    dsimp only
    omega
  refine ⟨p, q, ?_⟩
  by_cases hzero : y.v = 0
  · have hxfdiv : xfdivResult p q = Result.error .zeroDivision := by
      rw [xfdivResult, withXr2_valid hp hq, if_pos (by simp [hzero])]
    refine ⟨_, _, _, hxinc, hyinc, hscales, rfl, rfl, rfl, fun hne => absurd hzero hne, fun _ => ?_⟩
    rw [divResult_zero hx hy hzero, hxfdiv]
    exact ⟨statusWord_is _ _ _, rfl⟩
  · have hdivisor : y.v * 10 ^ (x.sc - y.sc) ≠ 0 := by positivity
    obtain ⟨t3, h3, hres⟩ := exec_xfdiv (s := { s with opa := p, opb := q }) hp hq hdivisor
    have hxsteps : max x.sc y.sc - x.sc = y.sc - x.sc := by omega
    have hysteps : max x.sc y.sc - y.sc = x.sc - y.sc := by omega
    have hresult := divResult_valid hx hy hzero
    rw [hxsteps, hysteps] at hresult
    exact ⟨t3, _, _, hxinc, hyinc, hscales, h3, rfl, rfl, fun _ => outputs_eq_xdown hresult hres,
      fun h => absurd h hzero⟩

/-- Settles O50: XWIDEN delivers images of both operands, on which the two sequences above run. -/
theorem mulAndDivFromExtendedCommands : Obligations.MulAndDivFromExtendedCommands := by
  intro s x y hx hy
  obtain ⟨t1, h1, ⟨hp, -⟩, -⟩ := completes_xwiden hx
  obtain ⟨t2, h2, ⟨hq, -⟩, -⟩ := completes_xwiden (s := { s with opa := s.opb }) hy
  exact ⟨t1, t2, h1, h2, mul_eq_xmul_xdown hx hy hp hq, div_eq_xinc_xfdiv_xdown hx hy hp hq⟩

end Sys2Proof.Machine
end

section
/-! SUPPORT. The core comparison is the order of the values, and the proof of the statement of 46_decimal_compare.md
(spec rules R141 to R148). -/

namespace Sys2Proof.Machine

/-! ### The sign of a value -/

theorem Triple.value_eq_zero_iff {t : Triple} : t.value = 0 ↔ t.v = 0 := by
  rw [Triple.value_eq]
  cases t.sg <;> simp [signFactor]

theorem Triple.value_nonneg {t : Triple} (hsg : t.sg = false) : 0 ≤ t.value := by
  simp only [Triple.value_eq, hsg, signFactor, Bool.false_eq_true, if_false]
  positivity

theorem Triple.value_nonpos {t : Triple} (hsg : t.sg = true) : t.value ≤ 0 := by
  simp only [Triple.value_eq, hsg, signFactor, if_true, neg_one_mul, neg_div, Left.neg_nonpos_iff]
  positivity

/-- Unless both are zero, a value with the sign set is below a value with the sign clear. -/
theorem Triple.value_lt_of_signs {x y : Triple} (hx : x.sg = true) (hy : y.sg = false) (hne : ¬(x.v = 0 ∧ y.v = 0)) :
    x.value < y.value := by
  have hxle := value_nonpos hx
  have hyle := value_nonneg hy
  refine lt_of_le_of_ne (hxle.trans hyle) fun heq => hne ?_
  exact ⟨value_eq_zero_iff.1 (le_antisymm hxle (heq ▸ hyle)), value_eq_zero_iff.1 (le_antisymm (heq ▸ hxle) hyle)⟩

/-! ### The core comparison (R141) -/

theorem magnitudeOrder_eq_cmp (m n : Nat) : magnitudeOrder m n = cmp m n := by
  rw [magnitudeOrder]
  split
  next hgt => exact ((cmp_eq_gt_iff _ _).2 hgt).symm
  next hle =>
    split
    next heq => exact ((cmp_eq_eq_iff _ _).2 heq).symm
    next hne => exact ((cmp_eq_lt_iff _ _).2 (by omega)).symm

/-- At one scale and sign the magnitudes are in the order of the values, reversed when the sign is set. -/
theorem cmp_value_of_same_scale_sign {x y : Triple} (hsc : x.sc = y.sc) (hsg : x.sg = y.sg) :
    cmp x.value y.value = if x.sg then (cmp x.v y.v).swap else cmp x.v y.v := by
  have hscale : (0 : ℚ) < 10 ^ y.sc := by positivity
  rw [Triple.value_eq, Triple.value_eq, hsc, hsg]
  cases y.sg with
  | false =>
    have hmono : StrictMono fun n : Nat => signFactor false * n / 10 ^ y.sc := fun m n hmn => by
      simpa [signFactor, div_lt_div_iff_of_pos_right hscale] using hmn
    exact hmono.cmp_map_eq x.v y.v
  | true =>
    have hanti : StrictAnti fun n : Nat => signFactor true * n / 10 ^ y.sc := fun m n hmn => by
      simpa [signFactor, div_lt_div_iff_of_pos_right hscale] using hmn
    exact (hanti.cmp_map_eq x.v y.v).trans (cmp_swap _ _).symm

/-- `cmp` of R141 is the order of the represented rational numbers: equal zeros, then the signs, then the exactly
aligned magnitudes. -/
theorem decimalOrder_eq_cmp (x y : Triple) : decimalOrder x y = cmp x.value y.value := by
  rw [decimalOrder]
  split
  next hzero =>
    have heq : x.value = y.value :=
      (Triple.value_eq_zero_iff.2 hzero.1).trans (Triple.value_eq_zero_iff.2 hzero.2).symm
    exact ((cmp_eq_eq_iff _ _).2 heq).symm
  next hne =>
    split
    next hsg =>
      split
      next hx =>
        have hy : y.sg = false := by simpa [hx] using hsg
        exact ((cmp_eq_lt_iff _ _).2 (Triple.value_lt_of_signs hx hy hne)).symm
      next hx =>
        have hy : y.sg = true := by simpa [hx] using hsg
        have hlt := Triple.value_lt_of_signs hy (Bool.eq_false_of_not_eq_true hx) (mt And.symm hne)
        exact ((cmp_eq_gt_iff _ _).2 hlt).symm
    next hsg =>
      have haligned := cmp_value_of_same_scale_sign (x := raiseExact (max x.sc y.sc) x)
        (y := raiseExact (max x.sc y.sc) y) rfl (not_not.1 hsg)
      rw [value_raiseExact (le_max_left _ _), value_raiseExact (le_max_right _ _)] at haligned
      rw [haligned]
      simp only [magnitudeOrder_eq_cmp]
      rfl

theorem decimalOrder_eq_lt_iff {x y : Triple} : decimalOrder x y = .lt ↔ x.value < y.value := by
  rw [decimalOrder_eq_cmp, cmp_eq_lt_iff]

theorem decimalOrder_eq_gt_iff {x y : Triple} : decimalOrder x y = .gt ↔ y.value < x.value := by
  rw [decimalOrder_eq_cmp, cmp_eq_gt_iff]

theorem decimalOrder_eq_eq_iff {x y : Triple} : decimalOrder x y = .eq ↔ x.value = y.value := by
  rw [decimalOrder_eq_cmp, cmp_eq_eq_iff]

/-! ### The six predicates (R143 to R148) -/

/-- A meaning whose result on two valid Decimals is the truth value of a proposition completes with that of any
equivalent one. -/
theorem completes_of_withDec2_decide {i : Instr} {s : State} {x y : Triple} {p : Triple → Triple → Prop}
    [∀ x y, Decidable (p x y)] {c : Prop} [Decidable c] (hx : IsDec s.opa x) (hy : IsDec s.opb y)
    (h : exec i s = .next (s.complete (withDec2 s.opa s.opb fun x y => Result.bool (decide (p x y)))))
    (hc : p x y ↔ c) : Completes i s 0 false false fun r r2 => r.toNat = (if c then 1 else 0) ∧ r2 = 0 := by
  refine completes_of_decide h ?_
  rw [withDec2_valid hx hy, decide_eq_decide.2 hc]

/-- Settles O51: each predicate tests one outcome of the core comparison, which is the order of the values. -/
theorem comparatorOrdersTheValues : Obligations.ComparatorOrdersTheValues := by
  refine ⟨by decide, by decide, by decide, by decide, by decide, by decide,
    fun s => ⟨fun x y hx hy => ⟨?_, ?_, ?_, ?_, ?_, ?_⟩, fun h => ⟨?_, ?_, ?_, ?_, ?_, ?_⟩⟩⟩
  · exact completes_of_withDec2_decide hx hy rfl decimalOrder_eq_lt_iff
  · exact completes_of_withDec2_decide hx hy rfl (decimalOrder_eq_gt_iff.not.trans not_lt)
  · exact completes_of_withDec2_decide hx hy rfl decimalOrder_eq_gt_iff
  · exact completes_of_withDec2_decide hx hy rfl (decimalOrder_eq_lt_iff.not.trans not_lt)
  · exact completes_of_withDec2_decide hx hy rfl decimalOrder_eq_eq_iff
  · exact completes_of_withDec2_decide hx hy rfl decimalOrder_eq_eq_iff.not
  all_goals exact rejects_of_invalid_dec2 h _ (by simp)

end Sys2Proof.Machine
end

section
/-! SUPPORT. The digit-serial rounding loop in closed form, the integer floor of a Decimal, and the proofs of the
statements of 47_decimal_round_sign.md about `rhe`, TRUNC and FLOOR (spec rules R151 to R153, R156). -/

namespace Sys2Proof.Machine

/-! ### The digit-serial form of `rhe` (R156) -/

/-- The loop over `k + 1` digits leaves the quotient, the most significant removed digit, and whether any digit below
that one was not 0. -/
theorem removeDigits_succ (k : Nat) (z : DigitSerial) : removeDigits (k + 1) z =
    ⟨z.v / 10 ^ (k + 1), z.v / 10 ^ k % 10, z.sticky || decide (z.d ≠ 0) || decide (z.v % 10 ^ k ≠ 0)⟩ := by
  induction k generalizing z with
  | zero => simp [removeDigits, Nat.mod_one]
  | succ k ih =>
    have hdiv (j : Nat) : z.v / 10 / 10 ^ j = z.v / 10 ^ (j + 1) := by
      rw [Nat.div_div_eq_div_mul, ← Nat.pow_succ']
    have hmod : z.v % 10 ^ (k + 1) = z.v % 10 + 10 * (z.v / 10 % 10 ^ k) := by
      rw [Nat.pow_succ', Nat.mod_mul]
    have hsticky : (decide (z.v % 10 ≠ 0) || decide (z.v / 10 % 10 ^ k ≠ 0)) = decide (z.v % 10 ^ (k + 1) ≠ 0) := by
      rw [← Bool.decide_or, decide_eq_decide, hmod]
      omega
    rw [removeDigits, ih, hdiv, hdiv, Bool.or_assoc (_ || _), hsticky]

/-- A remainder `low + p * d` of a division by `10 * p` against the half `5 * p`: the leading digit `d` decides, and at
5 the part `low` below it (R156). -/
theorem remainder_compare_half {p d low : Nat} (hlow : low < p) :
    (5 * p < low + p * d ↔ 5 < d ∨ d = 5 ∧ low ≠ 0) ∧ (low + p * d = 5 * p ↔ d = 5 ∧ low = 0) := by
  obtain hd | rfl | hd := Nat.lt_trichotomy d 5
  · have : p * d ≤ p * 4 := Nat.mul_le_mul_left p (Nat.le_of_lt_succ hd)
    omega
  · omega
  · have : p * 6 ≤ p * d := Nat.mul_le_mul_left p hd
    omega

theorem rheSerial_succ (v k : Nat) : rheSerial v (k + 1) = rhe v (k + 1) := by
  have hlow : v % 10 ^ k < 10 ^ k := Nat.mod_lt v (by positivity)
  obtain ⟨habove, htie⟩ := remainder_compare_half (d := v / 10 ^ k % 10) hlow
  have hmod : v % 10 ^ (k + 1) = v % 10 ^ k + 10 ^ k * (v / 10 ^ k % 10) := by rw [Nat.pow_succ, Nat.mod_mul]
  rw [← hmod] at habove htie
  rw [rheSerial, removeDigits_succ, rhe, if_neg k.succ_ne_zero, roundHalfEven]
  refine if_congr ?_ rfl rfl
  simp only [ne_eq, not_true_eq_false, decide_false, Bool.or_self, Bool.false_or, decide_eq_true_eq]
  have hhalf : 10 ^ (k + 1) = 2 * (5 * 10 ^ k) := by ring
  omega

/-- Settles O54: `rhe` is the unique nearest natural, and the loop of `k` steps leaves what `rhe` compares. -/
theorem roundingIsNearestEvenAndDigitSerial : Obligations.RoundingIsNearestEvenAndDigitSerial := by
  intro v k
  refine ⟨(nearestEven_iff_rhe v k _).2 rfl, fun m => (nearestEven_iff_rhe v k m).1, fun hk => ?_⟩
  obtain ⟨k, rfl⟩ := Nat.exists_eq_add_of_le' hk
  exact rheSerial_succ v k

/-! ### TRUNC and FLOOR (R152, R153) -/

/-- The magnitude FLOOR delivers: one unit more than the integer part for a negative value with a fraction (R153). -/
def floorMagnitude (x : Triple) : Nat :=
  if x.sg = true ∧ x.v % 10 ^ x.sc ≠ 0 then x.v / 10 ^ x.sc + 1 else x.v / 10 ^ x.sc

theorem floorResult_valid {a : Image} {x : Triple} (hx : IsDec a x) :
    floorResult a = Result.plain .success (decImg ⟨floorMagnitude x, 0, x.sg⟩) :=
  withDec_valid hx _

/-- The extra unit stays within the operand: a fraction needs a scale of at least 1, where the integer part is below
the mantissa (R157). -/
theorem floorMagnitude_le (x : Triple) : floorMagnitude x ≤ x.v := by
  rw [floorMagnitude]
  split
  next hfraction =>
    obtain ⟨-, hrem⟩ := hfraction
    have hv : x.v ≠ 0 := fun h => hrem (by rw [h, Nat.zero_mod])
    have hsc : x.sc ≠ 0 := fun h => hrem (by rw [h, pow_zero, Nat.mod_one])
    exact Nat.div_lt_self (Nat.pos_of_ne_zero hv) (Nat.one_lt_pow hsc (by decide))
  next => exact Nat.div_le_self _ _

/-- The floor of a value is the floor division of the signed mantissa by the power of the scale. -/
theorem floor_value (x : Triple) : ⌊x.value⌋ = (if x.sg then -(x.v : ℤ) else x.v) / (10 ^ x.sc : Nat) := by
  rw [← Rat.floor_intCast_div_natCast, Triple.value_eq]
  cases x.sg <;> simp [signFactor]

/-- That floor division rounds the magnitude up exactly when the sign is set and a fraction is discarded. -/
theorem signed_floorMagnitude (x : Triple) : (if x.sg then -(x.v : ℤ) else x.v) / (10 ^ x.sc : Nat) =
    if x.sg then -(floorMagnitude x : ℤ) else floorMagnitude x := by
  rw [floorMagnitude]
  cases x.sg with
  | false => simp
  | true =>
    have hpow : (0 : ℤ) < (10 ^ x.sc : Nat) := by positivity
    rw [if_pos rfl, if_pos rfl, Int.neg_ediv, Int.sign_eq_one_of_pos hpow]
    by_cases hrem : x.v % 10 ^ x.sc = 0
    · rw [if_pos (Int.natCast_dvd_natCast.2 (Nat.dvd_of_mod_eq_zero hrem)), if_neg fun h => h.2 hrem]
      simp
    · rw [if_neg (mt Int.natCast_dvd_natCast.1 (mt Nat.mod_eq_zero_of_dvd hrem)), if_pos ⟨rfl, hrem⟩]
      push_cast
      ring

theorem value_floorMagnitude (x : Triple) : (⟨floorMagnitude x, 0, x.sg⟩ : Triple).value = ⌊x.value⌋ := by
  rw [floor_value, signed_floorMagnitude, Triple.value_eq]
  cases x.sg <;> simp [signFactor]

/-- Settles O52: TRUNC delivers the integer part, FLOOR the triple of `floorMagnitude`, and neither exceeds the
operand's mantissa. -/
theorem truncAndFloor : Obligations.TruncAndFloor := by
  refine ⟨by decide, by decide, fun s => ⟨fun x hx => ?_, fun h => ?_⟩⟩
  · have ⟨hv, _, _⟩ := hx
    have htrunc := (Nat.div_le_self x.v (10 ^ x.sc)).trans_lt hv
    have hfloor := (floorMagnitude_le x).trans_lt hv
    exact ⟨completes_of_decimal rfl (withDec_valid hx _) htrunc (Nat.zero_le _),
      ⟨_, 0, x.sg⟩, rfl, rfl, value_floorMagnitude x,
      completes_of_decimal rfl (floorResult_valid hx) hfloor (Nat.zero_le _)⟩
  · exact ⟨rejects_of_invalid_dec h .trunc (by simp), rejects_of_invalid_dec h .floor (by simp)⟩

end Sys2Proof.Machine
end

section
/-! SUPPORT. Two's-complement words as integers, the fields of a float pattern as numbers, and the proofs of the
statements of 48_convert.md about FROMI, TOI, FXTR and FBLD (spec rules R161 to R164). -/

namespace Sys2Proof.Machine

/-! ### Words as integers (R64) -/

/-- The I32 word of an image as an integer (R64). -/
theorem toInt_word_zero (p : Image) :
    (word p 0).toInt = if lowWord p < 2 ^ 31 then (lowWord p : ℤ) else (lowWord p : ℤ) - 2 ^ 32 := by
  rw [BitVec.toInt_eq_toNat_cond, ← lowWord_eq]
  exact if_congr (by omega) rfl (by norm_num)

theorem toNat_wordImg_ofInt (n : ℤ) : ((wordImg (BitVec.ofInt 32 n)).toNat : ℤ) = n % 2 ^ 32 := by
  rw [toNat_wordImg, BitVec.toNat_ofInt, Int.toNat_of_nonneg (Int.emod_nonneg _ (by decide))]
  rfl

/-! ### FROMI and TOI (R163, R164) -/

/-- FROMI delivers magnitude and sign of the I32 word, whose magnitude is at most `2^31`. -/
theorem completes_fromi (s : State) : Completes .fromi s 0 false false fun p q =>
    IsDecResult p ⟨(word s.opa 0).toInt.natAbs, 0, decide ((word s.opa 0).toInt < 0)⟩ ∧ q = 0 := by
  have hlow := (word s.opa 0).le_toInt
  have hhigh := (word s.opa 0).toInt_lt
  exact completes_of_decimal rfl rfl (by simp only; omega) (Nat.zero_le _)

/-- The integer part of a Decimal, toward zero, with its sign (R164: the truncated value). -/
def Triple.integerPart (x : Triple) : ℤ :=
  if x.sg then -((x.v / 10 ^ x.sc : Nat) : ℤ) else ((x.v / 10 ^ x.sc : Nat) : ℤ)

/-- TOI's range test on the magnitude and the sign is the I32 range of the truncated value (R164). -/
theorem toiResult_valid {a : Image} {x : Triple} (hx : IsDec a x) : toiResult a =
    if -2 ^ 31 ≤ x.integerPart ∧ x.integerPart ≤ 2 ^ 31 - 1 then
      Result.plain .success (wordImg (BitVec.ofInt 32 x.integerPart))
    else Result.error .convertingError := by
  have hrange : (x.sg = false ∧ 2 ^ 31 - 1 < x.v / 10 ^ x.sc) ∨ (x.sg = true ∧ 2 ^ 31 < x.v / 10 ^ x.sc) ↔
      ¬(-2 ^ 31 ≤ x.integerPart ∧ x.integerPart ≤ 2 ^ 31 - 1) := by
    rw [Triple.integerPart]
    generalize x.v / 10 ^ x.sc = t
    cases x.sg <;> simp
  rw [toiResult, withDec_valid hx]
  exact (if_congr hrange rfl rfl).trans (ite_not _ _ _)

theorem completes_toi {s : State} {x : Triple} (hx : IsDec s.opa x)
    (hrange : -2 ^ 31 ≤ x.integerPart ∧ x.integerPart ≤ 2 ^ 31 - 1) :
    Completes .toi s 0 false false fun p q => (p.toNat : ℤ) = x.integerPart % 2 ^ 32 ∧ q = 0 :=
  completes_of_plain rfl ((toiResult_valid hx).trans (if_pos hrange)) ⟨toNat_wordImg_ofInt _, rfl⟩

/-- Settles O55: the completions above, `toInt` being the integer of a two's-complement word. -/
theorem integerConversions : Obligations.IntegerConversions := by
  refine ⟨by decide, by decide, fun s => ⟨?_, ?_, fun h => rejects_of_invalid_dec h .toi (by simp)⟩⟩
  · rintro n rfl
    rw [← toInt_word_zero]
    exact completes_fromi s
  · rintro x n hx rfl
    exact ⟨completes_toi hx,
      fun hout => completes_of_error (code := .convertingError) rfl ((toiResult_valid hx).trans (if_neg hout))⟩

/-- The truncated value of a magnitude and a sign at scale 0 is the integer they were taken from. -/
theorem integerPart_magnitude_sign (n : ℤ) : (⟨n.natAbs, 0, decide (n < 0)⟩ : Triple).integerPart = n := by
  simp only [Triple.integerPart, pow_zero, Nat.div_one, decide_eq_true_eq]
  split <;> omega

/-- Settles O56: the Decimal FROMI delivers stands for the integer of the word, which is in range. -/
theorem integerRoundTrip : Obligations.IntegerRoundTrip := by
  intro s
  obtain ⟨t, hexec, ⟨⟨hdec, -⟩, -⟩, -, -⟩ := completes_fromi s
  have hlow := (word s.opa 0).le_toInt
  have hhigh := (word s.opa 0).toInt_lt
  have htoi := completes_toi (s := { s with opa := t.res }) hdec
  rw [integerPart_magnitude_sign] at htoi
  refine ⟨t, hexec, (htoi (by omega)).mono fun p q ⟨hp, hq⟩ => ⟨?_, hq⟩⟩
  have hword : lowWord s.opa < 2 ^ 32 := Nat.mod_lt _ (by decide)
  rw [toInt_word_zero] at hp
  split at hp <;> omega

end Sys2Proof.Machine
end

section
/-! SUPPORT. A float pattern and its decomposition as numbers, and the proof of the statement of 48_convert.md about
FXTR and FBLD (spec rules R63, R65, R161, R162). -/

namespace Sys2Proof.Machine

/-! ### The fields of a float pattern (R63, R161) -/

/-- The fraction field of a pattern (R63). -/
def fractionField (x : Nat) : Nat := x % 2 ^ 23

/-- The biased exponent field of a pattern (R63). -/
def exponentField (x : Nat) : Nat := x / 2 ^ 23 % 2 ^ 8

theorem fractionField_lt (x : Nat) : fractionField x < 2 ^ 23 := Nat.mod_lt x (by decide)

theorem exponentField_lt (x : Nat) : exponentField x < 256 := Nat.mod_lt _ (by decide)

/-- A pattern is its three fields. -/
theorem sum_fields (x : Nat) : x / 2 ^ 31 * 2 ^ 31 + exponentField x * 2 ^ 23 + fractionField x = x := by
  rw [exponentField, fractionField]
  omega

theorem lowWord_lt (p : Image) : lowWord p < 2 ^ 32 := Nat.mod_lt _ (by decide)

theorem toNat_floatParts_frac (p : Image) : (floatParts (word p 0)).frac.toNat = fractionField (lowWord p) := by
  rw [lowWord_eq]
  exact (toNat_field _ 0 23).trans (by rw [pow_zero, Nat.div_one, fractionField])

theorem toNat_floatParts_bexp (p : Image) : (floatParts (word p 0)).bexp.toNat = exponentField (lowWord p) := by
  rw [lowWord_eq]
  exact toNat_field _ 23 8

theorem toNat_floatParts_sgn (p : Image) : (floatParts (word p 0)).sgn.toNat = lowWord p / 2 ^ 31 := by
  rw [lowWord_eq]
  exact flagSign_toNat _

theorem floatParts_sgn (p : Image) : (floatParts (word p 0)).sgn = decide (lowWord p / 2 ^ 31 = 1) := by
  rw [← toNat_floatParts_sgn]
  cases (floatParts (word p 0)).sgn <;> rfl

/-- The class, significand and exponent of a pattern, by its exponent field and whether its fraction is 0 (R161). -/
theorem floatParts_cases (p : Image) {e f : Nat} (he : e = exponentField (lowWord p))
    (hf : f = fractionField (lowWord p)) :
    let q := floatParts (word p 0)
    (e = 255 ∧ f = 0 ∧ q.cls = .infinity ∧ q.sig = 0 ∧ q.uexp = 0) ∨
    (e = 255 ∧ f ≠ 0 ∧ q.cls = .nan ∧ q.sig = 0 ∧ q.uexp = 0) ∨
    (e = 0 ∧ f = 0 ∧ q.cls = .zero ∧ q.sig = 0 ∧ q.uexp = 0) ∨
    (e = 0 ∧ f ≠ 0 ∧ q.cls = .subnormal ∧ q.sig = f ∧ q.uexp = -149) ∨
    (e ≠ 0 ∧ e ≠ 255 ∧ q.cls = .normal ∧ q.sig = 2 ^ 23 + f ∧ q.uexp = (e : ℤ) - 150) := by
  have hexp : (BitVec.extractLsb' 23 8 (word p 0)).toNat = e := (toNat_floatParts_bexp p).trans he.symm
  have hfrac : (BitVec.extractLsb' 0 23 (word p 0)).toNat = f := (toNat_floatParts_frac p).trans hf.symm
  simp only [floatParts, hexp, hfrac]
  by_cases h255 : e = 255
  · by_cases hzero : f = 0 <;> simp [h255, hzero]
  · by_cases hlowest : e = 0
    · by_cases hzero : f = 0 <;> simp [hlowest, hzero]
    · simp [h255, hlowest]

/-! ### FXTR and FBLD (R65, R161, R162) -/

/-- The words of an FPARTS image as one number (R65). -/
theorem toNat_floatPartsImg (q : FloatParts) (hsig : q.sig < 2 ^ 32) : (floatPartsImg q).toNat =
    q.frac.toNat + q.bexp.toNat * 2 ^ 32 + q.sgn.toNat * 2 ^ 64 + q.cls.number * 2 ^ 96 + q.sig * 2 ^ 128 +
      (BitVec.ofInt 32 q.uexp).toNat * 2 ^ 160 := by
  have hcls : q.cls.number < 2 ^ 32 := by cases q.cls <;> decide
  simp only [floatPartsImg, toNat_append_add, toNat_ofBool, BitVec.toNat_ofNat, Nat.mod_eq_of_lt hcls,
    Nat.mod_eq_of_lt hsig]
  omega

/-- Word 3 of the image FXTR delivers, from the fields of the pattern (R161). -/
def extractedClass (e f : Nat) : Nat :=
  if e = 255 then (if f = 0 then 3 else 4) else if e = 0 then (if f = 0 then 0 else 1) else 2

/-- Word 4 of the image FXTR delivers (R161). -/
def extractedSignificand (e f : Nat) : Nat := if e = 255 then 0 else if e = 0 then f else 2 ^ 23 + f

/-- Word 5 of the image FXTR delivers, in two's complement (R161). -/
def extractedExponent (e f : Nat) : Nat :=
  if e = 255 then 0 else if e = 0 then (if f = 0 then 0 else 2 ^ 32 - 149)
  else if e < 150 then 2 ^ 32 + e - 150 else e - 150

/-- Words 3 to 5 of the image are the class, the significand and the exponent of the pattern. -/
theorem extracted_of_floatParts (p : Image) {e f : Nat} (he : e = exponentField (lowWord p))
    (hf : f = fractionField (lowWord p)) :
    (floatParts (word p 0)).cls.number = extractedClass e f ∧
    (floatParts (word p 0)).sig = extractedSignificand e f ∧
    (BitVec.ofInt 32 (floatParts (word p 0)).uexp).toNat = extractedExponent e f := by
  have hexp := exponentField_lt (lowWord p)
  unfold extractedClass extractedSignificand extractedExponent
  obtain ⟨he, hf, hcls, hsig, huexp⟩ | ⟨he, hf, hcls, hsig, huexp⟩ | ⟨he, hf, hcls, hsig, huexp⟩ |
    ⟨he, hf, hcls, hsig, huexp⟩ | ⟨hpos, h255, hcls, hsig, huexp⟩ := floatParts_cases p he hf
  case inr.inr.inr.inr =>
    have hword : (BitVec.ofInt 32 ((e : ℤ) - 150)).toNat = if e < 150 then 2 ^ 32 + e - 150 else e - 150 := by
      rw [BitVec.toNat_ofInt]
      split <;> omega
    rw [hcls, hsig, huexp, hword]
    simp [hpos, h255, FloatClass.number]
  all_goals simp [hcls, hsig, huexp, he, hf, FloatClass.number]

/-- The FPARTS image FXTR delivers, as a number (R161). -/
def extractedParts (x : Nat) : Nat :=
  fractionField x + exponentField x * 2 ^ 32 + x / 2 ^ 31 * 2 ^ 64 +
    extractedClass (exponentField x) (fractionField x) * 2 ^ 96 +
    extractedSignificand (exponentField x) (fractionField x) * 2 ^ 128 +
    extractedExponent (exponentField x) (fractionField x) * 2 ^ 160

theorem completes_fxtr (s : State) : Completes .fxtr s 0 false false fun p q =>
    q = 0 ∧ p.toNat = extractedParts (lowWord s.opa) := by
  refine completes_of_plain rfl rfl ⟨rfl, ?_⟩
  obtain ⟨hcls, hsig, huexp⟩ := extracted_of_floatParts s.opa rfl rfl
  have hfrac := fractionField_lt (lowWord s.opa)
  have hbound : (floatParts (word s.opa 0)).sig < 2 ^ 32 := by
    rw [hsig, extractedSignificand]
    split_ifs <;> omega
  rw [toNat_floatPartsImg _ hbound, toNat_floatParts_frac, toNat_floatParts_bexp, toNat_floatParts_sgn, hcls, hsig,
    huexp, extractedParts]

theorem floatPartsValid_iff (p : Image) : floatPartsValid p = true ↔
    (word p 0).toNat < 2 ^ 23 ∧ (word p 1).toNat < 256 ∧ (word p 2).toNat < 2 := by
  simp [floatPartsValid, and_assoc]

/-- Within their bounds the three fields do not overlap, so their `or` is their sum (R162). -/
theorem toNat_packedFields {w0 w1 w2 : Word} (h0 : w0.toNat < 2 ^ 23) (h1 : w1.toNat < 256) (h2 : w2.toNat < 2) :
    (w2 <<< 31 ||| w1 <<< 23 ||| w0).toNat = w2.toNat * 2 ^ 31 + w1.toNat * 2 ^ 23 + w0.toNat := by
  have hlow : w1.toNat <<< 23 + w0.toNat < 2 ^ 31 := by rw [Nat.shiftLeft_eq]; omega
  rw [BitVec.toNat_or, BitVec.toNat_or, BitVec.toNat_shiftLeft, BitVec.toNat_shiftLeft,
    Nat.mod_eq_of_lt (by rw [Nat.shiftLeft_eq]; omega), Nat.mod_eq_of_lt (by rw [Nat.shiftLeft_eq]; omega),
    Nat.or_assoc, ← Nat.shiftLeft_add_eq_or_of_lt h0, ← Nat.shiftLeft_add_eq_or_of_lt hlow, Nat.shiftLeft_eq,
    Nat.shiftLeft_eq, Nat.add_assoc]

theorem completes_fbld {s : State} (h0 : (word s.opa 0).toNat < 2 ^ 23) (h1 : (word s.opa 1).toNat < 256)
    (h2 : (word s.opa 2).toNat < 2) : Completes .fbld s 0 false false fun p q =>
      p.toNat = (word s.opa 2).toNat * 2 ^ 31 + (word s.opa 1).toNat * 2 ^ 23 + (word s.opa 0).toNat ∧ q = 0 :=
  completes_of_plain rfl (if_pos ((floatPartsValid_iff _).2 ⟨h0, h1, h2⟩))
    ⟨(toNat_wordImg _).trans (toNat_packedFields h0 h1 h2), rfl⟩

/-- The first three words of the image FXTR delivers are the fields of the pattern. -/
theorem word_of_extractedParts {p : Image} {x : Nat} (hp : p.toNat = extractedParts x) (hx : x < 2 ^ 32) :
    (word p 0).toNat = fractionField x ∧ (word p 1).toNat = exponentField x ∧ (word p 2).toNat = x / 2 ^ 31 := by
  have hf := fractionField_lt x
  have he := exponentField_lt x
  rw [toNat_word, toNat_word, toNat_word, hp, extractedParts]
  omega

/-- Settles O57: the completions above, and FBLD finds the three fields of the pattern in FXTR's image. -/
theorem floatFieldsTakenApartAndPutTogether : Obligations.FloatFieldsTakenApartAndPutTogether := by
  refine ⟨by decide, by decide, fun s => ⟨?_, ?_, ?_⟩⟩
  · rintro x f e rfl rfl rfl
    exact completes_fxtr s
  · intro w0 w1 w2 h0 h1 h2
    replace h0 : w0 = (word s.opa 0).toNat := h0.trans (by rw [toNat_word]; simp)
    replace h1 : w1 = (word s.opa 1).toNat := h1.trans (toNat_word _ 1).symm
    replace h2 : w2 = (word s.opa 2).toNat := h2.trans (toNat_word _ 2).symm
    subst h0 h1 h2
    refine ⟨fun ⟨h0, h1, h2⟩ => completes_fbld h0 h1 h2, fun hinvalid => rejects_of rfl ?_⟩
    rw [← floatPartsValid_iff] at hinvalid
    exact if_neg hinvalid
  · obtain ⟨t, hexec, ⟨-, ht⟩, -, -⟩ := completes_fxtr s
    have hlow := lowWord_lt s.opa
    have hf := fractionField_lt (lowWord s.opa)
    have he := exponentField_lt (lowWord s.opa)
    obtain ⟨h0, h1, h2⟩ := word_of_extractedParts ht hlow
    have hfbld := completes_fbld (s := { s with opa := t.res }) (by simp only; omega) (by simp only; omega)
      (by simp only; omega)
    simp only [h0, h1, h2, sum_fields] at hfbld
    exact ⟨t, hexec, hfbld⟩

end Sys2Proof.Machine
end

section
/-! SUPPORT. What the scale search and the stripping of zeros in FROMF find, and the proof of the statement of
48_convert.md about FROMF (spec rule R165). -/

namespace Sys2Proof.Machine

/-! ### The search for the scale and the stripping of zeros (R165) -/

/-- The search answers the largest scale at which the rounded mantissa fits, when that of scale 0 does. -/
theorem fitScale_spec {u n : Nat} (hfit : roundHalfEven u (2 ^ n) ≤ max96) (top : Nat) :
    ∃ c, c ≤ top ∧ roundHalfEven (u * 10 ^ c) (2 ^ n) ≤ max96 ∧
      (∀ d, c < d → d ≤ top → max96 < roundHalfEven (u * 10 ^ d) (2 ^ n)) ∧
      fitScale u n top = ⟨roundHalfEven (u * 10 ^ c) (2 ^ n), c, false⟩ := by
  induction top with
  | zero => exact ⟨0, le_rfl, by simpa using hfit, fun d hd hle => by omega, by simp [fitScale]⟩
  | succ top ih =>
    rw [fitScale]
    split
    next hsucc => exact ⟨top + 1, le_rfl, hsucc, fun d hd hle => by omega, rfl⟩
    next hbig =>
      obtain ⟨c, hle, hc, habove, heq⟩ := ih
      refine ⟨c, by omega, hc, fun d hd hle => ?_, heq⟩
      obtain rfl | hlt := Nat.eq_or_lt_of_le hle
      · exact Nat.lt_of_not_le hbig
      · exact habove d hd (Nat.le_of_lt_succ hlt)

/-- Stripping removes powers of ten until the last digit is not 0 or the scale is 0. -/
theorem stripZeros_spec (u c : Nat) :
    ∃ z sc, sc ≤ c ∧ u = z * 10 ^ (c - sc) ∧ (sc = 0 ∨ z % 10 ≠ 0) ∧ stripZeros u c = ⟨z, sc, false⟩ := by
  induction c generalizing u with
  | zero => exact ⟨u, 0, le_rfl, by simp, .inl rfl, rfl⟩
  | succ c ih =>
    rw [stripZeros]
    split
    next hzero =>
      obtain ⟨z, sc, hle, hu, hlast, heq⟩ := ih (u / 10)
      refine ⟨z, sc, by omega, ?_, hlast, heq⟩
      rw [Nat.sub_add_comm hle, pow_succ, ← mul_assoc, ← hu]
      omega
    next hlast => exact ⟨u, c + 1, le_rfl, by simp, .inr hlast, rfl⟩

/-- `z / 10^sc` is the Decimal nearest to `m / 2^n` at the largest scale `c` that fits, its mantissa `u` there
written without trailing zeros (R165). -/
structure NearestFittingDecimal (m n c u z sc : Nat) : Prop where
  scale_le : c ≤ 28
  nearest : NearestEven (m * 10 ^ c) (2 ^ n) u
  fits : u ≤ max96
  largest : ∀ d w, c < d → d ≤ 28 → NearestEven (m * 10 ^ d) (2 ^ n) w → max96 < w
  stripped_le : sc ≤ c
  eq_stripped : u = z * 10 ^ (c - sc)
  no_trailing_zero : sc = 0 ∨ z % 10 ≠ 0

theorem NearestFittingDecimal.mantissa_lt {m n c u z sc : Nat} (h : NearestFittingDecimal m n c u z sc) :
    z < 2 ^ 96 := by
  have hle : z ≤ u := h.eq_stripped ▸ Nat.le_mul_of_pos_right z (by positivity)
  exact le_max96_iff.1 (hle.trans h.fits)

/-- The search and the stripping together, for a significand of 24 bits. -/
theorem nearestFittingDecimal_fitScale {m : Nat} (hm : m < 2 ^ 24) (n : Nat) : ∃ c u z sc,
    NearestFittingDecimal m n c u z sc ∧
    stripZeros (fitScale m n maxScale).v (fitScale m n maxScale).sc = ⟨z, sc, false⟩ := by
  have hfit : roundHalfEven m (2 ^ n) ≤ max96 := by
    have hquotient := Nat.div_le_self m (2 ^ n)
    have hround := (roundHalfEven_bounds m (2 ^ n)).2
    unfold max96
    omega
  obtain ⟨c, hc, hfits, hlargest, heq⟩ := fitScale_spec hfit maxScale
  obtain ⟨z, sc, hle, hu, hlast, hstrip⟩ := stripZeros_spec (roundHalfEven (m * 10 ^ c) (2 ^ n)) c
  have hpow : 0 < 2 ^ n := by positivity
  refine ⟨c, _, z, sc, ⟨hc, roundHalfEven_nearest _ hpow, hfits, fun d w hcd hd hw => ?_, hle, hu, hlast⟩, ?_⟩
  · rw [nearestEven_unique hpow hw (roundHalfEven_nearest _ hpow)]
    exact hlargest d hcd hd
  · rw [heq]
    exact hstrip

/-! ### FROMF, by the exponent field (R165) -/

/-- The significand of a finite pattern (R63, R165). -/
def floatMantissa (x : Nat) : Nat := if exponentField x = 0 then fractionField x else 2 ^ 23 + fractionField x

/-- How many binary places the last bit of a finite pattern lies below the units (R63, R165); 0 for an integer. -/
def fractionBits (x : Nat) : Nat := if exponentField x = 0 then 149 else 150 - exponentField x

/-- The sign of a pattern (R63). -/
def floatSign (x : Nat) : Bool := decide (x / 2 ^ 31 = 1)

theorem floatMantissa_lt (x : Nat) : floatMantissa x < 2 ^ 24 := by
  have hfraction := fractionField_lt x
  rw [floatMantissa]
  split <;> omega

/-- Infinities and NaNs. -/
theorem fromfResult_special {p : Image} (he : exponentField (lowWord p) = 255) :
    fromfResult p = Result.error .convertingError := by
  obtain ⟨-, -, hcls, -⟩ | ⟨-, -, hcls, -⟩ | ⟨h, -⟩ | ⟨h, -⟩ | ⟨-, h, -⟩ := floatParts_cases p rfl rfl
  · simp only [fromfResult, hcls]
  · simp only [fromfResult, hcls]
  all_goals omega

/-- Patterns whose last bit is a unit or more: the integer itself, if it fits. -/
theorem fromfResult_integer {p : Image} (he : exponentField (lowWord p) < 255)
    (hint : 150 ≤ exponentField (lowWord p)) : fromfResult p =
      if max96 < floatMantissa (lowWord p) * 2 ^ (exponentField (lowWord p) - 150) then Result.error .convertingError
      else Result.plain .success (decImg
        ⟨floatMantissa (lowWord p) * 2 ^ (exponentField (lowWord p) - 150), 0, floatSign (lowWord p)⟩) := by
  have hmantissa : floatMantissa (lowWord p) = 2 ^ 23 + fractionField (lowWord p) := if_neg (by omega)
  obtain ⟨h, -⟩ | ⟨h, -⟩ | ⟨h, -⟩ | ⟨h, -⟩ | ⟨-, -, hcls, hsig, huexp⟩ := floatParts_cases p rfl rfl
  case inr.inr.inr.inr =>
    have hnonneg : (0 : ℤ) ≤ (exponentField (lowWord p) : ℤ) - 150 := by omega
    have hshift : ((exponentField (lowWord p) : ℤ) - 150).toNat = exponentField (lowWord p) - 150 := by omega
    simp only [fromfResult, hcls, hsig, huexp, floatParts_sgn, if_pos hnonneg, hshift, hmantissa, floatSign]
  all_goals omega

/-- Patterns with binary places: what the search and the stripping find; both leave a zero as it is. -/
theorem fromfResult_fraction {p : Image} (he : exponentField (lowWord p) < 150) :
    fromfResult p = Result.plain .success (decImg
      { stripZeros (fitScale (floatMantissa (lowWord p)) (fractionBits (lowWord p)) maxScale).v
          (fitScale (floatMantissa (lowWord p)) (fractionBits (lowWord p)) maxScale).sc with
        sg := floatSign (lowWord p) }) := by
  unfold floatMantissa fractionBits
  obtain ⟨h, -⟩ | ⟨h, -⟩ | ⟨hexp, hfrac, hcls, -⟩ | ⟨hexp, -, hcls, hsig, huexp⟩ | ⟨hexp, -, hcls, hsig, huexp⟩ :=
    floatParts_cases p rfl rfl
  · omega
  · omega
  · have hzero : stripZeros (fitScale 0 149 maxScale).v (fitScale 0 149 maxScale).sc = ⟨0, 0, false⟩ := by decide
    simp only [fromfResult, hcls, floatParts_sgn, hexp, hfrac, if_true, hzero, floatSign]
  · simp [fromfResult, hcls, hsig, huexp, floatParts_sgn, hexp, floatSign]
  · have hneg : ¬(0 : ℤ) ≤ (exponentField (lowWord p) : ℤ) - 150 := by omega
    have hshift : (-((exponentField (lowWord p) : ℤ) - 150)).toNat = 150 - exponentField (lowWord p) := by omega
    simp only [fromfResult, hcls, hsig, huexp, floatParts_sgn, if_neg hneg, hshift, if_neg hexp, floatSign]

theorem completes_fromf_integer {s : State} (he : exponentField (lowWord s.opa) < 255)
    (hint : 150 ≤ exponentField (lowWord s.opa))
    (hfits : floatMantissa (lowWord s.opa) * 2 ^ (exponentField (lowWord s.opa) - 150) ≤ max96) :
    Completes .fromf s 0 false false fun p q =>
      IsDecResult p ⟨floatMantissa (lowWord s.opa) * 2 ^ (exponentField (lowWord s.opa) - 150), 0,
        floatSign (lowWord s.opa)⟩ ∧ q = 0 :=
  completes_of_decimal rfl ((fromfResult_integer he hint).trans (if_neg hfits.not_gt)) (le_max96_iff.1 hfits)
    (Nat.zero_le _)

theorem completes_fromf_fraction {s : State} (he : exponentField (lowWord s.opa) < 150) : ∃ c u z sc,
    NearestFittingDecimal (floatMantissa (lowWord s.opa)) (fractionBits (lowWord s.opa)) c u z sc ∧
    Completes .fromf s 0 false false fun p q => IsDecResult p ⟨z, sc, floatSign (lowWord s.opa)⟩ ∧ q = 0 := by
  obtain ⟨c, u, z, sc, hnearest, hstrip⟩ :=
    nearestFittingDecimal_fitScale (floatMantissa_lt (lowWord s.opa)) (fractionBits (lowWord s.opa))
  have hresult := fromfResult_fraction he
  rw [hstrip] at hresult
  exact ⟨c, u, z, sc, hnearest, completes_of_decimal rfl hresult hnearest.mantissa_lt
    (hnearest.stripped_le.trans hnearest.scale_le)⟩

/-- Settles O58: the completions above, by the exponent field. -/
theorem fromfIsTheNearestDecimal : Obligations.FromfIsTheNearestDecimal := by
  refine ⟨by decide, ?_⟩
  intro s x f e m n sg hx hf he hsg hm hn
  obtain rfl : m = floatMantissa x := hm.trans (by rw [hf, he]; rfl)
  obtain rfl : n = fractionBits x := hn.trans (by rw [he]; rfl)
  obtain rfl : sg = floatSign x := hsg
  obtain rfl : e = exponentField x := he
  subst hx
  refine ⟨fun hout => ?_, fun ⟨he, hint, hfits⟩ => ?_, fun he => ?_⟩
  · obtain hspecial | ⟨he, hint, hbig⟩ := hout
    · exact completes_of_error (code := .convertingError) rfl (fromfResult_special hspecial)
    · exact completes_of_error (code := .convertingError) rfl ((fromfResult_integer he hint).trans (if_pos hbig))
  · exact completes_fromf_integer he hint hfits
  · obtain ⟨c, u, z, sc, ⟨h1, h2, h3, h4, h5, h6, h7⟩, hcompletes⟩ := completes_fromf_fraction he
    exact ⟨c, u, z, sc, h1, h2, h3, h4, h5, h6, h7, hcompletes⟩

end Sys2Proof.Machine
end

section
/-! SUPPORT. The binary exponent and the rounded significand of a Decimal, the value of a float pattern, and the proof
of the statement of 48_convert.md about TOF (spec rules R63, R166). -/

namespace Sys2Proof.Machine

/-! ### The binary exponent (R166) -/

/-- `e` is the binary exponent of `r`. -/
def IsBinaryExponent (e : ℤ) (r : ℚ) : Prop := (2 : ℚ) ^ e ≤ r ∧ r < (2 : ℚ) ^ (e + 1)

theorem IsBinaryExponent.unique {a b : ℤ} {r : ℚ} (ha : IsBinaryExponent a r) (hb : IsBinaryExponent b r) : a = b := by
  have hab : a < b + 1 := (zpow_lt_zpow_iff_right₀ one_lt_two).1 (ha.1.trans_lt hb.2)
  have hba : b < a + 1 := (zpow_lt_zpow_iff_right₀ one_lt_two).1 (hb.1.trans_lt ha.2)
  omega

/-- A power of two with an integer exponent is a quotient of two natural powers, one of them 1. -/
theorem two_zpow_eq_div (e : ℤ) : (2 : ℚ) ^ e = 2 ^ e.toNat / 2 ^ (-e).toNat := by
  rw [← zpow_natCast, ← zpow_natCast, ← zpow_sub₀ two_ne_zero, Int.toNat_sub_toNat_neg]

theorem powLe_iff {m p : Nat} (hp : 0 < p) (e : ℤ) : powLe e m p = true ↔ (2 : ℚ) ^ e ≤ (m : ℚ) / p := by
  have hp' : (0 : ℚ) < p := by exact_mod_cast hp
  rw [two_zpow_eq_div, div_le_div_iff₀ (by positivity) hp', powLe]
  split
  next hnonneg =>
    have hneg : (-e).toNat = 0 := by omega
    rw [hneg, decide_eq_true_eq, mul_comm]
    norm_cast
    rw [pow_zero, mul_one]
  next hneg =>
    have hpos : e.toNat = 0 := by omega
    rw [hpos, decide_eq_true_eq, pow_zero, one_mul]
    norm_cast

theorem bitlen_bounds {v : Nat} (hv : v ≠ 0) : (2 : ℚ) ^ ((bitlen v : ℤ) - 1) ≤ v ∧ (v : ℚ) < 2 ^ (bitlen v : ℤ) := by
  have hlog : (bitlen v : ℤ) - 1 = (v.log2 : ℕ) := by rw [bitlen, if_neg hv]; omega
  rw [hlog, zpow_natCast, zpow_natCast]
  exact ⟨by exact_mod_cast Nat.log2_self_le hv, by exact_mod_cast lt_two_pow_bitlen v⟩

/-- The bit lengths fix the exponent up to one, and the comparison decides (R166). -/
theorem binaryExponent_spec {m p : Nat} (hm : m ≠ 0) (hp : p ≠ 0) :
    IsBinaryExponent (binaryExponent m p) ((m : ℚ) / p) := by
  obtain ⟨hmlow, hmhigh⟩ := bitlen_bounds hm
  obtain ⟨hplow, hphigh⟩ := bitlen_bounds hp
  have hp' : (0 : ℚ) < p := by exact_mod_cast Nat.pos_of_ne_zero hp
  rw [binaryExponent]
  split
  next hle =>
    refine ⟨(powLe_iff (Nat.pos_of_ne_zero hp) _).1 hle, ?_⟩
    calc (m : ℚ) / p < 2 ^ (bitlen m : ℤ) / 2 ^ ((bitlen p : ℤ) - 1) :=
          div_lt_div₀ hmhigh hplow (by positivity) (by positivity)
      _ = 2 ^ ((bitlen m : ℤ) - bitlen p + 1) := by
          rw [← zpow_sub₀ two_ne_zero]
          ring_nf
  next hgt =>
    rw [powLe_iff (Nat.pos_of_ne_zero hp), not_le] at hgt
    refine ⟨?_, by rwa [sub_add_cancel]⟩
    calc (2 : ℚ) ^ ((bitlen m : ℤ) - bitlen p - 1) = 2 ^ ((bitlen m : ℤ) - 1) / 2 ^ (bitlen p : ℤ) := by
          rw [← zpow_sub₀ two_ne_zero]
          ring_nf
      _ ≤ (m : ℚ) / p := div_le_div₀ (by positivity) hmlow hp' hphigh.le

/-! ### The rounded significand (R166) -/

/-- The two cases of the significand as one: at most one of the two powers of two is not 1. -/
theorem floatSignificand_eq (e : ℤ) (m p : Nat) :
    floatSignificand e m p = roundHalfEven (m * 2 ^ (23 - e).toNat) (p * 2 ^ (e - 23).toNat) := by
  rw [floatSignificand]
  split
  next hle =>
    have hzero : (e - 23).toNat = 0 := by omega
    rw [hzero, pow_zero, mul_one]
  next hgt =>
    have hzero : (23 - e).toNat = 0 := by omega
    rw [hzero, pow_zero, mul_one]

/-- The quotient rounded to the significand is the value with 23 binary places moved before the point. -/
theorem scaled_quotient (e : ℤ) (m p : Nat) :
    ((m * 2 ^ (23 - e).toNat : Nat) : ℚ) / (p * 2 ^ (e - 23).toNat : Nat) = (m : ℚ) / p * 2 ^ (23 - e) := by
  rw [two_zpow_eq_div, neg_sub, div_mul_div_comm]
  push_cast
  rfl

/-- The significand has 24 bits, or is `2^24` after a carry (R166). -/
theorem floatSignificand_bounds {e : ℤ} {m p : Nat} (hp : p ≠ 0) (he : IsBinaryExponent e ((m : ℚ) / p)) :
    2 ^ 23 ≤ floatSignificand e m p ∧ floatSignificand e m p ≤ 2 ^ 24 := by
  obtain ⟨hlow, hhigh⟩ := he
  have hscaled := scaled_quotient e m p
  have hdivisor : 0 < p * 2 ^ (e - 23).toNat := by positivity
  rw [floatSignificand_eq]
  obtain ⟨hround, hround'⟩ := roundHalfEven_bounds (m * 2 ^ (23 - e).toNat) (p * 2 ^ (e - 23).toNat)
  generalize m * 2 ^ (23 - e).toNat = n at *
  generalize p * 2 ^ (e - 23).toNat = d at *
  have hd : (0 : ℚ) < d := by exact_mod_cast hdivisor
  have hnlow : 2 ^ 23 * d ≤ n := by
    have : (2 : ℚ) ^ 23 ≤ (n : ℚ) / d := by
      calc (2 : ℚ) ^ 23 = 2 ^ e * 2 ^ (23 - e) := by rw [← zpow_add₀ two_ne_zero, add_sub_cancel]; norm_cast
        _ ≤ (n : ℚ) / d := hscaled ▸ mul_le_mul_of_nonneg_right hlow (by positivity)
    exact_mod_cast (le_div_iff₀ hd).1 this
  have hnhigh : n < 2 ^ 24 * d := by
    have : (n : ℚ) / d < 2 ^ 24 := by
      calc (n : ℚ) / d < 2 ^ (e + 1) * 2 ^ (23 - e) := hscaled ▸ mul_lt_mul_of_pos_right hhigh (by positivity)
        _ = 2 ^ 24 := by rw [← zpow_add₀ two_ne_zero, add_right_comm, add_sub_cancel]; norm_cast
    exact_mod_cast (div_lt_iff₀ hd).1 this
  have hquotient : 2 ^ 23 ≤ n / d := (Nat.le_div_iff_mul_le hdivisor).2 hnlow
  have hquotient' : n / d < 2 ^ 24 := (Nat.div_lt_iff_lt_mul hdivisor).2 hnhigh
  omega

/-! ### The value of a float pattern (R63) -/

/-- The exponent of a finite pattern's last bit (R63). -/
def lastBitExponent (x : Nat) : ℤ := if exponentField x = 0 then -149 else (exponentField x : ℤ) - 150

theorem floatValue_eq {x : Nat} (hx : x < 2 ^ 32) :
    floatValue x = signFactor (floatSign x) * (floatMantissa x * 2 ^ lastBitExponent x) := by
  have hsign : x / 2 ^ 31 % 2 = x / 2 ^ 31 := Nat.mod_eq_of_lt (by omega)
  rw [floatValue, hsign, signFactor, floatSign, floatMantissa, lastBitExponent, exponentField, fractionField]
  simp only [decide_eq_true_eq]
  congr 1
  split <;> rfl

/-- The fields of a pattern built from fields in range. -/
theorem fields_floatWord (sg : Bool) {e f : Nat} (he : e < 256) (hf : f < 2 ^ 23) :
    (floatWord sg e f).toNat / 2 ^ 31 = sg.toNat ∧ exponentField (floatWord sg e f).toNat = e ∧
      fractionField (floatWord sg e f).toNat = f := by
  have hsg := sg.toNat_le
  rw [toNat_floatWord sg e f he hf, exponentField, fractionField]
  omega

/-- The value of a normal pattern built from its fields. -/
theorem floatValue_floatWord (sg : Bool) {e f : Nat} (hpos : 1 ≤ e) (he : e < 256) (hf : f < 2 ^ 23) :
    floatValue (floatWord sg e f).toNat = signFactor sg * (((2 ^ 23 + f : Nat) : ℚ) * 2 ^ ((e : ℤ) - 150)) := by
  obtain ⟨hsign, hexp, hfrac⟩ := fields_floatWord sg he hf
  have hnormal : e ≠ 0 := by omega
  have hsg : floatSign (floatWord sg e f).toNat = sg := by rw [floatSign, hsign]; cases sg <;> rfl
  rw [floatValue_eq (BitVec.isLt _), hsg, floatMantissa, lastBitExponent, hexp, hfrac, if_neg hnormal, if_neg hnormal]

/-! ### TOF (R166) -/

/-- The value of a Decimal without its sign. -/
def Triple.magnitude (x : Triple) : ℚ := (x.v : ℚ) / 10 ^ x.sc

theorem Triple.magnitude_eq (x : Triple) : x.magnitude = (x.v : ℚ) / (10 ^ x.sc : Nat) := by
  rw [magnitude]
  push_cast
  rfl

/-- A Decimal that is not 0 lies between `10^-28` and `2^96`, so its exponent is far inside that of the normal floats
(R166). -/
theorem exponent_range {x : Triple} {e : ℤ} (hv : x.v < 2 ^ 96) (hsc : x.sc ≤ 28) (hne : x.v ≠ 0)
    (he : IsBinaryExponent e x.magnitude) : -94 ≤ e ∧ e ≤ 95 := by
  obtain ⟨hlow, hhigh⟩ := he
  have hscale : (1 : ℚ) ≤ 10 ^ x.sc := one_le_pow₀ (by norm_num)
  have hv1 : (1 : ℚ) ≤ x.v := by exact_mod_cast Nat.one_le_iff_ne_zero.2 hne
  have hv2 : (x.v : ℚ) < 2 ^ (96 : ℤ) := by exact_mod_cast hv
  have habove : (2 : ℚ) ^ (-94 : ℤ) < x.magnitude := by
    calc (2 : ℚ) ^ (-94 : ℤ) < 1 / 10 ^ 28 := by norm_num
      _ ≤ 1 / 10 ^ x.sc := one_div_le_one_div_of_le (by positivity) (pow_le_pow_right₀ (by norm_num) hsc)
      _ ≤ x.magnitude := div_le_div_of_nonneg_right hv1 (by positivity)
  have hbelow : x.magnitude < 2 ^ (96 : ℤ) := (div_le_self (by positivity) hscale).trans_lt hv2
  have h1 : -94 < e + 1 := (zpow_lt_zpow_iff_right₀ one_lt_two).1 (habove.trans hhigh)
  have h2 : e < 96 := (zpow_lt_zpow_iff_right₀ one_lt_two).1 (hlow.trans_lt hbelow)
  omega

/-- The exponent TOF finds (R166). -/
def tofExponent (x : Triple) : ℤ := binaryExponent x.v (10 ^ x.sc)

/-- The significand TOF rounds to (R166). -/
def tofSignificand (x : Triple) : Nat := floatSignificand (tofExponent x) x.v (10 ^ x.sc)

theorem tofExponent_spec {x : Triple} (hne : x.v ≠ 0) : IsBinaryExponent (tofExponent x) x.magnitude := by
  rw [Triple.magnitude_eq]
  exact binaryExponent_spec hne (by positivity)

theorem nearestFloat_of_ne_zero {x : Triple} (hne : x.v ≠ 0) : nearestFloat x =
    if tofSignificand x = 2 ^ 24 then floatWord x.sg (tofExponent x + 1 + 127).toNat 0
    else floatWord x.sg (tofExponent x + 127).toNat (tofSignificand x - 2 ^ 23) :=
  if_neg hne

/-- The float of a Decimal that is not 0 is normal and holds the rounded significand at the exponent found, a carry
to `2^24` included (R166). -/
theorem nearestFloat_fields {x : Triple} (hne : x.v ≠ 0) (hlow : -126 ≤ tofExponent x) (hhigh : tofExponent x ≤ 126) :
    ∃ e f, 1 ≤ e ∧ e ≤ 254 ∧ f < 2 ^ 23 ∧ nearestFloat x = floatWord x.sg e f ∧
      ((2 ^ 23 + f : Nat) : ℚ) * 2 ^ ((e : ℤ) - 150) = tofSignificand x * 2 ^ (tofExponent x - 23) := by
  have hexponent := tofExponent_spec hne
  rw [Triple.magnitude_eq] at hexponent
  obtain ⟨hqlow, hqhigh⟩ : 2 ^ 23 ≤ tofSignificand x ∧ tofSignificand x ≤ 2 ^ 24 :=
    floatSignificand_bounds (by positivity) hexponent
  rw [nearestFloat_of_ne_zero hne]
  split
  next hcarry =>
    refine ⟨_, 0, by omega, by omega, by norm_num, rfl, ?_⟩
    have hfield : (((tofExponent x + 1 + 127).toNat : ℕ) : ℤ) - 150 = 1 + (tofExponent x - 23) := by omega
    rw [hfield, hcarry, zpow_add₀ two_ne_zero]
    push_cast
    ring
  next hcarry =>
    refine ⟨_, _, by omega, by omega, by omega, rfl, ?_⟩
    have hfield : (((tofExponent x + 127).toNat : ℕ) : ℤ) - 150 = tofExponent x - 23 := by omega
    rw [hfield, Nat.add_sub_cancel' hqlow]

theorem completes_tof {s : State} {x : Triple} (hx : IsDec s.opa x) :
    Completes .tof s 0 false false fun p q => p.toNat = (nearestFloat x).toNat ∧ q = 0 :=
  completes_of_plain rfl (withDec_valid hx _) ⟨toNat_wordImg _, rfl⟩

theorem toNat_nearestFloat_zero {x : Triple} (hzero : x.v = 0) : (nearestFloat x).toNat = x.sg.toNat * 2 ^ 31 := by
  rw [nearestFloat, if_pos hzero, toNat_floatWord _ _ _ (by decide) (by decide)]
  omega

/-- Settles O59: the exponent is that of the value, `roundHalfEven` is the nearest even, and the fields are in
range. -/
theorem tofIsTheNearestFloat : Obligations.TofIsTheNearestFloat := by
  refine ⟨by decide, fun s => ⟨fun x hx => ⟨fun hzero => ?_, fun hne => ?_⟩,
    fun h => rejects_of_invalid_dec h .tof (by simp)⟩⟩
  · rw [← toNat_nearestFloat_zero hzero]
    exact completes_tof hx
  · have ⟨hv, hsc, _⟩ := hx
    have hexponent := tofExponent_spec hne
    obtain ⟨hlow, hhigh⟩ := exponent_range hv hsc hne hexponent
    obtain ⟨e, f, hpos, hmax, hf, hword, hvalue⟩ := nearestFloat_fields hne (by omega) (by omega)
    have hnearest : NearestEven (x.v * 2 ^ (23 - tofExponent x).toNat) (10 ^ x.sc * 2 ^ (tofExponent x - 23).toNat)
        (tofSignificand x) := by
      rw [tofSignificand, floatSignificand_eq]
      exact roundHalfEven_nearest _ (by positivity)
    refine ⟨tofExponent x, tofSignificand x, hlow, hhigh, hexponent.1, hexponent.2, hnearest,
      (completes_tof hx).mono fun p q ⟨hp, hq⟩ => ?_⟩
    obtain ⟨hsign, hexp, -⟩ := fields_floatWord x.sg (by omega : e < 256) hf
    have hfloat := floatValue_floatWord x.sg hpos (by omega) hf
    rw [hvalue, ← mul_assoc] at hfloat
    rw [hp, hword]
    exact ⟨BitVec.isLt _, hq, hsign, hpos.trans_eq hexp.symm, hexp.trans_le hmax, hfloat⟩

end Sys2Proof.Machine
end

section
/-! SUPPORT. When FROMF is exact and which float an exact Decimal gives, and the proof of the statement of
48_convert.md about TOF of FROMF (spec rules R165 to R167). -/

namespace Sys2Proof.Machine

/-! ### Exact quotients -/

theorem nearestEven_exact (q : Nat) {d : Nat} (hd : 0 < d) : NearestEven (q * d) d q := by
  rw [NearestEven]
  push_cast
  rw [sub_self]
  omega

/-! ### FROMF without rounding (R165, R167) -/

/-- With at most 28 binary places the search finds a scale at which nothing is rounded. -/
theorem NearestFittingDecimal.exact {m n c u z sc : Nat} (h : NearestFittingDecimal m n c u z sc) (hm : m < 2 ^ 24)
    (hn : n ≤ 28) : (z : ℚ) / 10 ^ sc = m / 2 ^ n := by
  have hpow : 0 < 2 ^ n := by positivity
  have hten : m * 10 ^ n = m * 5 ^ n * 2 ^ n := by rw [mul_assoc, ← mul_pow]; norm_num
  have hfits : m * 5 ^ n ≤ max96 := by
    calc m * 5 ^ n ≤ 2 ^ 24 * 5 ^ 28 := Nat.mul_le_mul hm.le (Nat.pow_le_pow_right (by decide) hn)
      _ ≤ max96 := by decide
  have hc : n ≤ c := by
    by_contra hlt
    have hbig := h.largest n _ (Nat.lt_of_not_le hlt) hn (hten ▸ nearestEven_exact _ hpow)
    exact hbig.not_ge hfits
  obtain ⟨k, rfl⟩ := Nat.exists_eq_add_of_le hc
  have hscaled : m * 10 ^ (n + k) = m * 5 ^ n * 10 ^ k * 2 ^ n := by rw [pow_add, ← mul_assoc, hten]; ring
  have hu : u = m * 5 ^ n * 10 ^ k := nearestEven_unique hpow h.nearest (hscaled ▸ nearestEven_exact _ hpow)
  obtain ⟨j, hj⟩ := Nat.exists_eq_add_of_le h.stripped_le
  have hstripped : m * 5 ^ n * 10 ^ k = z * 10 ^ j := by rw [← hu, h.eq_stripped, hj, Nat.add_sub_cancel_left]
  rw [div_eq_div_iff (by positivity) (by positivity)]
  have hcross : z * 2 ^ n * 10 ^ j = m * 10 ^ sc * 10 ^ j := by
    rw [mul_right_comm, ← hstripped, ← hscaled, hj, pow_add, mul_assoc]
  exact_mod_cast Nat.eq_of_mul_eq_mul_right (by positivity) hcross

/-- A zero is delivered as a zero. -/
theorem NearestFittingDecimal.eq_zero {n c u z sc : Nat} (h : NearestFittingDecimal 0 n c u z sc) : z = 0 := by
  have hpow : 0 < 2 ^ n := by positivity
  have hzero : NearestEven (0 * 10 ^ c) (2 ^ n) 0 := by simpa using nearestEven_exact 0 hpow
  have hu := h.eq_stripped.symm.trans (nearestEven_unique hpow h.nearest hzero)
  simpa using hu

/-- The floats of R167: the zeros, and those whose last bit is at `2^-28` or above and whose magnitude is below
`2^96`. -/
def ExactByExponent (x : Nat) : Prop :=
  (exponentField x = 0 ∧ fractionField x = 0) ∨ (122 ≤ exponentField x ∧ exponentField x < 223)

/-- Below `2^96` a float that is an integer fits the mantissa. -/
theorem floatMantissa_mul_fits {x k : Nat} (hk : k ≤ 72) : floatMantissa x * 2 ^ k ≤ max96 := by
  rw [le_max96_iff]
  calc floatMantissa x * 2 ^ k < 2 ^ 24 * 2 ^ k := Nat.mul_lt_mul_of_pos_right (floatMantissa_lt x) (by positivity)
    _ ≤ 2 ^ 24 * 2 ^ 72 := Nat.mul_le_mul_left _ (Nat.pow_le_pow_right (by decide) hk)
    _ = 2 ^ 96 := by decide

/-- FROMF of these floats delivers their sign and exactly their magnitude. -/
theorem completes_fromf_exact {s : State} (hx : ExactByExponent (lowWord s.opa)) :
    ∃ d : Triple, d.sg = floatSign (lowWord s.opa) ∧
      d.magnitude = floatMantissa (lowWord s.opa) * 2 ^ lastBitExponent (lowWord s.opa) ∧
      Completes .fromf s 0 false false fun p q => IsDecResult p d ∧ q = 0 := by
  obtain ⟨he, hf⟩ | ⟨hlow, hhigh⟩ := hx
  · obtain ⟨c, u, z, sc, hnearest, hcompletes⟩ := completes_fromf_fraction (s := s) (by omega)
    have hzero : floatMantissa (lowWord s.opa) = 0 := by rw [floatMantissa, if_pos he, hf]
    rw [hzero] at hnearest
    refine ⟨_, rfl, ?_, hcompletes⟩
    simp [Triple.magnitude, hnearest.eq_zero, hzero]
  · have hnormal : exponentField (lowWord s.opa) ≠ 0 := by omega
    rw [lastBitExponent, if_neg hnormal]
    obtain hfraction | hint := Nat.lt_or_ge (exponentField (lowWord s.opa)) 150
    · obtain ⟨c, u, z, sc, hnearest, hcompletes⟩ := completes_fromf_fraction hfraction
      have hbits : fractionBits (lowWord s.opa) = 150 - exponentField (lowWord s.opa) := if_neg hnormal
      have hexponent : (exponentField (lowWord s.opa) : ℤ) - 150 = -(fractionBits (lowWord s.opa) : ℤ) := by omega
      refine ⟨_, rfl, ?_, hcompletes⟩
      rw [hexponent, zpow_neg, zpow_natCast, ← div_eq_mul_inv]
      exact hnearest.exact (floatMantissa_lt _) (by omega)
    · have hfits := floatMantissa_mul_fits (x := lowWord s.opa) (by omega : exponentField (lowWord s.opa) - 150 ≤ 72)
      have hexponent : (exponentField (lowWord s.opa) : ℤ) - 150 = (exponentField (lowWord s.opa) - 150 : ℕ) := by omega
      refine ⟨_, rfl, ?_, completes_fromf_integer (by omega) hint hfits⟩
      rw [hexponent, zpow_natCast, Triple.magnitude, pow_zero, div_one]
      push_cast
      rfl

/-! ### TOF without rounding (R166, R167) -/

theorem two_zpow_add (k : Nat) (a : ℤ) : (2 : ℚ) ^ (k + a) = (2 ^ k : Nat) * 2 ^ a := by
  rw [zpow_add₀ two_ne_zero, zpow_natCast]
  push_cast
  rfl

/-- The binary exponent of a normal float lies 23 places above its last bit (R63). -/
theorem isBinaryExponent_normal {f : Nat} (hf : f < 2 ^ 23) (a : ℤ) :
    IsBinaryExponent (23 + a) ((2 ^ 23 + f : Nat) * 2 ^ a) := by
  have hunit : (0 : ℚ) < 2 ^ a := by positivity
  have hlow : (2 : ℚ) ^ (23 + a) = (2 ^ 23 : Nat) * 2 ^ a := two_zpow_add 23 a
  have hhigh : (2 : ℚ) ^ (23 + a + 1) = (2 ^ 24 : Nat) * 2 ^ a := by rw [← two_zpow_add 24 a]; ring_nf
  rw [IsBinaryExponent, hlow, hhigh, mul_le_mul_iff_left₀ hunit, mul_lt_mul_iff_left₀ hunit, Nat.cast_le, Nat.cast_lt]
  omega

/-- A value that is a natural number of units of the significand's last bit is not rounded. -/
theorem floatSignificand_exact {m p n : Nat} {a : ℤ} (hp : p ≠ 0) (h : (m : ℚ) / p = n * 2 ^ a) :
    floatSignificand (23 + a) m p = n := by
  have hdivisor : 0 < p * 2 ^ (23 + a - 23).toNat := by positivity
  have hscaled := scaled_quotient (23 + a) m p
  have hcancel : (2 : ℚ) ^ a * 2 ^ (23 - (23 + a)) = 1 := by
    rw [← zpow_add₀ two_ne_zero, show a + (23 - (23 + a)) = 0 by ring, zpow_zero]
  rw [h, mul_assoc, hcancel, mul_one, div_eq_iff (by positivity)] at hscaled
  have hmultiple : m * 2 ^ (23 - (23 + a)).toNat = n * (p * 2 ^ (23 + a - 23).toNat) := by exact_mod_cast hscaled
  rw [floatSignificand_eq]
  exact nearestEven_unique hdivisor (roundHalfEven_nearest _ hdivisor) (hmultiple ▸ nearestEven_exact n hdivisor)

/-- A Decimal whose magnitude is that of a normal float gives that float: the exponent is determined and nothing is
rounded. -/
theorem nearestFloat_exact {x : Triple} {e f : Nat} (hpos : 1 ≤ e) (hf : f < 2 ^ 23)
    (hmagnitude : x.magnitude = (2 ^ 23 + f : Nat) * 2 ^ ((e : ℤ) - 150)) : nearestFloat x = floatWord x.sg e f := by
  have hne : x.v ≠ 0 := by
    intro hzero
    rw [Triple.magnitude, hzero, Nat.cast_zero, zero_div] at hmagnitude
    exact (show (0 : ℚ) < (2 ^ 23 + f : Nat) * 2 ^ ((e : ℤ) - 150) by positivity).ne hmagnitude
  have hexponent : tofExponent x = 23 + ((e : ℤ) - 150) :=
    (tofExponent_spec hne).unique (hmagnitude ▸ isBinaryExponent_normal hf _)
  have hsignificand : tofSignificand x = 2 ^ 23 + f := by
    rw [tofSignificand, hexponent]
    exact floatSignificand_exact (by positivity) (x.magnitude_eq ▸ hmagnitude)
  have hcarry : 2 ^ 23 + f ≠ 2 ^ 24 := by omega
  have hfield : (23 + ((e : ℤ) - 150) + 127).toNat = e := by omega
  rw [nearestFloat_of_ne_zero hne, hsignificand, hexponent, if_neg hcarry, hfield, Nat.add_sub_cancel_left]

/-! ### The round trip (R167) -/

theorem Triple.value_eq_magnitude (x : Triple) : x.value = signFactor x.sg * x.magnitude := mul_div_assoc _ _ _

theorem toNat_floatSign {x : Nat} (hx : x < 2 ^ 32) : (floatSign x).toNat = x / 2 ^ 31 := by
  have hsign : x / 2 ^ 31 = 0 ∨ x / 2 ^ 31 = 1 := by omega
  obtain h | h := hsign <;> rw [floatSign, h] <;> rfl

/-- A Decimal with the sign and exactly the magnitude of one of these floats gives the float back. -/
theorem toNat_nearestFloat_exact {x : Nat} {d : Triple} (hlt : x < 2 ^ 32) (hx : ExactByExponent x)
    (hsg : d.sg = floatSign x) (hmagnitude : d.magnitude = floatMantissa x * 2 ^ lastBitExponent x) :
    (nearestFloat d).toNat = x := by
  have hfields := sum_fields x
  obtain ⟨he, hf⟩ | ⟨hlow, hhigh⟩ := hx
  · have hzero : d.v = 0 := by
      rw [floatMantissa, if_pos he, hf, Nat.cast_zero, zero_mul] at hmagnitude
      rw [← Triple.value_eq_zero_iff, Triple.value_eq_magnitude, hmagnitude, mul_zero]
    rw [he, hf, zero_mul, add_zero, add_zero] at hfields
    rw [toNat_nearestFloat_zero hzero, hsg, toNat_floatSign hlt, hfields]
  · have hnormal : exponentField x ≠ 0 := by omega
    rw [floatMantissa, lastBitExponent, if_neg hnormal, if_neg hnormal] at hmagnitude
    rw [nearestFloat_exact (by omega) (fractionField_lt x) hmagnitude,
      toNat_floatWord _ _ _ (exponentField_lt x) (fractionField_lt x), hsg, toNat_floatSign hlt, hfields]

/-- Settles O60: FROMF is exact, so the Decimal has the float's value, and TOF rounds nothing. -/
theorem floatRoundTrip : Obligations.FloatRoundTrip := by
  intro s x f e hx hf he hexact
  obtain rfl : f = fractionField x := hf
  obtain rfl : e = exponentField x := he
  subst hx
  obtain ⟨d, hsg, hmagnitude, t, hexec, ⟨hdec, -⟩, hstatus, -⟩ := completes_fromf_exact hexact
  have hlt := lowWord_lt s.opa
  refine ⟨t, d, hexec, hstatus, hdec, ?_, ?_⟩
  · rw [floatValue_eq hlt, Triple.value_eq_magnitude, hsg, hmagnitude]
  · rw [← toNat_nearestFloat_exact hlt hexact hsg hmagnitude]
    exact completes_tof hdec.1

end Sys2Proof.Machine
end
